-- ==== Sys2Proof/Word.lean ====
section
/-! DEFINITION. The word types of the serial protocol engine (SPE): an 8-bit byte, a 16-bit command word, and the level of one line.

Spec: `00_scope.md` R9 (every data value is 8 bits wide), R10 (bits, values, levels), `30_encoding.md` R85 (16-bit command word). -/

namespace Sys2Proof

/-- A data value: 8 bits, unsigned, bit 7 the most significant (R9, R10). -/
abbrev Byte := BitVec 8

/-- A command word: 16 bits, bit 15 the most significant (R85). -/
abbrev Word := BitVec 16

/-- A logical level, one bit: `false` is 0 ("low"), `true` is 1 ("high") (R10). -/
abbrev Level := Bool

end Sys2Proof
end

