-- ==== Sys2Proof/Syntax.lean ====
section
/-! DEFINITION. The operations of the SPE, one constructor per row of `spec/opcode_table.json`, and what a command word can decode to.

Spec: `30_encoding.md` R88 (the opcode map), R93 (the textual form), R87 and R89 (reserved words). -/

namespace Sys2Proof

/-- The six operations of the caller-visible surface (R88, R93). An operand is the byte of the `ARG` field as it stands (R86). -/
inductive Instr where
  /-- `writeByte(v)`: send one Byte Frame (R101, R103). -/
  | writeByte (v : Byte)
  /-- `readByte() -> b`: assemble one Byte Frame (R105, R107). -/
  | readByte
  /-- `sendCommand(c)`: one transaction of one command byte (R121). -/
  | sendCommand (c : Byte)
  /-- `sendData(v)`: one transaction of one data byte (R123). -/
  | sendData (v : Byte)
  /-- `readChipId() -> (b0, b1)`: the chip-ID transaction (R126, R128). -/
  | readChipId
  /-- `runResetSequence()`: the Reset Cycle (R142). -/
  | runResetSequence
deriving DecidableEq, Repr

/-- Why a command word is reserved (R89). -/
inductive Reserved where
  /-- The field `Z` (bits 15:12) is not zero. -/
  | zField
  /-- The field `OP` (bits 11:8) names no operation. -/
  | opField
  /-- An operation of format `N` with `ARG` (bits 7:0) not zero. -/
  | argField
deriving DecidableEq, Repr

/-- What the decoder answers for a command word (R87). -/
inductive Decoded where
  /-- The word names an operation. -/
  | op (i : Instr)
  /-- The word is reserved. -/
  | reserved (why : Reserved)
deriving DecidableEq, Repr

end Sys2Proof
end

