-- ==== Sys2Proof/Decode.lean ====
section
/-! DEFINITION. The decoder of command words, total on 16-bit words, and the encoder.

Spec: `30_encoding.md` R85 (formats), R86 (fields), R87 (decoding), R88 (the opcode map), R89 (reserved words). -/

namespace Sys2Proof

/-- The field `Z`, bits 15:12 (R86). -/
def zField (w : Word) : BitVec 4 := w.extractLsb' 12 4

/-- The field `OP`, bits 11:8 (R86). -/
def opField (w : Word) : BitVec 4 := w.extractLsb' 8 4

/-- The field `ARG`, bits 7:0 (R86). -/
def argField (w : Word) : Byte := w.extractLsb' 0 8

/-- An operation of format `A`: `ARG` is the operand (R85). -/
def formatA (f : Byte → Instr) (w : Word) : Decoded := .op (f (argField w))

/-- An operation of format `N`: `ARG` must be zero (R85, R86). -/
def formatN (i : Instr) (w : Word) : Decoded := if argField w = 0 then .op i else .reserved .argField

/-- The decoder (R87). It depends on the word alone. -/
def decode (w : Word) : Decoded :=
  if zField w ≠ 0 then .reserved .zField
  else if opField w = 0x1 then formatA .writeByte w
  else if opField w = 0x2 then formatN .readByte w
  else if opField w = 0x3 then formatA .sendCommand w
  else if opField w = 0x4 then formatA .sendData w
  else if opField w = 0x5 then formatN .readChipId w
  else if opField w = 0x6 then formatN .runResetSequence w
  else .reserved .opField

/-- The operation code (R88). -/
def opCode : Instr → BitVec 4
  | .writeByte _ => 0x1
  | .readByte => 0x2
  | .sendCommand _ => 0x3
  | .sendData _ => 0x4
  | .readChipId => 0x5
  | .runResetSequence => 0x6

/-- The 8-bit operand of an operation, 0 when it has none (R24, R86). -/
def arg : Instr → Byte
  | .writeByte v => v
  | .readByte => 0
  | .sendCommand c => c
  | .sendData v => v
  | .readChipId => 0
  | .runResetSequence => 0

/-- The encoder: `Z = 0000`, then `OP`, then `ARG` (R85, R86, R88). -/
def encode (i : Instr) : Word := (0#4 ++ opCode i) ++ arg i

/-- A row's `mask` in the opcode map (R88). -/
def rowMask : Instr → Word
  | .writeByte _ => 0xFF00
  | .readByte => 0xFFFF
  | .sendCommand _ => 0xFF00
  | .sendData _ => 0xFF00
  | .readChipId => 0xFFFF
  | .runResetSequence => 0xFFFF

/-- A row's `match` in the opcode map (R88). -/
def rowMatch : Instr → Word
  | .writeByte _ => 0x0100
  | .readByte => 0x0200
  | .sendCommand _ => 0x0300
  | .sendData _ => 0x0400
  | .readChipId => 0x0500
  | .runResetSequence => 0x0600

/-- The operation the decoder reads, if the word names one. -/
def Decoded.instr? : Decoded → Option Instr
  | .op i => some i
  | .reserved _ => none

/-- The number a table word stands for, cut to `nbits` bits. -/
def tableNumber (nbits w : Nat) : Nat := w % 2 ^ nbits

/-- The operation the decoder reads from a table word: bit 0 of `w` is bit 0 of the command word (R85). A number that needs more than the
16 bits of a command word is no command word. -/
def decodeTableWord (nbits w : Nat) : Option Instr :=
  if tableNumber nbits w < 2 ^ 16 then (decode (BitVec.ofNat 16 (tableNumber nbits w))).instr? else none

end Sys2Proof
end

