-- ==== Sys2Proof/Config.lean ====
section
/-! DEFINITION. What an implementation of the SPE fixes, and the values the spec leaves free.

Spec: `00_scope.md` R8 (the table of parameters), `92_eei_decisions.md` (its parameter table). The parameters of R8 marked "parameter" are the
fields of `Params`, which a state carries unchanged, so that a statement can speak of every value of them. The free values are `opaque`
constants with no body. -/

namespace Sys2Proof

/-- `VARIANT` (R3, R8): which link engine is built. -/
inductive Variant where
  /-- The Software Link Engine: the SPE makes every edge itself. -/
  | SW
  /-- The Hardware-Assisted Link Engine: a peripheral moves each byte; it cannot read. -/
  | HW
deriving DecidableEq, Repr

/-- The parameters of R8 and R37. Not state of the SPE: no step changes them. -/
structure Params where
  /-- `VARIANT`. -/
  variant : Variant
  /-- `RESET_LOW_HOLD`, in time-units. -/
  resetLowHold : Nat
  /-- `RESET_HIGH_HOLD`, in time-units. -/
  resetHighHold : Nat
  /-- `BUSY_POLL_INTERVAL`, in time-units. -/
  busyPollInterval : Nat
  /-- `READY_SETTLE`, in time-units. -/
  readySettle : Nat
  /-- `BUSY_POLL_LIMIT`: `none` is unbounded, `some N` bounds the samples of `BUSY` that read "not ready". -/
  busyPollLimit : Option Nat
  /-- `CHIP_ID_OPCODE`: the byte `readChipId` writes. -/
  chipIdOpcode : Byte
  /-- `DC_RESET`: the level of `LINE[DC].out` after engine reset. -/
  dcReset : Level
  /-- `T_EDGE` in nanoseconds: the duration of one edge delay of the `SW` link engine (R58). No rule's outcome depends on it (R220). -/
  tEdge : Nat
  /-- `T_UNIT` in nanoseconds: the duration of one time-unit (R59, D8). No rule's outcome depends on it (R220). -/
  tUnit : Nat
deriving DecidableEq, Repr

namespace Config

/-- `FRAME_BITS` (R8, fixed). -/
abbrev FRAME_BITS : Nat := 8
/-- `LVL_SELECT_ACTIVE` (R8, R83, fixed): select asserted. -/
abbrev LVL_SELECT_ACTIVE : Level := false
/-- Select de-asserted (R8, R83). -/
abbrev LVL_SELECT_INACTIVE : Level := true
/-- `LVL_MODE_COMMAND` (R8, R83, fixed). -/
abbrev LVL_MODE_COMMAND : Level := false
/-- `LVL_MODE_DATA` (R8, R83, fixed). -/
abbrev LVL_MODE_DATA : Level := true
/-- `LVL_BUSY_READY` (R8, R83, fixed). -/
abbrev LVL_BUSY_READY : Level := true
/-- `LVL_RESET_ASSERT` (R8, R83, fixed): the level of the reset line during a pulse. -/
abbrev LVL_RESET_ASSERT : Level := false
/-- The reset line released (R8, R83). -/
abbrev LVL_RESET_RELEASE : Level := true
/-- `RESET_PULSES` (R8, R154, fixed). -/
abbrev RESET_PULSES : Nat := 2
/-- `CHIP_ID_LEN` (R8, fixed). -/
abbrev CHIP_ID_LEN : Nat := 2

/-- The default of `T_UNIT`: 1 millisecond (R8, D8). -/
abbrev T_UNIT : Nat := 1000000

/-- Free value: the open part of the default of `T_EDGE`, for which the spec has no number (R8, D8). -/
opaque freeEdge : Nat

/-- The default of `T_EDGE`: positive and below a microsecond ("sub-microsecond", R8, R58), otherwise free (log entry 12). -/
def T_EDGE : Nat := freeEdge % 999 + 1

/-- The parameters a reset state carries: the defaults of R8. R8 gives `VARIANT`, `DC_RESET` and `T_EDGE` no default; `SW` and 0 are the
model's (DESIGN CHOICE, log entries 2 and 3; unsafe for a claim that rests on them), and `T_EDGE` is a free value (log entry 12). -/
def default : Params where
  variant := .SW
  resetLowHold := 20
  resetHighHold := 10
  busyPollInterval := 1
  readySettle := 10
  busyPollLimit := none
  chipIdOpcode := 0x70#8
  dcReset := false
  tEdge := T_EDGE
  tUnit := T_UNIT

/-- Free value: the level the `n`-th drawn sample of `SDA` returns when the device's script says nothing (R54, R61, U5). -/
opaque freeSda : Nat → Level

/-- Free value: the level the `n`-th drawn sample of `BUSY` returns when the device's script says nothing (R55, R62, U9). -/
opaque freeBusy : Nat → Level

/-- Free value: whether the device drives `SDA` during a step when its script says nothing (R57, R61). -/
opaque freeDrives : Nat → Bool

/-- Free value: the unspecified contents of `LINE[SDA].in` and `LINE[BUSY].in` after an engine reset (R37, U10). -/
opaque freeReset : Nat → Level

end Config

end Sys2Proof
end

