-- ==== Sys2Proof/Machine/State.lean ====
section
/-! DEFINITION. The state of the SPE as plain data, its reset value, and the reasons a step can stop.

Spec: `10_state.md` (R20 to R37), `20_memory.md` R66 (events and the trace), `30_encoding.md` R90 (status codes), `60_exceptions.md` R179.
Fields the SPE does not have but a model of it needs (the parameters, the host's moves, the device's script, the trace and the list of
responses, the record of contention) are marked as the model's own; log entries 4 to 7 say why they are there. -/

namespace Sys2Proof.Machine

/-- A direction of the shared data line (R26, R27). -/
inductive Dir where
  /-- The SPE drives the line. -/
  | OUT
  /-- The SPE does not drive the line and may sample it. -/
  | IN
deriving DecidableEq, Repr

/-- The six logical lines (R26). -/
inductive Line where
  | SCK | SDA | CSN | DC | RSTN | BUSY
deriving DecidableEq, Repr

/-- The lines the SPE can drive (R53). -/
inductive OutLine where
  | SCK | SDA | CSN | DC | RSTN
deriving DecidableEq, Repr

/-- The lines the SPE can sample (R54, R55). -/
inductive InLine where
  | SDA | BUSY
deriving DecidableEq, Repr

/-- The states of the reset handshake synchronizer (R30, R140). -/
inductive RState where
  | Idle | AssertingReset | Released1 | AssertingReset2 | Released2 | AwaitingBusy | Ready
deriving DecidableEq, Repr

/-- The sequencer position `SEQ` (R24). `run i k`: operation `i`, with its operand, is running and `k` is the index of the NEXT
micro-operation. -/
inductive Seq where
  | idle
  | run (i : Instr) (k : Nat)
deriving DecidableEq, Repr

/-- The status of a response (R90). -/
inductive Status where
  | OK | UnsupportedOperation | Timeout | IllegalOperation
deriving DecidableEq, Repr

/-- The abstract response `Rsp(status, data)` (R35): `data` lists the bytes the operation read, in the order received. -/
structure Response where
  status : Status
  data : List Byte
deriving DecidableEq, Repr

/-- An event of the trace (R66): what one micro-operation did to the lines. -/
inductive Event where
  /-- `Dir(d)`. -/
  | dir (d : Dir)
  /-- `Drive(L, b)`. -/
  | drive (l : OutLine) (b : Level)
  /-- `Sample(L, b)`. -/
  | sample (l : InLine) (b : Level)
  /-- `DelayEdge`. -/
  | delayEdge
  /-- `Sleep(n)`, in time-units. -/
  | sleep (n : Nat)
  /-- `Xfer(tx)`. -/
  | xfer (tx : List Byte)
deriving DecidableEq, Repr

/-- A move of the host or of whoever applies engine reset (R175, R193, R200). The model's own: the input a step takes from outside. -/
inductive HostMove where
  /-- Hold `w` on the command port until the SPE is idle and takes it (the valid/ready handshake of R193). -/
  | present (w : Word)
  /-- Hold `w` on the command port for this step only: taken if the SPE is idle, dropped if it is busy (R36, R200). -/
  | strobe (w : Word)
  /-- Apply engine reset now (R190). -/
  | ereset
  /-- Do nothing for one step. -/
  | wait
deriving DecidableEq, Repr

/-- What the host's move comes to at one step. -/
inductive Action where
  /-- Engine reset is applied. -/
  | reset
  /-- A command word stands on the port. -/
  | offer (w : Word)
  /-- Nothing stands on any input port. -/
  | quiet
deriving DecidableEq, Repr

/-- The device's side of the lines, a free input (R61, R62). The model's own: a script of what the device does, and a counter that names
the next free value when a script has run out. -/
structure Device where
  /-- The levels the next samples of `SDA` return, in order. -/
  sda : List Level
  /-- The levels the next samples of `BUSY` return, in order. -/
  busy : List Level
  /-- For each coming step, whether the device drives `SDA` at some moment from the step's effect to the next step's. -/
  drives : List Bool
  /-- How many free values have been drawn. -/
  draws : Nat
deriving DecidableEq, Repr

/-- The whole state. -/
structure State where
  /-- The parameters of R8; the model's own field: not state of the SPE, and no step changes it. -/
  params : Params
  /-- `SR`, the shift register (R20). -/
  sr : Byte
  /-- `RD0`, the first result register (R21). -/
  rd0 : Byte
  /-- `RD1`, the second result register (R21). -/
  rd1 : Byte
  /-- `SEQ`, the sequencer position (R24). -/
  seq : Seq
  /-- `LINE[SCK].out` (R26). -/
  sckOut : Level
  /-- `LINE[SDA].dir`, the direction flag `DIR` (R26, R27). -/
  sdaDir : Dir
  /-- `LINE[SDA].out` (R26). -/
  sdaOut : Level
  /-- `LINE[SDA].in` (R26). -/
  sdaIn : Level
  /-- `LINE[CSN].out` (R26). -/
  csnOut : Level
  /-- `LINE[DC].out` (R26). -/
  dcOut : Level
  /-- `LINE[RSTN].out` (R26). -/
  rstnOut : Level
  /-- `LINE[BUSY].in` (R26). -/
  busyIn : Level
  /-- `RSTATE` (R30). -/
  rstate : RState
  /-- `POLLCNT` (R32): `none` where the register does not exist, which is where `BUSY_POLL_LIMIT = none`. -/
  pollcnt : Option Nat
  /-- The response port (R35, R193): the response presented by the latest step, if that step presented one. -/
  rsp : Option Response
  /-- The moves the host has still to make, next first; the model's own. -/
  host : List HostMove
  /-- The device's script; the model's own. -/
  device : Device
  /-- The trace since engine reset, oldest event first (R66); the model's own record. -/
  trace : List Event
  /-- The responses of the run, oldest first (R66, R211); the model's own record. -/
  responses : List Response
  /-- Whether the model-level fault `Contention` was recorded in the run (R57, R179); the model's own record. -/
  contention : Bool
deriving DecidableEq, Repr

/-- Why a run of the model stops. No command word stops a run from a state a run can reach; see `INVENTORY.md`, "Faults". -/
inductive Fault where
  /-- `PrimitivePrecondition` (R179 (b)): `drive(SDA, b)` with `DIR = IN`, or `sample(SDA)` with `DIR = OUT`. Raised by the line primitives.
  Safe: no micro-program reaches it. -/
  | primitivePrecondition
  /-- The sequencer stands past the last micro-operation of the running operation (R24 rules it out). Raised by `runOperation`.
  Safe: no run reaches it. -/
  | sequencerOutOfRange
deriving DecidableEq, Repr

/-- Why an instruction has no meaning in the model. -/
inductive Refusal where
  /-- The instruction has no meaning yet; only an arm of `exec` raises it, and no arm does. Safe: the machine stops. -/
  | notModelled (mnemonic : String)
deriving DecidableEq, Repr

/-- `DIR` after engine reset (R37): `IN` in `SW`, `OUT` in `HW`. -/
def resetDir : Variant → Dir
  | .SW => .IN
  | .HW => .OUT

/-- The state right after engine reset for the parameters `p` (R37), with `sdaIn` and `busyIn` for the two unspecified samples, nothing
asked by the host, nothing scripted for the device and nothing recorded. -/
def State.resetWith (p : Params) (sdaIn busyIn : Level) : State where
  params := p
  sr := 0x00#8
  rd0 := 0x00#8
  rd1 := 0x00#8
  seq := .idle
  sckOut := false
  sdaDir := resetDir p.variant
  sdaOut := false
  sdaIn := sdaIn
  csnOut := true
  dcOut := p.dcReset
  rstnOut := true
  busyIn := busyIn
  rstate := .Idle
  pollcnt := p.busyPollLimit.map fun _ => 0
  rsp := none
  host := []
  device := { sda := [], busy := [], drives := [], draws := 0 }
  trace := []
  responses := []
  contention := false

/-- The machine right after reset (R37) with the default parameters. `DC`, `LINE[SDA].in` and `LINE[BUSY].in` are unspecified in R37; the
model names 0 for each (DESIGN CHOICE, log entries 3 and 8; unsafe for a claim that rests on them, and no rule reads them). -/
def State.reset : State := State.resetWith Config.default false false

end Sys2Proof.Machine
end

