-- ==== Sys2Proof/Machine/MicroOp.lean ====
section
/-! DEFINITION. The form of a micro-operation: one line primitive, with the register writes that stand before and after it in the same step.

Spec: `00_scope.md` R10 and R12 (micro-operation, micro-program), `10_state.md` R24 and R25, `20_memory.md` R51. -/

namespace Sys2Proof.Machine

/-- The level a `drive` puts on its line: a fixed level, or bit 7 of the shift register (R101). -/
inductive DriveLevel where
  | const (b : Level)
  | srMsb
deriving DecidableEq, Repr

/-- The six line primitives (R51). -/
inductive Prim where
  /-- `setdir(SDA, d)` (R52). -/
  | setdir (d : Dir)
  /-- `drive(L, b)` (R53). -/
  | drive (l : OutLine) (b : DriveLevel)
  /-- `sample(L)` (R54, R55). -/
  | sample (l : InLine)
  /-- `delay_edge()` (R58). -/
  | delayEdge
  /-- `sleep(n)` (R59). -/
  | sleep (n : Nat)
  /-- `xfer(tx)` (R60). -/
  | xfer (tx : List Byte)
deriving DecidableEq, Repr

/-- A register write that a micro-operation makes beside its primitive; it emits no event (R66). -/
inductive RegWrite where
  /-- `SR <- v`. -/
  | loadSr (v : Byte)
  /-- `SR <- (SR << 1)[7:0]` (R70). -/
  | shiftSr
  /-- `SR <- SR | zext_8(b)`, `b` the bit just sampled from `SDA` (R70, R105). -/
  | insertSr
  /-- `RD0 <- SR`. -/
  | rd0FromSr
  /-- `RD1 <- SR`. -/
  | rd1FromSr
  /-- `RSTATE <- r`. -/
  | setRState (r : RState)
deriving DecidableEq, Repr

/-- One micro-operation (R25): register writes, the primitive, register writes. -/
structure MicroOp where
  before : List RegWrite
  prim : Prim
  after : List RegWrite
deriving DecidableEq, Repr

end Sys2Proof.Machine
end

