-- ==== Sys2Proof/Machine/Ops.lean ====
section
/-! DEFINITION. The named operations over the state: the shift arithmetic, the lines, the line primitives, the device's free inputs, responses,
refusal (the SPE's only exception entry), completion, engine reset, and the record of contention.

Spec: `20_memory.md` R51 to R60 and R70, `10_state.md` R35 and R36, `60_exceptions.md` R162, R168, R169, `70_reset_and_hazards.md` R190. The SPE
has no memory (R50), so there are no operations on memory. A condition saves nothing and there is nothing to return from (R168, R169). -/

namespace Sys2Proof.Machine

/-- What a step answers. -/
abbrev Result := Host.Outcome State Fault Refusal

/-- Go on with the next state; a stop stays a stop. -/
def andThen (r : Result) (f : State → Result) : Result :=
  match r with
  | .next s => f s
  | .fault e => .fault e
  | .refused e => .refused e

/-! ## The shift arithmetic (R70) -/

/-- `(v << 1)[7:0]`: bit 7 is discarded and bit 0 becomes 0 (R70). -/
def shiftLeftOne (v : Byte) : Byte := v <<< 1

/-- `v | zext_8(b)` (R70). -/
def insertLow (v : Byte) (b : Level) : Byte := v ||| (BitVec.ofBool b).setWidth 8

/-- `v[7]`, the bit a write slot drives (R101). -/
def topBit (v : Byte) : Level := v.getLsbD 7

/-! ## Lines and the trace -/

/-- Append one event to the trace (R66). -/
def State.emit (e : Event) (s : State) : State := { s with trace := s.trace ++ [e] }

/-- `LINE[L].out <- b` (R26). -/
def State.setOut (l : OutLine) (b : Level) (s : State) : State :=
  match l with
  | .SCK => { s with sckOut := b }
  | .SDA => { s with sdaOut := b }
  | .CSN => { s with csnOut := b }
  | .DC => { s with dcOut := b }
  | .RSTN => { s with rstnOut := b }

/-- `LINE[L].out` (R26). -/
def State.out (l : OutLine) (s : State) : Level :=
  match l with
  | .SCK => s.sckOut
  | .SDA => s.sdaOut
  | .CSN => s.csnOut
  | .DC => s.dcOut
  | .RSTN => s.rstnOut

/-! ## The device's free inputs (R54, R55, R61, R62) -/

/-- The level the next sample of `SDA` returns: the script's next level, or a free value. -/
def Device.sdaLevel (d : Device) : Level :=
  match d.sda with
  | b :: _ => b
  | [] => Config.freeSda d.draws

/-- The device after a sample of `SDA`. -/
def Device.afterSda (d : Device) : Device :=
  match d.sda with
  | _ :: rest => { d with sda := rest }
  | [] => { d with draws := d.draws + 1 }

/-- The level the next sample of `BUSY` returns: the script's next level, or a free value. -/
def Device.busyLevel (d : Device) : Level :=
  match d.busy with
  | b :: _ => b
  | [] => Config.freeBusy d.draws

/-- The device after a sample of `BUSY`. -/
def Device.afterBusy (d : Device) : Device :=
  match d.busy with
  | _ :: rest => { d with busy := rest }
  | [] => { d with draws := d.draws + 1 }

/-- Whether the device drives `SDA` during the coming step: the script's next entry, or a free value. -/
def Device.drivesNow (d : Device) : Bool :=
  match d.drives with
  | b :: _ => b
  | [] => Config.freeDrives d.draws

/-- The device after one step has passed. -/
def Device.afterStep (d : Device) : Device :=
  match d.drives with
  | _ :: rest => { d with drives := rest }
  | [] => { d with draws := d.draws + 1 }

/-! ## The line primitives (R51) -/

/-- Whether the precondition of `drive(L, b)` holds: `L` is an output, which for `SDA` is `DIR = OUT` (R53). -/
def mayDrive (l : OutLine) (s : State) : Bool := decide (l ≠ .SDA) || decide (s.sdaDir = .OUT)

/-- Whether the precondition of `sample(L)` holds: for `SDA` it is `DIR = IN`; `BUSY` is always an input (R54, R55). -/
def maySample (l : InLine) (s : State) : Bool := decide (l ≠ .SDA) || decide (s.sdaDir = .IN)

/-- `drive(L, b)` (R53). -/
def drive (l : OutLine) (b : Level) (s : State) : Result :=
  if mayDrive l s then .next ((s.setOut l b).emit (.drive l b)) else .fault .primitivePrecondition

/-- The effect of `sample(L)` on a line that may be sampled (R54, R55): `LINE[L].in` and the event carry the level the device gives. -/
def sampled (l : InLine) (s : State) : State :=
  match l with
  | .SDA => { s with sdaIn := s.device.sdaLevel, device := s.device.afterSda }.emit (.sample .SDA s.device.sdaLevel)
  | .BUSY => { s with busyIn := s.device.busyLevel, device := s.device.afterBusy }.emit (.sample .BUSY s.device.busyLevel)

/-- `sample(L)` (R54, R55). -/
def sample (l : InLine) (s : State) : Result :=
  if maySample l s then .next (sampled l s) else .fault .primitivePrecondition

/-- `delay_edge()` (R58): no state change. -/
def delayEdge (s : State) : State := s.emit .delayEdge

/-- `sleep(n)` (R59): no state change. -/
def sleep (n : Nat) (s : State) : State := s.emit (.sleep n)

/-- `xfer(tx)` (R60): no state change in the SPE. -/
def xfer (tx : List Byte) (s : State) : State := s.emit (.xfer tx)

/-! ## Response, refusal, completion, acceptance (R35, R36, R162) -/

/-- Present `Rsp(status, data)` to the host (R35). -/
def State.respond (r : Response) (s : State) : State := { s with rsp := some r, responses := s.responses ++ [r] }

/-- `complete(status)` (R35): `SEQ <- Idle` and the response, as one action. -/
def complete (st : Status) (data : List Byte) (s : State) : State := { s with seq := .idle }.respond ⟨st, data⟩

/-- `refuse(status)` (R162), the SPE's only exception entry: present `Rsp(status, [])`; nothing else changes. -/
def refuse (st : Status) (s : State) : State := s.respond ⟨st, []⟩

/-- Acceptance of an operation (R36): it is latched, with its operand, at its first micro-operation. -/
def accept (i : Instr) (s : State) : State := { s with seq := .run i 0 }

/-- Acceptance of an operation that reads from the device (R36, R161): refused in `HW`. -/
def acceptRead (i : Instr) (s : State) : State :=
  match s.params.variant with
  | .SW => accept i s
  | .HW => refuse .UnsupportedOperation s

/-- Acceptance of `runResetSequence` (R36, R142): `RSTATE <- Idle`, and `POLLCNT <- 0` where it exists. -/
def acceptReset (s : State) : State :=
  accept .runResetSequence { s with rstate := .Idle, pollcnt := s.pollcnt.map fun _ => 0 }

/-! ## Engine reset and what a step adds -/

/-- Engine reset (R190, R191): every piece of state of the SPE takes its value of R37 and a running operation is cut with no response.
`LINE[SDA].in` and `LINE[BUSY].in` become free values (R37); a new trace begins; the parameters, the host's and the device's further moves,
the responses already given and a recorded contention stay. -/
def engineReset (s : State) : State :=
  { s with
    sr := 0x00#8
    rd0 := 0x00#8
    rd1 := 0x00#8
    seq := .idle
    sckOut := false
    sdaDir := resetDir s.params.variant
    sdaOut := false
    sdaIn := Config.freeReset s.device.draws
    csnOut := Config.LVL_SELECT_INACTIVE
    dcOut := s.params.dcReset
    rstnOut := Config.LVL_RESET_RELEASE
    busyIn := Config.freeReset (s.device.draws + 1)
    rstate := .Idle
    pollcnt := s.params.busyPollLimit.map fun _ => 0
    rsp := none
    device := { s.device with draws := s.device.draws + 2 }
    trace := [] }

/-- What passes on the wire of `SDA` during a step (R57, R179 (a)): if the SPE drives it (`DIR = OUT`) while the device does, the model-level
fault `Contention` is recorded and kept; the SPE itself goes on. -/
def observeDevice (s : State) : State :=
  { s with
    contention := s.contention || (decide (s.sdaDir = .OUT) && s.device.drivesNow)
    device := s.device.afterStep }

end Sys2Proof.Machine
end

