-- ==== Sys2Proof/Machine/Flags.lean ====
section
/-! DEFINITION. The flags. The SPE has one flag, `DIR`, the direction of the shared data line; it has no condition codes, no carry and no zero
flag (`10_state.md` R27). `DIR` is written only by `setdir` (`20_memory.md` R52). -/

namespace Sys2Proof.Machine

/-- `setdir(SDA, d)` (R52): `DIR <- d`; `LINE[SDA].out` and `LINE[SDA].in` are unchanged. -/
def setdir (d : Dir) (s : State) : State := { s with sdaDir := d }.emit (.dir d)

end Sys2Proof.Machine
end

