-- ==== Sys2Proof/Machine/Operands.lean ====
section
/-! DEFINITION. The operands of a micro-operation, its register writes, and performing one micro-operation; the bytes a completed operation
returns.

The host's one operand form is the byte `ARG` as it stands (`30_encoding.md` R86); a micro-operation's operand is a fixed level or bit 7 of `SR`
(`40_link_engine.md` R101). Spec: `10_state.md` R25, R35; `20_memory.md` R51, R70. -/

namespace Sys2Proof.Machine

/-- The level a `drive` puts on its line. -/
def DriveLevel.value (b : DriveLevel) (s : State) : Level :=
  match b with
  | .const b => b
  | .srMsb => topBit s.sr

/-- One register write (R70, R101, R105, R126, R142). -/
def RegWrite.apply (w : RegWrite) (s : State) : State :=
  match w with
  | .loadSr v => { s with sr := v }
  | .shiftSr => { s with sr := shiftLeftOne s.sr }
  | .insertSr => { s with sr := insertLow s.sr s.sdaIn }
  | .rd0FromSr => { s with rd0 := s.sr }
  | .rd1FromSr => { s with rd1 := s.sr }
  | .setRState r => { s with rstate := r }

/-- Register writes in the order listed. -/
def applyWrites : List RegWrite → State → State
  | [], s => s
  | w :: ws, s => applyWrites ws (w.apply s)

/-- One line primitive (R51). -/
def runPrim (p : Prim) (s : State) : Result :=
  match p with
  | .setdir d => .next (setdir d s)
  | .drive l b => drive l (b.value s) s
  | .sample l => sample l s
  | .delayEdge => .next (delayEdge s)
  | .sleep n => .next (sleep n s)
  | .xfer tx => .next (xfer tx s)

/-- Perform one micro-operation (R25): the register writes and the line primitive it lists, in order. -/
def MicroOp.perform (m : MicroOp) (s : State) : Result :=
  andThen (runPrim m.prim (applyWrites m.before s)) fun t => .next (applyWrites m.after t)

/-- The bytes an operation that completed `OK` returns (R35): those it read, in the order received. -/
def responseData (i : Instr) (s : State) : List Byte :=
  match i with
  | .writeByte _ => []
  | .readByte => [s.rd0]
  | .sendCommand _ => []
  | .sendData _ => []
  | .readChipId => [s.rd0, s.rd1]
  | .runResetSequence => []

end Sys2Proof.Machine
end

