-- ==== Sys2Proof/Machine/Sequencer.lean ====
section
/-! DEFINITION. The sequencer: one step of an operation, shared by every meaning.

Spec: `10_state.md` R24, R25 (the step), R36 (acceptance); `42_reset_sync.md` R146, R150 (the poll loop is in `ResetSync.lean`). -/

namespace Sys2Proof.Machine

/-- After micro-operation `k` of an operation with `len` micro-operations (R25): the next index, or `complete(OK)` after the last. -/
def advance (i : Instr) (len k : Nat) (s : State) : State :=
  if k + 1 = len then complete .OK (responseData i s) s else { s with seq := .run i (k + 1) }

/-- One step of operation `i` (R25, R36), given its acceptance, its micro-program and what follows micro-operation `k`.
When the SPE is idle, `i` is accepted (or refused). When `i` is running at `k`, micro-operation `k` is performed. When another operation is
running, `i` is not accepted and nothing happens (R36, R200). -/
def runOperation (i : Instr) (onAccept : State → State) (program : List MicroOp) (follow : Nat → State → State) (s : State) : Result :=
  match s.seq with
  | .idle => .next (onAccept s)
  | .run j k =>
    if j = i then
      match program[k]? with
      | some m => andThen (m.perform s) fun t => .next (follow k t)
      | none => .fault .sequencerOutOfRange
    else .next s

end Sys2Proof.Machine
end

