-- ==== Sys2Proof/Machine/LinkEngine.lean ====
section
/-! DEFINITION. The link engine: `writeByte` and `readByte`, in both variants.

Spec: `40_link_engine.md` R100, R101, R103, R105, R107; `30_encoding.md` R81 (bit slots). -/

namespace Sys2Proof.Machine

/-- A micro-operation that makes no register write. -/
def plain (p : Prim) : MicroOp := ⟨[], p, []⟩

/-- One write slot (R81, R101): five micro-operations; the shift of `SR` rides on the second delay. -/
def writeSlot : List MicroOp :=
  [plain (.drive .SCK (.const false)), plain (.drive .SDA .srMsb), plain .delayEdge, plain (.drive .SCK (.const true)),
    ⟨[], .delayEdge, [.shiftSr]⟩]

/-- One read slot (R81, R105): five micro-operations; the shift, the sample and the insertion are one of them. -/
def readSlot : List MicroOp :=
  [plain (.drive .SCK (.const false)), plain .delayEdge, plain (.drive .SCK (.const true)), ⟨[.shiftSr], .sample .SDA, [.insertSr]⟩,
    plain .delayEdge]

/-- `n` slots one after the other. -/
def slots : Nat → List MicroOp → List MicroOp
  | 0, _ => []
  | n + 1, slot => slot ++ slots n slot

/-- The micro-program of `writeByte(v)` (R101 in `SW`, R103 in `HW`). -/
def writeByteProgram (variant : Variant) (v : Byte) : List MicroOp :=
  match variant with
  | .SW => ⟨[.loadSr v], .setdir .OUT, []⟩ :: (slots Config.FRAME_BITS writeSlot ++ [plain (.drive .SCK (.const false))])
  | .HW => [plain (.xfer [v])]

/-- The micro-program of one read frame (R105), whose last micro-operation makes the register write `result`; `HW` has none (R107). -/
def readFrame (variant : Variant) (result : RegWrite) : List MicroOp :=
  match variant with
  | .SW => ⟨[.loadSr 0x00#8], .setdir .IN, []⟩ :: (slots Config.FRAME_BITS readSlot ++ [⟨[], .drive .SCK (.const false), [result]⟩])
  | .HW => []

/-- The micro-program of `readByte` (R105). -/
def readByteProgram (variant : Variant) : List MicroOp := readFrame variant .rd0FromSr

/-- `writeByte(v)` (R101, R103). -/
def execWriteByte (v : Byte) (s : State) : Result :=
  runOperation (.writeByte v) (accept (.writeByte v)) (writeByteProgram s.params.variant v)
    (advance (.writeByte v) (writeByteProgram s.params.variant v).length) s

/-- `readByte()` (R105); refused in `HW` (R107). -/
def execReadByte (s : State) : Result :=
  runOperation .readByte (acceptRead .readByte) (readByteProgram s.params.variant)
    (advance .readByte (readByteProgram s.params.variant).length) s

end Sys2Proof.Machine
end

