-- ==== Sys2Proof/Machine/Framer.lean ====
section
/-! DEFINITION. The transaction framer: `sendCommand`, `sendData`, `readChipId`.

Spec: `41_transaction_framer.md` R121, R123, R126, R128; `30_encoding.md` R82 (transactions). -/

namespace Sys2Proof.Machine

/-- A transaction of one written byte with the mode line at `mode` (R121, R123): select, mode, the byte by the variant's link engine, de-select. -/
def oneByteTransaction (variant : Variant) (mode : Level) (v : Byte) : List MicroOp :=
  plain (.drive .CSN (.const Config.LVL_SELECT_ACTIVE)) :: plain (.drive .DC (.const mode)) ::
    (writeByteProgram variant v ++ [plain (.drive .CSN (.const Config.LVL_SELECT_INACTIVE))])

/-- The micro-program of `sendCommand(c)` (R121). -/
def sendCommandProgram (variant : Variant) (c : Byte) : List MicroOp := oneByteTransaction variant Config.LVL_MODE_COMMAND c

/-- The micro-program of `sendData(v)` (R123). -/
def sendDataProgram (variant : Variant) (v : Byte) : List MicroOp := oneByteTransaction variant Config.LVL_MODE_DATA v

/-- The micro-program of `readChipId()` (R126); `HW` has none (R128). -/
def readChipIdProgram (variant : Variant) (opcode : Byte) : List MicroOp :=
  match variant with
  | .SW =>
    plain (.drive .CSN (.const Config.LVL_SELECT_ACTIVE)) :: plain (.drive .DC (.const Config.LVL_MODE_COMMAND)) ::
      (writeByteProgram .SW opcode ++ plain (.drive .DC (.const Config.LVL_MODE_DATA)) ::
        (readFrame .SW .rd0FromSr ++ (readFrame .SW .rd1FromSr ++ [plain (.drive .CSN (.const Config.LVL_SELECT_INACTIVE))])))
  | .HW => []

/-- `sendCommand(c)` (R121). -/
def execSendCommand (c : Byte) (s : State) : Result :=
  runOperation (.sendCommand c) (accept (.sendCommand c)) (sendCommandProgram s.params.variant c)
    (advance (.sendCommand c) (sendCommandProgram s.params.variant c).length) s

/-- `sendData(v)` (R123). -/
def execSendData (v : Byte) (s : State) : Result :=
  runOperation (.sendData v) (accept (.sendData v)) (sendDataProgram s.params.variant v)
    (advance (.sendData v) (sendDataProgram s.params.variant v).length) s

/-- `readChipId()` (R126); refused in `HW` (R128). -/
def execReadChipId (s : State) : Result :=
  runOperation .readChipId (acceptRead .readChipId) (readChipIdProgram s.params.variant s.params.chipIdOpcode)
    (advance .readChipId (readChipIdProgram s.params.variant s.params.chipIdOpcode).length) s

end Sys2Proof.Machine
end

