-- ==== Sys2Proof/Machine/ResetSync.lean ====
section
/-! DEFINITION. The reset handshake synchronizer: `runResetSequence`, unbounded and bounded.

Spec: `42_reset_sync.md` R140, R142, R146, R148, R150. The operation is the same in both variants (R141). -/

namespace Sys2Proof.Machine

/-- `RSTATE <- r ; drive(RSTN, b)` (R142). -/
def enterReset (r : RState) (b : Level) : MicroOp := ⟨[.setRState r], .drive .RSTN (.const b), []⟩

/-- The micro-program of `runResetSequence()` (R142), k = 0..10. -/
def resetProgram (p : Params) : List MicroOp :=
  [enterReset .AssertingReset Config.LVL_RESET_ASSERT, plain (.sleep p.resetLowHold),
    enterReset .Released1 Config.LVL_RESET_RELEASE, plain (.sleep p.resetHighHold),
    enterReset .AssertingReset2 Config.LVL_RESET_ASSERT, plain (.sleep p.resetLowHold),
    enterReset .Released2 Config.LVL_RESET_RELEASE, plain (.sleep p.resetHighHold),
    ⟨[.setRState .AwaitingBusy], .sample .BUSY, []⟩, plain (.sleep p.busyPollInterval), plain (.sleep p.readySettle)]

/-- `RSTATE <- Idle ; complete(Timeout)` (R150). -/
def timeout (s : State) : State := complete .Timeout [] { s with rstate := .Idle }

/-- A sample of `BUSY` that read "not ready" (R146): with a limit, count it, and end with `Timeout` when the count reaches the limit. -/
def notReady (s : State) : State :=
  match s.params.busyPollLimit with
  | none => { s with seq := .run .runResetSequence 9 }
  | some n =>
    if s.pollcnt.getD 0 + 1 = n then timeout { s with pollcnt := some (s.pollcnt.getD 0 + 1) }
    else { s with pollcnt := some (s.pollcnt.getD 0 + 1), seq := .run .runResetSequence 9 }

/-- After a sample of `BUSY` (R146). -/
def pollDecision (s : State) : State :=
  if s.busyIn = Config.LVL_BUSY_READY then { s with rstate := .Ready, seq := .run .runResetSequence 10 } else notReady s

/-- What follows micro-operation `k` of `runResetSequence` (R25, R146): the poll loop over 8 and 9, else the plain advance. -/
def resetFollow (len k : Nat) (s : State) : State :=
  if k = 8 then pollDecision s
  else if k = 9 then { s with seq := .run .runResetSequence 8 }
  else advance .runResetSequence len k s

/-- `runResetSequence()` (R142). -/
def execRunResetSequence (s : State) : Result :=
  runOperation .runResetSequence acceptReset (resetProgram s.params) (resetFollow (resetProgram s.params).length) s

end Sys2Proof.Machine
end

