-- ==== Sys2Proof/Machine/Dispatch.lean ====
section
/-! DEFINITION. One arm per operation: the step of that operation (R25, R36). -/

namespace Sys2Proof.Machine

def exec (i : Instr) (s : State) : Host.Outcome State Fault Refusal :=
  match i with
  | .writeByte v => Sys2Proof.Machine.execWriteByte v s
  | .readByte => Sys2Proof.Machine.execReadByte s
  | .sendCommand c => Sys2Proof.Machine.execSendCommand c s
  | .sendData v => Sys2Proof.Machine.execSendData v s
  | .readChipId => Sys2Proof.Machine.execReadChipId s
  | .runResetSequence => Sys2Proof.Machine.execRunResetSequence s

end Sys2Proof.Machine
end

