-- ==== Sys2Proof/Machine/Ports.lean ====
section
/-! DEFINITION. The ports of the block, and where a step takes its next input from.

Spec: `70_reset_and_hazards.md` R193 (ports), `30_encoding.md` R90, R91 (status codes, the response port), `10_state.md` R26, R30, R36. -/

namespace Sys2Proof.Machine

/-- The host's move at this step, and the state with it taken from the host's list. A `present`ed word stays until the SPE is idle (R193). -/
def fetch (s : State) : Action × State :=
  match s.host with
  | [] => (.quiet, s)
  | .present w :: rest => if s.seq = .idle then (.offer w, { s with host := rest }) else (.quiet, s)
  | .strobe w :: rest => (.offer w, { s with host := rest })
  | .ereset :: rest => (.reset, { s with host := rest })
  | .wait :: rest => (.quiet, { s with host := rest })

/-- The state with the command word of a table row put where `step` takes its next one: the SPE idle, the word first on the command port. -/
def placeWord (s : State) (nbits w : Nat) : State :=
  { s with seq := .idle, host := .present (BitVec.ofNat 16 (tableNumber nbits w)) :: s.host }

/-- A step begins with no response on the port: a response is presented for one cycle (R193). -/
def State.clearRsp (s : State) : State := { s with rsp := none }

/-- The index column of the table of lines (R26); no rule uses the numbers. -/
def Line.index : Line → Nat
  | .SCK => 0
  | .SDA => 1
  | .CSN => 2
  | .DC => 3
  | .RSTN => 4
  | .BUSY => 5

/-- The 3-bit code of a state of the synchronizer (R30). -/
def RState.code : RState → BitVec 3
  | .Idle => 0
  | .AssertingReset => 1
  | .Released1 => 2
  | .AssertingReset2 => 3
  | .Released2 => 4
  | .AwaitingBusy => 5
  | .Ready => 6

/-- The 2-bit code of a status (R90). -/
def Status.code : Status → BitVec 2
  | .OK => 0
  | .UnsupportedOperation => 1
  | .Timeout => 2
  | .IllegalOperation => 3

/-- The direction of a line (R26): only `SDA` changes direction. -/
def State.dir (l : Line) (s : State) : Dir :=
  match l with
  | .SCK => .OUT
  | .SDA => s.sdaDir
  | .CSN => .OUT
  | .DC => .OUT
  | .RSTN => .OUT
  | .BUSY => .IN

/-- Port `cmd_ready`: 1 exactly when `SEQ = Idle`. -/
def State.cmdReady (s : State) : Level := decide (s.seq = .idle)

/-- Port `rsp_valid`. -/
def State.rspValid (s : State) : Level := s.rsp.isSome

/-- Port `rsp_status`, while a response is presented. -/
def State.rspStatus (s : State) : Option (BitVec 2) := s.rsp.map fun r => r.status.code

/-- Port `rsp_data`: `{RD1, RD0}` (R91). -/
def State.rspData (s : State) : BitVec 16 := s.rd1 ++ s.rd0

/-- A port of the serial lines, which in `HW` belongs to the peripheral and not to the SPE (R193). -/
def State.swPort {α : Type} (s : State) (v : α) : Option α :=
  match s.params.variant with
  | .SW => some v
  | .HW => none

/-- Port `sck_o`. -/
def State.sckO (s : State) : Option Level := s.swPort s.sckOut

/-- Port `sda_o`. -/
def State.sdaO (s : State) : Option Level := s.swPort s.sdaOut

/-- Port `sda_oe`: 1 exactly when `DIR = OUT`. -/
def State.sdaOe (s : State) : Option Level := s.swPort (decide (s.sdaDir = .OUT))

/-- Port `csn_o`. -/
def State.csnO (s : State) : Level := s.csnOut

/-- Port `dc_o`. -/
def State.dcO (s : State) : Level := s.dcOut

/-- Port `rstn_o`. -/
def State.rstnO (s : State) : Level := s.rstnOut

end Sys2Proof.Machine
end

