-- ==== Sys2Proof/Machine/Engine.lean ====
section
/-! DEFINITION. How the SPE reacts to the host's move of one step.

Spec: `10_state.md` R25 (the step), R36 (acceptance); `60_exceptions.md` R163; `70_reset_and_hazards.md` R190, R200. -/

namespace Sys2Proof.Machine

/-- A command word offered to an idle SPE (R36): a reserved word is refused with `IllegalOperation` (R89, R163). -/
def acceptWord (w : Word) (s : State) : Result :=
  match decode w with
  | .op i => exec i s
  | .reserved _ => .next (refuse .IllegalOperation s)

/-- The SPE's step when no word is offered (R25): the running operation goes on; an idle SPE waits. -/
def proceed (s : State) : Result :=
  match s.seq with
  | .idle => .next s
  | .run i _ => exec i s

/-- What the machine does with the host's move. A word offered to a busy SPE is dropped (R36, R200). -/
def react (a : Action) (s : State) : Result :=
  match a with
  | .reset => .next (engineReset s)
  | .offer w => if s.seq = .idle then acceptWord w s else proceed s
  | .quiet => proceed s

/-- The host's move, the SPE's reaction to it, then what passes on the shared wire (R57). -/
def stepOnce (s : State) : Result :=
  andThen (react (fetch s.clearRsp).1 (fetch s.clearRsp).2) fun t => .next (observeDevice t)

end Sys2Proof.Machine
end

