-- ==== Sys2Proof/Machine/Step.lean ====
section
/-! DEFINITION. One step of the machine (`10_state.md` R25, R36), and placing a command word where the next step takes it. -/

namespace Sys2Proof.Machine

/-- The state in which the very next step takes the command word of a table row, as if the host presented it to an idle SPE. -/
def State.withFetchWord (s : State) (nbits w : Nat) : State := placeWord s nbits w

/-- One step. -/
def step (s : State) : Host.Outcome State Fault Refusal := stepOnce s

end Sys2Proof.Machine
end

