-- ==== Sys2Proof/WellFormed.lean ====
section
/-! DEFINITION. Well-formedness: which operations a variant provides, and which parameter values are legal.

An operand is an 8-bit vector and every value of it is legal (R86), so every term of `Instr` has an encoding and needs no further check of
its fields. What can be ill-formed is an operation for a variant that lacks it (R100, R161), and a set of parameters (R8). -/

namespace Sys2Proof

/-- The operations that read from the device (R161). -/
def Instr.isRead : Instr → Bool
  | .writeByte _ => false
  | .readByte => true
  | .sendCommand _ => false
  | .sendData _ => false
  | .readChipId => true
  | .runResetSequence => false

/-- Whether the variant provides the operation (R100, R161): the `HW` link engine has no read capability. -/
def Instr.wellFormed (v : Variant) (i : Instr) : Bool :=
  match v with
  | .SW => true
  | .HW => !i.isRead

/-- The legal parameter values (R8, R59, D8): every hold time is a positive number of time-units, a poll limit is at least 1, and the two durations are
positive. -/
def Params.wellFormed (p : Params) : Bool :=
  decide (0 < p.resetLowHold) && decide (0 < p.resetHighHold) && decide (0 < p.busyPollInterval) && decide (0 < p.readySettle)
    && decide (p.busyPollLimit ≠ some 0) && decide (0 < p.tEdge) && decide (0 < p.tUnit)

end Sys2Proof
end

