-- ==== Sys2Proof/Safety.lean ====
section
/-! DEFINITION. The terms claims are stated in: an operation run for a number of steps, the traces the spec writes out, the reference receiver,
minimum durations, the invariant of the machine, and which line events are lawful in a state. -/

namespace Sys2Proof.Machine

/-! ## Running -/

/-- `n` steps of operation `i` alone, with no host and no record of contention between them. -/
def operate (i : Instr) : Nat → State → Result
  | 0, s => .next s
  | n + 1, s => andThen (exec i s) (operate i n)

/-- The state a step answers, if it answers one. -/
def nextState (r : Result) : Option State :=
  match r with
  | .next s => some s
  | .fault _ => none
  | .refused _ => none

/-- The micro-program of each operation (R24, R101, R103, R105, R121, R123, R126, R142). -/
def microProgram (p : Params) (i : Instr) : List MicroOp :=
  match i with
  | .writeByte v => writeByteProgram p.variant v
  | .readByte => readByteProgram p.variant
  | .sendCommand c => sendCommandProgram p.variant c
  | .sendData v => sendDataProgram p.variant v
  | .readChipId => readChipIdProgram p.variant p.chipIdOpcode
  | .runResetSequence => resetProgram p

/-! ## The traces the spec writes out -/

/-- The bits of a byte in wire order, bit 7 first (R63, R80). -/
def wireBits (v : Byte) : List Level :=
  [v.getLsbD 7, v.getLsbD 6, v.getLsbD 5, v.getLsbD 4, v.getLsbD 3, v.getLsbD 2, v.getLsbD 1, v.getLsbD 0]

/-- The byte `SR` holds after the bits have been shifted in, the first bit highest when there are eight (R70). -/
def byteOfBits (bits : List Level) : Byte := bits.foldl (fun v b => insertLow (shiftLeftOne v) b) 0x00#8

/-- `S(b)` of R101: the events of one write slot. -/
def writeSlotTrace (b : Level) : List Event :=
  [.drive .SCK false, .drive .SDA b, .delayEdge, .drive .SCK true, .delayEdge]

/-- The trace of `writeByte(v)` in `SW` (R101). -/
def writeByteTrace (v : Byte) : List Event := .dir .OUT :: ((wireBits v).flatMap writeSlotTrace ++ [.drive .SCK false])

/-- `W(v)`: the trace of `writeByte(v)` in a variant (R101, R103). -/
def frameTrace (variant : Variant) (v : Byte) : List Event :=
  match variant with
  | .SW => writeByteTrace v
  | .HW => [.xfer [v]]

/-- `Q(b)` of R105: the events of one read slot. -/
def readSlotTrace (b : Level) : List Event :=
  [.drive .SCK false, .delayEdge, .drive .SCK true, .sample .SDA b, .delayEdge]

/-- The trace of one read frame whose samples are `bits` (R105). -/
def readByteTrace (bits : List Level) : List Event := .dir .IN :: (bits.flatMap readSlotTrace ++ [.drive .SCK false])

/-- The trace of a one-byte transaction (R121, R123). -/
def transactionTrace (variant : Variant) (mode : Level) (v : Byte) : List Event :=
  [.drive .CSN false, .drive .DC mode] ++ frameTrace variant v ++ [.drive .CSN true]

/-- The trace of `readChipId()` (R126). -/
def chipIdTrace (opcode : Byte) (bits0 bits1 : List Level) : List Event :=
  [.drive .CSN false, .drive .DC false] ++ writeByteTrace opcode ++ [.drive .DC true] ++ readByteTrace bits0 ++ readByteTrace bits1
    ++ [.drive .CSN true]

/-- The eight pulse events of a Reset Cycle (R142, R144). -/
def pulseTrace (p : Params) : List Event :=
  [.drive .RSTN false, .sleep p.resetLowHold, .drive .RSTN true, .sleep p.resetHighHold,
    .drive .RSTN false, .sleep p.resetLowHold, .drive .RSTN true, .sleep p.resetHighHold]

/-- `[Sample(BUSY,0), Sleep(interval)]^n` (R142). -/
def pollTrace (interval : Nat) : Nat → List Event
  | 0 => []
  | n + 1 => .sample .BUSY false :: .sleep interval :: pollTrace interval n

/-! ## The device's answers -/

/-- The levels the next `n` samples of `SDA` return. -/
def sdaLevels : Nat → Device → List Level
  | 0, _ => []
  | n + 1, d => d.sdaLevel :: sdaLevels n d.afterSda

/-- The device after `n` samples of `SDA`. -/
def afterSdaLevels : Nat → Device → Device
  | 0, d => d
  | n + 1, d => afterSdaLevels n d.afterSda

/-- The levels the next `n` samples of `BUSY` return. -/
def busyLevels : Nat → Device → List Level
  | 0, _ => []
  | n + 1, d => d.busyLevel :: busyLevels n d.afterBusy

/-- The device after `n` samples of `BUSY`. -/
def afterBusyLevels : Nat → Device → Device
  | 0, d => d
  | n + 1, d => afterBusyLevels n d.afterBusy

/-! ## Reading a trace -/

/-- The level the SPE is known to drive on `SDA` after an event: unknown from a `Dir` until the next drive (R52, U4). -/
def speLevel (known : Option Level) (e : Event) : Option Level :=
  match e with
  | .dir _ => none
  | .drive .SDA b => some b
  | .drive .SCK _ => known
  | .drive .CSN _ => known
  | .drive .DC _ => known
  | .drive .RSTN _ => known
  | .sample _ _ => known
  | .delayEdge => known
  | .sleep _ => known
  | .xfer _ => known

/-- The level last driven on a line, `none` before the first drive. -/
def lineLevel (l : OutLine) (known : Option Level) (e : Event) : Option Level :=
  if e = .drive l false then some false else if e = .drive l true then some true else known

/-- A running value of a trace, noted at each rising edge of `SCK` (the event `Drive(SCK, 1)`). -/
def atRisingEdges {α : Type} (update : α → Event → α) (a : α) : List Event → List α
  | [] => []
  | e :: es => (if e = .drive .SCK true then [a] else []) ++ atRisingEdges update (update a e) es

/-- The reference receiver of `95_test_vectors.md` section 1: at each rising edge of `SCK`, the level the SPE is known to drive on `SDA`. -/
def received (es : List Event) : List (Option Level) := atRisingEdges speLevel none es

/-- The level of the mode line at each rising edge of `SCK`. -/
def modeAtEdges (es : List Event) : List (Option Level) := atRisingEdges (lineLevel .DC) none es

/-- The level of the select line at each rising edge of `SCK`. -/
def selectAtEdges (es : List Event) : List (Option Level) := atRisingEdges (lineLevel .CSN) none es

/-- Whether an event drives a line. -/
def drives (l : OutLine) (e : Event) : Bool := decide (e = .drive l false) || decide (e = .drive l true)

/-- Whether an event samples `SDA`. -/
def samplesSda (e : Event) : Bool := decide (e = .sample .SDA false) || decide (e = .sample .SDA true)

/-- For each event that satisfies `start`, in order, how many `DelayEdge` events lie between it and the next that satisfies `stop`. -/
def delaysBetween (start stop : Event → Bool) : Option Nat → List Event → List Nat
  | _, [] => []
  | none, e :: es => delaysBetween start stop (if start e then some 0 else none) es
  | some n, e :: es =>
    if stop e then n :: delaysBetween start stop (if start e then some 0 else none) es
    else delaysBetween start stop (some (if e = .delayEdge then n + 1 else n)) es

/-- Whether `SDA` is driven in a trace only after a falling drive of `SCK` with no rising drive since (R102 (c)). -/
def dataOnlyWhileLow : Bool → List Event → Bool
  | _, [] => true
  | low, e :: es =>
    (if drives .SDA e then low else true)
      && dataOnlyWhileLow (if e = .drive .SCK false then true else if e = .drive .SCK true then false else low) es

/-- The least time an event takes, in nanoseconds (R58, R59, R221). -/
def eventDuration (p : Params) (e : Event) : Nat :=
  match e with
  | .dir _ => 0
  | .drive _ _ => 0
  | .sample _ _ => 0
  | .delayEdge => p.tEdge
  | .sleep n => n * p.tUnit
  | .xfer _ => 0

/-- The least time the delays of a trace take, in nanoseconds (R221). -/
def minDuration (p : Params) (es : List Event) : Nat := (es.map (eventDuration p)).sum

/-! ## The invariant -/

/-- The level a line is left at by micro-operations that drive it to fixed levels, from the level `b`. -/
def levelAfter (l : OutLine) (b : Level) : List MicroOp → Level
  | [] => b
  | m :: ms =>
    match m.prim with
    | .drive l' (.const b') => levelAfter l (if l' = l then b' else b) ms
    | .drive _ .srMsb => levelAfter l b ms
    | .setdir _ => levelAfter l b ms
    | .sample _ => levelAfter l b ms
    | .delayEdge => levelAfter l b ms
    | .sleep _ => levelAfter l b ms
    | .xfer _ => levelAfter l b ms

/-- The direction micro-operations leave `DIR` at, `none` if they do not set it. -/
def dirAfter (d : Option Dir) : List MicroOp → Option Dir
  | [] => d
  | m :: ms =>
    match m.prim with
    | .setdir d' => dirAfter (some d') ms
    | .drive _ _ => dirAfter d ms
    | .sample _ => dirAfter d ms
    | .delayEdge => dirAfter d ms
    | .sleep _ => dirAfter d ms
    | .xfer _ => dirAfter d ms

/-- Whether `RSTATE` may hold `r` while micro-operation `k` of `runResetSequence` is the next (R30, R142, R146). -/
def rstateAt (k : Nat) (r : RState) : Bool :=
  match k with
  | 0 => decide (r = .Idle)
  | 1 | 2 => decide (r = .AssertingReset)
  | 3 | 4 => decide (r = .Released1)
  | 5 | 6 => decide (r = .AssertingReset2)
  | 7 => decide (r = .Released2)
  | 8 => decide (r = .Released2) || decide (r = .AwaitingBusy)
  | 9 => decide (r = .AwaitingBusy)
  | _ => decide (r = .Ready)

/-- `RSTATE` when no reset cycle runs (R151). -/
def restingRState (r : RState) : Bool := decide (r = .Idle) || decide (r = .Ready)

/-- `POLLCNT` exists exactly when a limit is configured (R32), and counts at most to it, below it while a reset cycle still polls. -/
def pollcntLawful (s : State) : Prop :=
  match s.params.busyPollLimit, s.pollcnt with
  | none, none => True
  | some n, some c => c ≤ n ∧ ∀ k, s.seq = .run .runResetSequence k → c < n
  | none, some _ => False
  | some _, none => False

/-- What holds of the sequencer and the lines (R24, R28, R29, R124, R151): an idle SPE has its clock low, select and reset released; a running
operation stands inside its micro-program, is one its variant provides, and its lines are where its micro-program left them. -/
def linesLawful (s : State) : Prop :=
  match s.seq with
  | .idle => s.sckOut = false ∧ s.csnOut = true ∧ s.rstnOut = true ∧ restingRState s.rstate = true
  | .run i k =>
    k < (microProgram s.params i).length ∧
    s.sckOut = levelAfter .SCK false ((microProgram s.params i).take k) ∧
    s.csnOut = levelAfter .CSN true ((microProgram s.params i).take k) ∧
    s.rstnOut = levelAfter .RSTN true ((microProgram s.params i).take k) ∧
    (∀ d, dirAfter none ((microProgram s.params i).take k) = some d → s.sdaDir = d) ∧
    (if i = .runResetSequence then rstateAt k s.rstate = true else restingRState s.rstate = true)

/-- The invariant of the machine: legal parameters, lawful lines and sequencer, `DIR = OUT` throughout in `HW` (R27), a lawful poll count. -/
structure Inv (s : State) : Prop where
  params : s.params.wellFormed = true
  lines : linesLawful s
  hwDir : s.params.variant = .HW → s.sdaDir = .OUT
  pollcnt : pollcntLawful s

/-- Which events are lawful in a state, on the wire (R53, R54, R56, R82, R125, R152): data driven only while the clock is low and the SPE owns the
wire; data sampled only while the clock is high and the SPE does not drive the wire; select moved only while the clock is low; mode moved only inside
a transaction while the clock is low; the clock and the data wire left alone and select released while the reset line moves or `BUSY` is sampled. -/
def lawfulEvent (s : State) (e : Event) : Prop :=
  match e with
  | .dir _ => s.params.variant = .SW ∧ s.sckOut = false
  | .drive .SCK _ => s.params.variant = .SW ∧ s.rstnOut = true
  | .drive .SDA _ => s.params.variant = .SW ∧ s.sckOut = false ∧ s.sdaDir = .OUT
  | .drive .CSN _ => s.sckOut = false ∧ s.rstnOut = true
  | .drive .DC _ => s.sckOut = false ∧ s.csnOut = false
  | .drive .RSTN _ => s.sckOut = false ∧ s.csnOut = true
  | .sample .SDA _ => s.params.variant = .SW ∧ s.sckOut = true ∧ s.sdaDir = .IN
  | .sample .BUSY _ => s.sckOut = false ∧ s.csnOut = true ∧ s.rstnOut = true
  | .delayEdge => s.params.variant = .SW
  | .sleep _ => s.sckOut = false ∧ s.csnOut = true
  | .xfer _ => s.params.variant = .HW

end Sys2Proof.Machine
end

