-- ==== Sys2Proof/Certificates/Slice0/Obligations.lean ====
section
/-! DEFINITION. The statements for the provers. Each docstring names the rule or section of the spec the statement formalises; where a
statement rests on a choice of the model, its docstring names the log entry. -/

open Sys2Proof Sys2Proof.Machine

/-! ## Encoding -/

/-- The decoding vectors of `95_test_vectors.md` section 3. -/
def Obligations.DecodesTheSpecsWords : Prop :=
  decode 0x0000 = .reserved .opField ∧ decode 0x00A5 = .reserved .opField ∧
  decode 0x0100 = .op (.writeByte 0x00) ∧ decode 0x01A5 = .op (.writeByte 0xA5) ∧ decode 0x01FF = .op (.writeByte 0xFF) ∧
  decode 0x0200 = .op .readByte ∧ decode 0x0201 = .reserved .argField ∧ decode 0x02FF = .reserved .argField ∧
  decode 0x0300 = .op (.sendCommand 0x00) ∧ decode 0x0370 = .op (.sendCommand 0x70) ∧
  decode 0x0400 = .op (.sendData 0x00) ∧ decode 0x04FF = .op (.sendData 0xFF) ∧
  decode 0x0500 = .op .readChipId ∧ decode 0x0501 = .reserved .argField ∧
  decode 0x0600 = .op .runResetSequence ∧ decode 0x0680 = .reserved .argField ∧
  decode 0x0700 = .reserved .opField ∧ decode 0x0F00 = .reserved .opField ∧
  decode 0x1100 = .reserved .zField ∧ decode 0x8100 = .reserved .zField ∧ decode 0xFFFF = .reserved .zField

/-- R87: the decoder, case by case, for every word. -/
def Obligations.DecodeFollowsTheFields : Prop :=
  ∀ w : Word,
    (w.extractLsb' 12 4 ≠ 0 → ∃ r, decode w = .reserved r) ∧
    (w.extractLsb' 12 4 = 0 →
      (w.extractLsb' 8 4 = 0x1 → decode w = .op (.writeByte (w.extractLsb' 0 8))) ∧
      (w.extractLsb' 8 4 = 0x3 → decode w = .op (.sendCommand (w.extractLsb' 0 8))) ∧
      (w.extractLsb' 8 4 = 0x4 → decode w = .op (.sendData (w.extractLsb' 0 8))) ∧
      (w.extractLsb' 8 4 = 0x2 → w.extractLsb' 0 8 = 0 → decode w = .op .readByte) ∧
      (w.extractLsb' 8 4 = 0x2 → w.extractLsb' 0 8 ≠ 0 → ∃ r, decode w = .reserved r) ∧
      (w.extractLsb' 8 4 = 0x5 → w.extractLsb' 0 8 = 0 → decode w = .op .readChipId) ∧
      (w.extractLsb' 8 4 = 0x5 → w.extractLsb' 0 8 ≠ 0 → ∃ r, decode w = .reserved r) ∧
      (w.extractLsb' 8 4 = 0x6 → w.extractLsb' 0 8 = 0 → decode w = .op .runResetSequence) ∧
      (w.extractLsb' 8 4 = 0x6 → w.extractLsb' 0 8 ≠ 0 → ∃ r, decode w = .reserved r) ∧
      (w.extractLsb' 8 4 = 0x0 ∨ 0x7 ≤ w.extractLsb' 8 4 → ∃ r, decode w = .reserved r))

/-- Decode and encode agree on every operation and every word (`30_encoding.md` section 4; D26: the decoder is a bijection between legal words
and pairs of operation and operand). -/
def Obligations.DecodeAndEncodeAgree : Prop := ∀ (w : Word) (i : Instr), decode w = .op i ↔ w = encode i

/-- The opcode map (`30_encoding.md` section 4): a word selects a row when its masked bits equal the row's `match`. -/
def Obligations.DecodeAgreesWithTheOpcodeMap : Prop :=
  ∀ w : Word,
    (w &&& 0xFF00 = 0x0100 ↔ ∃ v, decode w = .op (.writeByte v)) ∧ (w &&& 0xFFFF = 0x0200 ↔ decode w = .op .readByte) ∧
    (w &&& 0xFF00 = 0x0300 ↔ ∃ v, decode w = .op (.sendCommand v)) ∧ (w &&& 0xFF00 = 0x0400 ↔ ∃ v, decode w = .op (.sendData v)) ∧
    (w &&& 0xFFFF = 0x0500 ↔ decode w = .op .readChipId) ∧ (w &&& 0xFFFF = 0x0600 ↔ decode w = .op .runResetSequence)

/-- The count of `30_encoding.md` section 5: of the 65536 words 771 are legal and 64765 are reserved. -/
def Obligations.LegalWordsAreCounted : Prop :=
  ((List.range 65536).countP fun n => (decode (BitVec.ofNat 16 n)).instr?.isSome) = 771 ∧
  ((List.range 65536).countP fun n => (decode (BitVec.ofNat 16 n)).instr?.isNone) = 64765

/-! ## The host interface: acceptance, refusal, the step -/

/-- A step of the machine is the step of the decoded or of the running operation, between clearing the response port and noting what passes on
the shared wire. The host's list of moves is the model's own form of the command port (log entry 5). -/
def Obligations.StepRunsTheDecodedInstruction : Prop :=
  (∀ (s : State) (w : Word) (i : Instr) (rest : List HostMove),
    s.seq = .idle → decode w = .op i → s.host = .present w :: rest ∨ s.host = .strobe w :: rest →
    step s = andThen (exec i { s with rsp := none, host := rest }) fun t => .next (observeDevice t)) ∧
  (∀ (s : State) (i : Instr) (k : Nat), s.seq = .run i k →
    (s.host = [] ∨ (∃ w rest, s.host = .present w :: rest) →
      step s = andThen (exec i { s with rsp := none }) fun t => .next (observeDevice t)) ∧
    (∀ m rest, s.host = m :: rest → m = .wait ∨ (∃ w, m = .strobe w) →
      step s = andThen (exec i { s with rsp := none, host := rest }) fun t => .next (observeDevice t))) ∧
  (∀ (s : State) (i : Instr),
    step (s.withFetchWord 16 (encode i).toNat) =
      andThen (exec i { s with seq := .idle, rsp := none }) fun t => .next (observeDevice t))

/-- Acceptance (`10_state.md` section 6): an operation accepted by an idle SPE whose variant provides it is latched at micro-operation 0, and `runResetSequence` also puts
`RSTATE` at `Idle` and clears `POLLCNT` where it exists. Nothing else changes. -/
def Obligations.AcceptanceLatchesTheOperation : Prop :=
  ∀ s : State, s.seq = .idle →
    (∀ v, exec (.writeByte v) s = .next { s with seq := .run (.writeByte v) 0 }) ∧
    (∀ c, exec (.sendCommand c) s = .next { s with seq := .run (.sendCommand c) 0 }) ∧
    (∀ v, exec (.sendData v) s = .next { s with seq := .run (.sendData v) 0 }) ∧
    (s.params.variant = .SW → exec .readByte s = .next { s with seq := .run .readByte 0 }) ∧
    (s.params.variant = .SW → exec .readChipId s = .next { s with seq := .run .readChipId 0 }) ∧
    exec .runResetSequence s =
      .next { s with seq := .run .runResetSequence 0, rstate := .Idle, pollcnt := s.pollcnt.map fun _ => 0 }

/-- R161: `UnsupportedOperation` is raised exactly when `VARIANT = HW` and the decoded operation is `readByte` or `readChipId`, at acceptance, and
by no step of a running operation. -/
def Obligations.UnsupportedExactlyForReadsInHw : Prop :=
  (∀ (s : State) (w : Word) (i : Instr) (rest : List HostMove),
    s.seq = .idle → s.host = .present w :: rest ∨ s.host = .strobe w :: rest → decode w = .op i →
    ∃ t, step s = .next t ∧
      ((∃ d, t.rsp = some ⟨.UnsupportedOperation, d⟩) ↔ s.params.variant = .HW ∧ (i = .readByte ∨ i = .readChipId)) ∧
      (s.params.variant = .HW → i = .readByte ∨ i = .readChipId → t.rsp = some ⟨.UnsupportedOperation, []⟩ ∧ t.trace = s.trace)) ∧
  (∀ (s t : State) (i : Instr) (k : Nat) (r : Response),
    s.seq = .run i k → step s = .next t → t.rsp = some r → r.status ≠ .UnsupportedOperation)

/-- R163: `IllegalOperation` is raised exactly when the presented command word is reserved, in either variant, by `refuse`. -/
def Obligations.IllegalExactlyForReservedWords : Prop :=
  (∀ (s : State) (w : Word) (rest : List HostMove),
    s.seq = .idle → s.host = .present w :: rest ∨ s.host = .strobe w :: rest →
    ((∃ r, decode w = .reserved r) →
      step s = .next (observeDevice (refuse .IllegalOperation { s with rsp := none, host := rest }))) ∧
    ∃ t, step s = .next t ∧ ((∃ d, t.rsp = some ⟨.IllegalOperation, d⟩) ↔ ∃ r, decode w = .reserved r)) ∧
  (∀ (s t : State) (i : Instr) (k : Nat) (r : Response),
    s.seq = .run i k → step s = .next t → t.rsp = some r → r.status ≠ .IllegalOperation)

/-- R162: a refusal presents the response and changes no register, no line and no event of the trace; the SPE stays idle and ready. It happens at
acceptance only: a step of a running operation answers `OK`, `Timeout` or nothing. -/
def Obligations.RefusalChangesNothing : Prop :=
  (∀ (s : State) (w : Word) (rest : List HostMove), s.seq = .idle → s.host = .present w :: rest ∨ s.host = .strobe w :: rest →
    ∀ st : Status,
      (st = .IllegalOperation ∧ ∃ r, decode w = .reserved r) ∨
      (st = .UnsupportedOperation ∧ s.params.variant = .HW ∧ (decode w = .op .readByte ∨ decode w = .op .readChipId)) →
      ∃ t, step s = .next t ∧ t.rsp = some ⟨st, []⟩ ∧ t.responses = s.responses ++ [⟨st, []⟩] ∧
        t.seq = .idle ∧ t.cmdReady = true ∧ t.trace = s.trace ∧ t.sr = s.sr ∧ t.rd0 = s.rd0 ∧ t.rd1 = s.rd1 ∧ t.rstate = s.rstate ∧
        t.pollcnt = s.pollcnt ∧ t.sdaDir = s.sdaDir ∧ t.sckOut = s.sckOut ∧ t.sdaOut = s.sdaOut ∧ t.sdaIn = s.sdaIn ∧
        t.csnOut = s.csnOut ∧ t.dcOut = s.dcOut ∧ t.rstnOut = s.rstnOut ∧ t.busyIn = s.busyIn ∧ t.params = s.params ∧ t.host = rest) ∧
  (∀ (s t : State) (i : Instr) (k : Nat) (r : Response),
    s.seq = .run i k → step s = .next t → t.rsp = some r → r.status = .OK ∨ r.status = .Timeout)

/-- In `HW` the two read operations decode and are then refused at acceptance: no micro-operation, no event, no state change (`40_link_engine.md` section
2, `41_transaction_framer.md` section 4). -/
def Obligations.HwReadsAreRefused : Prop :=
  decode 0x0200 = .op .readByte ∧ decode 0x0500 = .op .readChipId ∧
  ∀ s : State, s.params.variant = .HW → s.seq = .idle →
    exec .readByte s =
      .next { s with rsp := some ⟨.UnsupportedOperation, []⟩, responses := s.responses ++ [⟨.UnsupportedOperation, []⟩] } ∧
    exec .readChipId s =
      .next { s with rsp := some ⟨.UnsupportedOperation, []⟩, responses := s.responses ++ [⟨.UnsupportedOperation, []⟩] }

/-- The status codes (`30_encoding.md` section 6) and the response port (`70_reset_and_hazards.md` section 1): after a step that presents a response
`rsp_valid` is 1 and `rsp_status` its code, for each of the four statuses, with the bytes read on `rsp_data` (first byte low); a step that presents none
leaves `rsp_valid` 0. That the one cycle of a response is one step is the model's choice (log entry 14). -/
def Obligations.StatusCodesAndResponsePort : Prop :=
  Status.OK.code = 0 ∧ Status.UnsupportedOperation.code = 1 ∧ Status.Timeout.code = 2 ∧ Status.IllegalOperation.code = 3 ∧
  (∀ (s : State) (w : Word) (rest : List HostMove), s.seq = .idle → s.host = .present w :: rest ∨ s.host = .strobe w :: rest →
    (∀ r, decode w = .reserved r → ∃ t, step s = .next t ∧ t.rspValid = true ∧ t.rspStatus = some 3) ∧
    (∀ i, decode w = .op i → s.params.variant = .HW → i = .readByte ∨ i = .readChipId →
      ∃ t, step s = .next t ∧ t.rspValid = true ∧ t.rspStatus = some 1) ∧
    (∀ i, decode w = .op i → s.params.variant = .SW ∨ i ≠ .readByte ∧ i ≠ .readChipId →
      ∃ t, step s = .next t ∧ t.rspValid = false ∧ t.rspStatus = none)) ∧
  (∀ s : State, s.seq = .idle → s.host = [] → ∃ t, step s = .next t ∧ t.rspValid = false ∧ t.rspStatus = none) ∧
  (∀ s : State, s.host.head? ≠ some .ereset →
    (∀ v, s.params.variant = .HW → s.seq = .run (.writeByte v) 0 → ∃ t, step s = .next t ∧ t.rspValid = true ∧ t.rspStatus = some 0) ∧
    (s.params.variant = .SW → s.seq = .run .readByte 41 →
      ∃ t, step s = .next t ∧ t.rspValid = true ∧ t.rspStatus = some 0 ∧ t.rspData.extractLsb' 0 8 = s.sr) ∧
    (s.params.variant = .SW → s.seq = .run .readChipId 129 →
      ∃ t, step s = .next t ∧ t.rspValid = true ∧ t.rspStatus = some 0 ∧ t.rspData.extractLsb' 0 8 = s.rd0 ∧ t.rspData.extractLsb' 8 8 = s.rd1) ∧
    (s.seq = .run .runResetSequence 10 → ∃ t, step s = .next t ∧ t.rspValid = true ∧ t.rspStatus = some 0) ∧
    (∀ c, s.seq = .run .runResetSequence 8 → s.device.busyLevel = false → s.params.busyPollLimit = some (c + 1) → s.pollcnt = some c →
      ∃ t, step s = .next t ∧ t.rspValid = true ∧ t.rspStatus = some 2))

/-- A word put on the port while an operation runs is dropped: the step is the step without it (`10_state.md` section 6,
`70_reset_and_hazards.md` section 3). That `exec` of an operation other than the running one, which no step of the machine calls, has no effect is the
model's choice (log entry 10). -/
def Obligations.BusySpeDropsWords : Prop :=
  ∀ (s : State) (i : Instr) (k : Nat), s.seq = .run i k →
    s.cmdReady = false ∧
    (∀ w rest, s.host = .strobe w :: rest → step s = step { s with host := .wait :: rest }) ∧
    ∀ j, j ≠ i → exec j s = .next s

/-- An idle SPE to which nothing is offered waits (`10_state.md` section 2): only the response port, the host's list and the device's side
pass on. -/
def Obligations.IdleSpeWaits : Prop :=
  ∀ s : State, s.seq = .idle →
    (s.host = [] → step s = .next (observeDevice { s with rsp := none })) ∧
    (∀ rest, s.host = .wait :: rest → step s = .next (observeDevice { s with rsp := none, host := rest }))

/-- Engine reset, applied in any state, running or idle (`70_reset_and_hazards.md` section 1): every piece of state takes its value of the table of
reset values, a running operation is cut without a response, and a new trace begins. `LINE[SDA].in` and `LINE[BUSY].in` are free values and are
not spoken of; that the model keeps the list of past responses is its own choice (log entry 6). -/
def Obligations.EngineResetFromAnyState : Prop :=
  ∀ (s : State) (rest : List HostMove), s.host = .ereset :: rest →
    ∃ t, step s = .next t ∧ t.sr = 0 ∧ t.rd0 = 0 ∧ t.rd1 = 0 ∧ t.seq = .idle ∧ t.rstate = .Idle ∧ t.sckOut = false ∧
      (s.params.variant = .SW → t.sdaDir = .IN) ∧ (s.params.variant = .HW → t.sdaDir = .OUT) ∧ t.sdaOut = false ∧ t.csnOut = true ∧
      t.dcOut = s.params.dcReset ∧ t.rstnOut = true ∧ (s.params.busyPollLimit = none → t.pollcnt = none) ∧
      (∀ n, s.params.busyPollLimit = some n → t.pollcnt = some 0) ∧ t.trace = [] ∧ t.rsp = none ∧ t.responses = s.responses ∧
      t.params = s.params ∧ t.host = rest

/-- The value of every piece of state after engine reset that the table of reset values fixes (`10_state.md` section 7), for every choice of parameters, and
that the machine's own reset state is one of these. `DC`, `LINE[SDA].in` and `LINE[BUSY].in` are unspecified there and not spoken of. -/
def Obligations.ResetStateHoldsTheResetValues : Prop :=
  (∀ (p : Params) (a b : Level), ∀ s, s = State.resetWith p a b →
    s.sr = 0x00 ∧ s.rd0 = 0x00 ∧ s.rd1 = 0x00 ∧ s.seq = .idle ∧ s.rstate = .Idle ∧ s.rstate.code = 0 ∧
    (p.busyPollLimit = none → s.pollcnt = none) ∧ (∀ n, p.busyPollLimit = some n → s.pollcnt = some 0) ∧
    s.sckOut = false ∧ (p.variant = .SW → s.sdaDir = .IN) ∧ (p.variant = .HW → s.sdaDir = .OUT) ∧ s.sdaOut = false ∧
    s.csnOut = true ∧ s.rstnOut = true) ∧
  ∃ (p : Params) (a b : Level), core.reset = State.resetWith p a b ∧
    p.resetLowHold = 20 ∧ p.resetHighHold = 10 ∧ p.busyPollInterval = 1 ∧ p.readySettle = 10 ∧ p.busyPollLimit = none ∧
    p.chipIdOpcode = 0x70 ∧ p.tUnit = 1000000

/-! ## The line primitives and the shift arithmetic -/

/-- The effect of each line primitive, performed alone (`20_memory.md` section 2): the attribute it writes, the one event it emits, and nothing
else. `drive(SDA, b)` needs `DIR = OUT` and `sample(SDA)` needs `DIR = IN`. A sample takes the level the device gives: the next of its script, or a free
value where the script is empty. -/
def Obligations.PrimitivesChangeOneAttribute : Prop :=
  ∀ s : State,
    (∀ d, (plain (.setdir d)).perform s = .next { s with sdaDir := d, trace := s.trace ++ [.dir d] }) ∧
    (∀ b, (plain (.drive .SCK (.const b))).perform s = .next { s with sckOut := b, trace := s.trace ++ [.drive .SCK b] }) ∧
    (∀ b, s.sdaDir = .OUT →
      (plain (.drive .SDA (.const b))).perform s = .next { s with sdaOut := b, trace := s.trace ++ [.drive .SDA b] }) ∧
    (∀ b, (plain (.drive .CSN (.const b))).perform s = .next { s with csnOut := b, trace := s.trace ++ [.drive .CSN b] }) ∧
    (∀ b, (plain (.drive .DC (.const b))).perform s = .next { s with dcOut := b, trace := s.trace ++ [.drive .DC b] }) ∧
    (∀ b, (plain (.drive .RSTN (.const b))).perform s = .next { s with rstnOut := b, trace := s.trace ++ [.drive .RSTN b] }) ∧
    (s.sdaDir = .IN →
      (plain (.sample .SDA)).perform s =
        .next { s with sdaIn := s.device.sdaLevel, device := s.device.afterSda, trace := s.trace ++ [.sample .SDA s.device.sdaLevel] }) ∧
    ((plain (.sample .BUSY)).perform s =
      .next { s with busyIn := s.device.busyLevel, device := s.device.afterBusy, trace := s.trace ++ [.sample .BUSY s.device.busyLevel] }) ∧
    (∀ b rest, s.sdaDir = .IN → s.device.sda = b :: rest →
      (plain (.sample .SDA)).perform s =
        .next { s with sdaIn := b, device := { s.device with sda := rest }, trace := s.trace ++ [.sample .SDA b] }) ∧
    (∀ b rest, s.device.busy = b :: rest →
      (plain (.sample .BUSY)).perform s =
        .next { s with busyIn := b, device := { s.device with busy := rest }, trace := s.trace ++ [.sample .BUSY b] }) ∧
    (plain .delayEdge).perform s = .next { s with trace := s.trace ++ [.delayEdge] } ∧
    (∀ n, (plain (.sleep n)).perform s = .next { s with trace := s.trace ++ [.sleep n] }) ∧
    (∀ tx, (plain (.xfer tx)).perform s = .next { s with trace := s.trace ++ [.xfer tx] })

/-- The model-level fault `PrimitivePrecondition` (`60_exceptions.md` section 8): exactly a drive of `SDA` with `DIR = IN` and a sample of `SDA` with
`DIR = OUT` stop, and with no other outcome. -/
def Obligations.PrimitivePreconditionsFault : Prop :=
  ∀ (s : State) (p : Prim),
    ((∃ b, p = .drive .SDA b ∧ s.sdaDir = .IN) ∨ (p = .sample .SDA ∧ s.sdaDir = .OUT) →
      (plain p).perform s = .fault .primitivePrecondition) ∧
    (¬ ((∃ b, p = .drive .SDA b ∧ s.sdaDir = .IN) ∨ (p = .sample .SDA ∧ s.sdaDir = .OUT)) → ∃ t, (plain p).perform s = .next t)

/-- The shift and the insertion bit by bit (`20_memory.md` section 7), and what the spec derives there: eight shifts leave 0x00; eight shift-then-insert pairs
leave the inserted bits, the first highest, whatever the register held; after a shift the insertion equals an addition. -/
def Obligations.ShiftRegisterArithmetic : Prop :=
  (∀ v : Byte, (shiftLeftOne v).getLsbD 0 = false ∧ ∀ i, i < 7 → (shiftLeftOne v).getLsbD (i + 1) = v.getLsbD i) ∧
  (∀ (v : Byte) (b : Level), (insertLow v b).getLsbD 0 = (v.getLsbD 0 || b) ∧
    ∀ i, 1 ≤ i → (insertLow v b).getLsbD i = v.getLsbD i) ∧
  (∀ v : Byte, (List.replicate 8 ()).foldl (fun u _ => shiftLeftOne u) v = 0x00) ∧
  (∀ (v : Byte) (b : Fin 8 → Level) (k : Fin 8),
    ((List.ofFn b).foldl (fun u x => insertLow (shiftLeftOne u) x) v).getLsbD (7 - k) = b k) ∧
  (∀ (v : Byte) (b : Level), insertLow (shiftLeftOne v) b = shiftLeftOne v + (BitVec.ofBool b).setWidth 8)

/-! ## writeByte and readByte -/

/-- `writeByte(v)` in `SW`, micro-operation by micro-operation (`40_link_engine.md` section 1). -/
def Obligations.WriteByteMicroOperations : Prop :=
  ∀ (v : Byte) (s : State), s.params.variant = .SW →
    (s.seq = .run (.writeByte v) 0 →
      exec (.writeByte v) s = .next { s with sr := v, sdaDir := .OUT, trace := s.trace ++ [.dir .OUT], seq := .run (.writeByte v) 1 }) ∧
    (∀ i, i < 8 →
      (s.seq = .run (.writeByte v) (1 + 5 * i) →
        exec (.writeByte v) s =
          .next { s with sckOut := false, trace := s.trace ++ [.drive .SCK false], seq := .run (.writeByte v) (2 + 5 * i) }) ∧
      (s.seq = .run (.writeByte v) (2 + 5 * i) → s.sdaDir = .OUT →
        exec (.writeByte v) s =
          .next { s with
            sdaOut := s.sr.getLsbD 7, trace := s.trace ++ [.drive .SDA (s.sr.getLsbD 7)], seq := .run (.writeByte v) (3 + 5 * i) }) ∧
      (s.seq = .run (.writeByte v) (3 + 5 * i) →
        exec (.writeByte v) s = .next { s with trace := s.trace ++ [.delayEdge], seq := .run (.writeByte v) (4 + 5 * i) }) ∧
      (s.seq = .run (.writeByte v) (4 + 5 * i) →
        exec (.writeByte v) s =
          .next { s with sckOut := true, trace := s.trace ++ [.drive .SCK true], seq := .run (.writeByte v) (5 + 5 * i) }) ∧
      (s.seq = .run (.writeByte v) (5 + 5 * i) →
        exec (.writeByte v) s =
          .next { s with sr := s.sr <<< 1, trace := s.trace ++ [.delayEdge], seq := .run (.writeByte v) (6 + 5 * i) })) ∧
    (s.seq = .run (.writeByte v) 41 →
      exec (.writeByte v) s =
        .next { s with
          sckOut := false, trace := s.trace ++ [.drive .SCK false], seq := .idle, rsp := some ⟨.OK, []⟩,
          responses := s.responses ++ [⟨.OK, []⟩] })

/-- `writeByte(v)` in `SW`, from acceptance to completion (`40_link_engine.md` section 1): 42 events, `SR` 0x00, `SCK` low, `SDA` at bit 0, `DIR = OUT`,
status `OK`, everything else untouched. -/
def Obligations.WriteByteRunsToCompletion : Prop :=
  ∀ (v : Byte) (s : State), s.params.variant = .SW → s.seq = .idle →
    (writeByteTrace v).length = 42 ∧
    operate (.writeByte v) 43 s =
      .next { s with
        sr := 0x00, sdaDir := .OUT, sckOut := false, sdaOut := v.getLsbD 0, trace := s.trace ++ writeByteTrace v,
        rsp := some ⟨.OK, []⟩, responses := s.responses ++ [⟨.OK, []⟩] }

/-- R102 (a) to (f), which the rule calls statements of the source: bit order, pulse count, data only while the clock is low, one edge delay on each side of each rising edge, the clock left low,
direction first; of the events `writeByte(v)` adds to the trace. -/
def Obligations.WriteByteWireProperties : Prop :=
  ∀ (v : Byte) (s : State), s.params.variant = .SW → s.seq = .idle →
    ∃ (t : State) (tr : List Event), operate (.writeByte v) 43 s = .next t ∧ t.trace = s.trace ++ tr ∧
      received tr = [some (v.getLsbD 7), some (v.getLsbD 6), some (v.getLsbD 5), some (v.getLsbD 4), some (v.getLsbD 3), some (v.getLsbD 2),
        some (v.getLsbD 1), some (v.getLsbD 0)] ∧
      tr.count (.drive .SCK true) = 8 ∧ dataOnlyWhileLow false tr = true ∧
      delaysBetween (drives .SDA) (fun e => decide (e = .drive .SCK true)) none tr = List.replicate 8 1 ∧
      delaysBetween (fun e => decide (e = .drive .SCK true)) (fun e => decide (e = .drive .SCK false)) none tr = List.replicate 8 1 ∧
      tr.getLast? = some (.drive .SCK false) ∧ tr.head? = some (.dir .OUT)

/-- R103: `writeByte(v)` in `HW` is one micro-operation, one peripheral transfer of the one byte `v`; no state of the SPE changes and
the status is `OK`. -/
def Obligations.WriteByteInHwIsOneTransfer : Prop :=
  ∀ (v : Byte) (s : State), s.params.variant = .HW →
    decode (0x01#8 ++ v) = .op (.writeByte v) ∧
    (s.seq = .run (.writeByte v) 0 →
      exec (.writeByte v) s =
        .next { s with
          trace := s.trace ++ [.xfer [v]], seq := .idle, rsp := some ⟨.OK, []⟩, responses := s.responses ++ [⟨.OK, []⟩] }) ∧
    (s.seq = .idle →
      operate (.writeByte v) 2 s =
        .next { s with trace := s.trace ++ [.xfer [v]], rsp := some ⟨.OK, []⟩, responses := s.responses ++ [⟨.OK, []⟩] })

/-- `readByte()` in `SW`, micro-operation by micro-operation (`40_link_engine.md` section 2). -/
def Obligations.ReadByteMicroOperations : Prop :=
  ∀ s : State, s.params.variant = .SW →
    (s.seq = .run .readByte 0 →
      exec .readByte s = .next { s with sr := 0x00, sdaDir := .IN, trace := s.trace ++ [.dir .IN], seq := .run .readByte 1 }) ∧
    (∀ i, i < 8 →
      (s.seq = .run .readByte (1 + 5 * i) →
        exec .readByte s = .next { s with sckOut := false, trace := s.trace ++ [.drive .SCK false], seq := .run .readByte (2 + 5 * i) }) ∧
      (s.seq = .run .readByte (2 + 5 * i) →
        exec .readByte s = .next { s with trace := s.trace ++ [.delayEdge], seq := .run .readByte (3 + 5 * i) }) ∧
      (s.seq = .run .readByte (3 + 5 * i) →
        exec .readByte s = .next { s with sckOut := true, trace := s.trace ++ [.drive .SCK true], seq := .run .readByte (4 + 5 * i) }) ∧
      (s.seq = .run .readByte (4 + 5 * i) → s.sdaDir = .IN →
        exec .readByte s =
          .next { s with
            sr := (s.sr <<< 1) ||| (if s.device.sdaLevel then 0x01 else 0x00), sdaIn := s.device.sdaLevel, device := s.device.afterSda,
            trace := s.trace ++ [.sample .SDA s.device.sdaLevel], seq := .run .readByte (5 + 5 * i) }) ∧
      (s.seq = .run .readByte (5 + 5 * i) →
        exec .readByte s = .next { s with trace := s.trace ++ [.delayEdge], seq := .run .readByte (6 + 5 * i) })) ∧
    (s.seq = .run .readByte 41 →
      exec .readByte s =
        .next { s with
          sckOut := false, rd0 := s.sr, trace := s.trace ++ [.drive .SCK false], seq := .idle, rsp := some ⟨.OK, [s.sr]⟩,
          responses := s.responses ++ [⟨.OK, [s.sr]⟩] })

/-- `readByte()` in `SW`, from acceptance to completion (`40_link_engine.md` section 2), whatever the eight samples `b` are: the result is the samples,
the first in bit 7. -/
def Obligations.ReadByteRunsToCompletion : Prop :=
  ∀ (s : State) (b0 b1 b2 b3 b4 b5 b6 b7 : Level), s.params.variant = .SW → s.seq = .idle →
    sdaLevels 8 s.device = [b0, b1, b2, b3, b4, b5, b6, b7] →
    (readByteTrace [b0, b1, b2, b3, b4, b5, b6, b7]).length = 42 ∧
    ∃ v : Byte, wireBits v = [b0, b1, b2, b3, b4, b5, b6, b7] ∧
      operate .readByte 43 s =
        .next { s with
          sr := v, rd0 := v, sdaDir := .IN, sckOut := false, sdaIn := b7, device := afterSdaLevels 8 s.device,
          trace := s.trace ++ readByteTrace [b0, b1, b2, b3, b4, b5, b6, b7], rsp := some ⟨.OK, [v]⟩,
          responses := s.responses ++ [⟨.OK, [v]⟩] }

/-- The properties (a) to (d) of a read frame that the spec derives (`40_link_engine.md` section 2): eight rising edges each followed at once by its sample, `Dir(IN)` first and no drive of `SDA`, the clock left low; and the round
trip through the bit protocol: a harness that notes the level driven on `SDA` at each rising edge of `writeByte(v)` and answers the samples of the
following `readByte()` with them makes it return `v`. -/
def Obligations.LoopBackReturnsTheByte : Prop :=
  (∀ s : State, s.params.variant = .SW → s.seq = .idle →
    ∃ (t : State) (tr : List Event), operate .readByte 43 s = .next t ∧ t.trace = s.trace ++ tr ∧
      tr.count (.drive .SCK true) = 8 ∧ tr.countP samplesSda = 8 ∧
      (∀ k, tr[k]? = some (.drive .SCK true) ↔ ∃ e, tr[k + 1]? = some e ∧ samplesSda e = true) ∧
      tr.head? = some (.dir .IN) ∧ tr.countP (drives .SDA) = 0 ∧ tr.getLast? = some (.drive .SCK false)) ∧
  (∀ (v : Byte) (s : State), s.params.variant = .SW → s.seq = .idle →
    ∃ (t : State) (tr : List Event) (bits : List Level), operate (.writeByte v) 43 s = .next t ∧ t.trace = s.trace ++ tr ∧
      received tr = bits.map some ∧
      ∀ rest : List Level, ∃ u, operate .readByte 43 { t with device := { t.device with sda := bits ++ rest } } = .next u ∧
        u.rd0 = v ∧ u.rsp = some ⟨.OK, [v]⟩)

/-! ## sendCommand, sendData, readChipId -/

/-- `sendCommand(c)` and `sendData(v)`, micro-operation by micro-operation, in both variants (`41_transaction_framer.md` sections 1 and 2): select,
mode, the micro-program of `writeByte` at offset 2, de-select. The two differ only in the level of the mode line. -/
def Obligations.OneByteTransactionMicroOperations : Prop :=
  ∀ (i : Instr) (mode : Level) (v : Byte) (n : Nat) (s : State),
    (i = .sendCommand v ∧ mode = false) ∨ (i = .sendData v ∧ mode = true) →
    (s.params.variant = .SW ∧ n = 42) ∨ (s.params.variant = .HW ∧ n = 1) →
    (s.seq = .run i 0 → exec i s = .next { s with csnOut := false, trace := s.trace ++ [.drive .CSN false], seq := .run i 1 }) ∧
    (s.seq = .run i 1 → exec i s = .next { s with dcOut := mode, trace := s.trace ++ [.drive .DC mode], seq := .run i 2 }) ∧
    (∀ j, j < n → s.seq = .run i (2 + j) →
      exec i s =
        andThen (exec (.writeByte v) { s with seq := .run (.writeByte v) j }) fun t =>
          .next { t with seq := .run i (3 + j), rsp := s.rsp, responses := s.responses }) ∧
    (s.seq = .run i (2 + n) →
      exec i s =
        .next { s with
          csnOut := true, trace := s.trace ++ [.drive .CSN true], seq := .idle, rsp := some ⟨.OK, []⟩,
          responses := s.responses ++ [⟨.OK, []⟩] })

/-- `sendCommand(c)` and `sendData(v)` in `SW`, from acceptance to completion (`41_transaction_framer.md` sections 1 and 2). -/
def Obligations.OneByteTransactionRunsInSw : Prop :=
  ∀ (i : Instr) (mode : Level) (v : Byte) (s : State),
    (i = .sendCommand v ∧ mode = false) ∨ (i = .sendData v ∧ mode = true) → s.params.variant = .SW → s.seq = .idle →
    (transactionTrace .SW mode v).length = 45 ∧
    operate i 46 s =
      .next { s with
        csnOut := true, dcOut := mode, sr := 0x00, sdaDir := .OUT, sckOut := false, sdaOut := v.getLsbD 0,
        trace := s.trace ++ ([.drive .CSN false, .drive .DC mode] ++ writeByteTrace v ++ [.drive .CSN true]),
        rsp := some ⟨.OK, []⟩, responses := s.responses ++ [⟨.OK, []⟩] }

/-- `sendCommand(c)` and `sendData(v)` in `HW`, from acceptance to completion (`41_transaction_framer.md` sections 1 and 2). -/
def Obligations.OneByteTransactionRunsInHw : Prop :=
  ∀ (i : Instr) (mode : Level) (v : Byte) (s : State),
    (i = .sendCommand v ∧ mode = false) ∨ (i = .sendData v ∧ mode = true) → s.params.variant = .HW → s.seq = .idle →
    operate i 5 s =
      .next { s with
        csnOut := true, dcOut := mode, trace := s.trace ++ [.drive .CSN false, .drive .DC mode, .xfer [v], .drive .CSN true],
        rsp := some ⟨.OK, []⟩, responses := s.responses ++ [⟨.OK, []⟩] }

/-- The properties of `41_transaction_framer.md` section 3, which the spec derives from its micro-programs: in the events either operation adds to the trace, in either variant and for every operand, `Drive(CSN, 0)` is the first,
`Drive(CSN, 1)` the last, and no other event drives select; the one drive of the mode line is the second event, before every event of the byte; select is
left de-asserted. And select is de-asserted whenever the SPE is idle, in every run from a state that meets the invariant. -/
def Obligations.SelectBracketsAndModeLeads : Prop :=
  (∀ (i : Instr) (mode : Level) (v : Byte) (s : State),
    (i = .sendCommand v ∧ mode = false) ∨ (i = .sendData v ∧ mode = true) → s.seq = .idle →
    ∃ (n : Nat) (t : State) (tr : List Event), operate i n s = .next t ∧ t.seq = .idle ∧ t.rsp = some ⟨.OK, []⟩ ∧ t.csnOut = true ∧
      t.trace = s.trace ++ tr ∧ tr.head? = some (.drive .CSN false) ∧ tr.getLast? = some (.drive .CSN true) ∧ tr.countP (drives .CSN) = 2 ∧
      tr[1]? = some (.drive .DC mode) ∧ tr.countP (drives .DC) = 1 ∧ tr = [.drive .CSN false, .drive .DC mode] ++ frameTrace s.params.variant v
        ++ [.drive .CSN true]) ∧
  (∀ (n : Nat) (s t : State), Inv s → core.run n s = .next t → t.seq = .idle → t.csnOut = true)

/-- `readChipId()` in `SW`, micro-operation by micro-operation (`41_transaction_framer.md` section 4): select, mode, the micro-programs of `writeByte`
and twice of `readByte` at their offsets, the second of them writing `RD1`, de-select, and the two bytes as the response. -/
def Obligations.ReadChipIdMicroOperations : Prop :=
  ∀ s : State, s.params.variant = .SW →
    (s.seq = .run .readChipId 0 →
      exec .readChipId s = .next { s with csnOut := false, trace := s.trace ++ [.drive .CSN false], seq := .run .readChipId 1 }) ∧
    (s.seq = .run .readChipId 1 →
      exec .readChipId s = .next { s with dcOut := false, trace := s.trace ++ [.drive .DC false], seq := .run .readChipId 2 }) ∧
    (∀ j, j < 42 → s.seq = .run .readChipId (2 + j) →
      exec .readChipId s =
        andThen (exec (.writeByte s.params.chipIdOpcode) { s with seq := .run (.writeByte s.params.chipIdOpcode) j }) fun t =>
          .next { t with seq := .run .readChipId (3 + j), rsp := s.rsp, responses := s.responses }) ∧
    (s.seq = .run .readChipId 44 →
      exec .readChipId s = .next { s with dcOut := true, trace := s.trace ++ [.drive .DC true], seq := .run .readChipId 45 }) ∧
    (∀ j, j < 42 → s.seq = .run .readChipId (45 + j) →
      exec .readChipId s =
        andThen (exec .readByte { s with seq := .run .readByte j }) fun t =>
          .next { t with seq := .run .readChipId (46 + j), rsp := s.rsp, responses := s.responses }) ∧
    (∀ j, j < 41 → s.seq = .run .readChipId (87 + j) →
      exec .readChipId s =
        andThen (exec .readByte { s with seq := .run .readByte j }) fun t => .next { t with seq := .run .readChipId (88 + j) }) ∧
    (s.seq = .run .readChipId 128 →
      exec .readChipId s =
        .next { s with sckOut := false, rd1 := s.sr, trace := s.trace ++ [.drive .SCK false], seq := .run .readChipId 129 }) ∧
    (s.seq = .run .readChipId 129 →
      exec .readChipId s =
        .next { s with
          csnOut := true, trace := s.trace ++ [.drive .CSN true], seq := .idle, rsp := some ⟨.OK, [s.rd0, s.rd1]⟩,
          responses := s.responses ++ [⟨.OK, [s.rd0, s.rd1]⟩] })

/-- `readChipId()` in `SW`, from acceptance to completion (`41_transaction_framer.md` section 4), whatever the sixteen samples are: both bytes in the
order received, in `RD0` and `RD1`, in the response and on the response port. -/
def Obligations.ReadChipIdRunsToCompletion : Prop :=
  ∀ (s : State) (v0 v1 : Byte), s.params.variant = .SW → s.seq = .idle → sdaLevels 16 s.device = wireBits v0 ++ wireBits v1 →
    (chipIdTrace s.params.chipIdOpcode (wireBits v0) (wireBits v1)).length = 130 ∧
    ∃ t, operate .readChipId 131 s = .next t ∧ t.rspData = v1 ++ v0 ∧
      t = { s with
        csnOut := true, dcOut := true, sr := v1, rd0 := v0, rd1 := v1, sdaDir := .IN, sckOut := false,
        sdaOut := s.params.chipIdOpcode.getLsbD 0, sdaIn := v1.getLsbD 0, device := afterSdaLevels 16 s.device,
        trace := s.trace ++ chipIdTrace s.params.chipIdOpcode (wireBits v0) (wireBits v1),
        rsp := some ⟨.OK, [v0, v1]⟩, responses := s.responses ++ [⟨.OK, [v0, v1]⟩] }

/-- The properties (a) to (d) of `41_transaction_framer.md` section 4, which the spec derives from its micro-program: the fixture of the source (0x12, 0x34 after 0x70), and for every device: select brackets the exchange, the mode line is set
once per phase, and of the 24 rising edges eight carry the opcode with `DC = 0` and sixteen are each followed at once by a sample. -/
def Obligations.ReadChipIdProperties : Prop :=
  (∀ (s : State) (rest : List Level), s.params.variant = .SW → s.params.chipIdOpcode = 0x70 → s.seq = .idle →
    s.device.sda = [false, false, false, true, false, false, true, false, false, false, true, true, false, true, false, false] ++ rest →
    ∃ t, operate .readChipId 131 s = .next t ∧ t.rsp = some ⟨.OK, [0x12, 0x34]⟩) ∧
  (∀ s : State, s.params.variant = .SW → s.seq = .idle →
    ∃ (t : State) (tr : List Event), operate .readChipId 131 s = .next t ∧ t.trace = s.trace ++ tr ∧
      received tr = (wireBits s.params.chipIdOpcode).map some ++ List.replicate 16 none ∧
      modeAtEdges tr = List.replicate 8 (some false) ++ List.replicate 16 (some true) ∧
      selectAtEdges tr = List.replicate 24 (some false) ∧
      tr.head? = some (.drive .CSN false) ∧ tr.getLast? = some (.drive .CSN true) ∧ tr.countP (drives .CSN) = 2 ∧
      tr[1]? = some (.drive .DC false) ∧ tr[2]? = some (.dir .OUT) ∧ tr[43]? = some (.drive .SCK false) ∧ tr[44]? = some (.drive .DC true) ∧
      tr[45]? = some (.dir .IN) ∧ tr.countP (drives .DC) = 2 ∧ tr.count (.drive .SCK true) = 24 ∧ tr.countP samplesSda = 16 ∧
      (∀ k, 44 < k → (tr[k]? = some (.drive .SCK true) ↔ ∃ e, tr[k + 1]? = some e ∧ samplesSda e = true)))

/-- The turn-around of `readChipId` (`70_reset_and_hazards.md` section 3): after the opcode and the change of mode the SPE still drives `SDA`, with bit 0 of
the opcode, the clock low; the next micro-operation releases the wire. -/
def Obligations.ChipIdTurnAround : Prop :=
  ∀ s : State, s.params.variant = .SW → s.seq = .idle →
    ∃ t u, operate .readChipId 46 s = .next t ∧ t.seq = .run .readChipId 45 ∧ t.sdaDir = .OUT ∧ t.sdaOut = s.params.chipIdOpcode.getLsbD 0 ∧
      t.sckOut = false ∧ t.dcOut = true ∧ t.csnOut = false ∧
      exec .readChipId t = .next u ∧ u.sdaDir = .IN ∧ u.sdaOut = t.sdaOut ∧ u.trace = t.trace ++ [.dir .IN]

/-! ## runResetSequence -/

/-- `runResetSequence()`, micro-operation by micro-operation, with the poll loop (`42_reset_sync.md` section 2). -/
def Obligations.ResetSequenceMicroOperations : Prop :=
  ∀ s : State,
    (s.seq = .run .runResetSequence 0 →
      exec .runResetSequence s =
        .next { s with
          rstate := .AssertingReset, rstnOut := false, trace := s.trace ++ [.drive .RSTN false], seq := .run .runResetSequence 1 }) ∧
    (s.seq = .run .runResetSequence 1 →
      exec .runResetSequence s = .next { s with trace := s.trace ++ [.sleep s.params.resetLowHold], seq := .run .runResetSequence 2 }) ∧
    (s.seq = .run .runResetSequence 2 →
      exec .runResetSequence s =
        .next { s with rstate := .Released1, rstnOut := true, trace := s.trace ++ [.drive .RSTN true], seq := .run .runResetSequence 3 }) ∧
    (s.seq = .run .runResetSequence 3 →
      exec .runResetSequence s = .next { s with trace := s.trace ++ [.sleep s.params.resetHighHold], seq := .run .runResetSequence 4 }) ∧
    (s.seq = .run .runResetSequence 4 →
      exec .runResetSequence s =
        .next { s with
          rstate := .AssertingReset2, rstnOut := false, trace := s.trace ++ [.drive .RSTN false], seq := .run .runResetSequence 5 }) ∧
    (s.seq = .run .runResetSequence 5 →
      exec .runResetSequence s = .next { s with trace := s.trace ++ [.sleep s.params.resetLowHold], seq := .run .runResetSequence 6 }) ∧
    (s.seq = .run .runResetSequence 6 →
      exec .runResetSequence s =
        .next { s with rstate := .Released2, rstnOut := true, trace := s.trace ++ [.drive .RSTN true], seq := .run .runResetSequence 7 }) ∧
    (s.seq = .run .runResetSequence 7 →
      exec .runResetSequence s = .next { s with trace := s.trace ++ [.sleep s.params.resetHighHold], seq := .run .runResetSequence 8 }) ∧
    (s.seq = .run .runResetSequence 8 → s.device.busyLevel = true →
      exec .runResetSequence s =
        .next { s with
          rstate := .Ready, busyIn := true, device := s.device.afterBusy, trace := s.trace ++ [.sample .BUSY true],
          seq := .run .runResetSequence 10 }) ∧
    (s.seq = .run .runResetSequence 8 → s.device.busyLevel = false → s.params.busyPollLimit = none →
      exec .runResetSequence s =
        .next { s with
          rstate := .AwaitingBusy, busyIn := false, device := s.device.afterBusy, trace := s.trace ++ [.sample .BUSY false],
          seq := .run .runResetSequence 9 }) ∧
    (∀ n c, s.seq = .run .runResetSequence 8 → s.device.busyLevel = false → s.params.busyPollLimit = some n → s.pollcnt = some c →
      c + 1 ≠ n →
      exec .runResetSequence s =
        .next { s with
          rstate := .AwaitingBusy, busyIn := false, device := s.device.afterBusy, trace := s.trace ++ [.sample .BUSY false],
          pollcnt := some (c + 1), seq := .run .runResetSequence 9 }) ∧
    (∀ c, s.seq = .run .runResetSequence 8 → s.device.busyLevel = false → s.params.busyPollLimit = some (c + 1) → s.pollcnt = some c →
      exec .runResetSequence s =
        .next { s with
          rstate := .Idle, busyIn := false, device := s.device.afterBusy, trace := s.trace ++ [.sample .BUSY false],
          pollcnt := some (c + 1), seq := .idle, rsp := some ⟨.Timeout, []⟩, responses := s.responses ++ [⟨.Timeout, []⟩] }) ∧
    (s.seq = .run .runResetSequence 9 →
      exec .runResetSequence s = .next { s with trace := s.trace ++ [.sleep s.params.busyPollInterval], seq := .run .runResetSequence 8 }) ∧
    (s.seq = .run .runResetSequence 10 →
      exec .runResetSequence s =
        .next { s with
          trace := s.trace ++ [.sleep s.params.readySettle], seq := .idle, rsp := some ⟨.OK, []⟩, responses := s.responses ++ [⟨.OK, []⟩] })

/-- `runResetSequence()`, from acceptance to completion, when `BUSY` reads 0 at the first `n` samples and then 1, fewer than the limit where one is
configured (`42_reset_sync.md` section 2); from every value of `RSTATE`, so a re-invocation runs the whole sequence again (section 3). -/
def Obligations.ResetSequenceCompletesWhenReady : Prop :=
  ∀ (n : Nat) (s : State), s.seq = .idle → busyLevels (n + 1) s.device = List.replicate n false ++ [true] →
    (s.params.busyPollLimit = none ∧ s.pollcnt = none) ∨ (∃ limit c, s.params.busyPollLimit = some limit ∧ n < limit ∧ s.pollcnt = some c) →
    operate .runResetSequence (11 + 2 * n) s =
      .next { s with
        rstate := .Ready, rstnOut := true, busyIn := true, pollcnt := s.params.busyPollLimit.map fun _ => n,
        device := afterBusyLevels (n + 1) s.device,
        trace := s.trace ++ (pulseTrace s.params ++ pollTrace s.params.busyPollInterval n ++ [.sample .BUSY true, .sleep s.params.readySettle]),
        rsp := some ⟨.OK, []⟩, responses := s.responses ++ [⟨.OK, []⟩] }

/-- The unbounded wait (`42_reset_sync.md` section 2): with no limit, as long as `BUSY` reads 0 the operation alternates between micro-operations 8 and
9, is not ready for another operation and gives no response, however long it goes on. -/
def Obligations.BusyWaitIsUnbounded : Prop :=
  ∀ (n : Nat) (s : State), s.seq = .idle → s.params.busyPollLimit = none → busyLevels (n + 1) s.device = List.replicate (n + 1) false →
    ∃ t u, operate .runResetSequence (9 + 2 * n) s = .next t ∧ t.seq = .run .runResetSequence 8 ∧ t.cmdReady = false ∧ t.rsp = s.rsp ∧
      t.responses = s.responses ∧ t.trace = s.trace ++ (pulseTrace s.params ++ pollTrace s.params.busyPollInterval n) ∧
      exec .runResetSequence t = .next u ∧ u.seq = .run .runResetSequence 9 ∧ u.cmdReady = false ∧ u.rstate = .AwaitingBusy ∧ u.rsp = s.rsp ∧
      u.responses = s.responses

/-- R150: with `BUSY_POLL_LIMIT = some N` and `N` samples that read 0 the operation ends with `Timeout`: `RSTATE` is `Idle`, `RSTN` is left 1, no
sleep follows the last sample. With no limit no step answers `Timeout`. -/
def Obligations.ResetSequenceTimesOut : Prop :=
  (∀ (n c : Nat) (s : State), s.seq = .idle → s.params.busyPollLimit = some (n + 1) → s.pollcnt = some c →
    busyLevels (n + 1) s.device = List.replicate (n + 1) false →
    (pulseTrace s.params ++ pollTrace s.params.busyPollInterval n ++ [Event.sample .BUSY false]).length = 7 + 2 * (n + 1) ∧
    operate .runResetSequence (10 + 2 * n) s =
      .next { s with
        rstate := .Idle, rstnOut := true, busyIn := false, pollcnt := some (n + 1), device := afterBusyLevels (n + 1) s.device,
        trace := s.trace ++ (pulseTrace s.params ++ pollTrace s.params.busyPollInterval n ++ [.sample .BUSY false]),
        rsp := some ⟨.Timeout, []⟩, responses := s.responses ++ [⟨.Timeout, []⟩] }) ∧
  (∀ (s t : State) (d : List Byte), s.params.busyPollLimit = none → step s = .next t → t.rsp ≠ some ⟨.Timeout, d⟩)

/-- R149: `RSTATE` becomes `Ready` at the sample that reads 1, not at completion; until completion the SPE is in `Ready`, busy with the settle delay,
and does not sample `BUSY` again: it completes `OK` whatever `BUSY` shows then. -/
def Obligations.ReadyComesBeforeTheSettleDelay : Prop :=
  ∀ s : State, s.seq = .run .runResetSequence 8 → s.device.busyLevel = true →
    ∃ t, exec .runResetSequence s = .next t ∧ t.rstate = .Ready ∧ t.seq = .run .runResetSequence 10 ∧ t.cmdReady = false ∧ t.rsp = s.rsp ∧
      ∀ shown : List Level, ∃ u, exec .runResetSequence { t with device := { t.device with busy := shown } } = .next u ∧
        u.trace = t.trace ++ [.sleep s.params.readySettle] ∧ u.rstate = .Ready ∧ u.busyIn = true ∧ u.device.busy = shown ∧ u.seq = .idle ∧
        u.rsp = some ⟨.OK, []⟩

/-- R144: whatever `BUSY` does, exactly four drives of `RSTN`, 0, 1, 0, 1, come before the first sample of `BUSY`, each a level change when `RSTN`
is 1 at the start, and none comes after it. -/
def Obligations.FourResetTransitions : Prop :=
  (∀ s : State, s.seq = .idle → s.rstnOut = true →
    ∃ t2 t4 t6 t8 t9, operate .runResetSequence 2 s = .next t2 ∧ operate .runResetSequence 4 s = .next t4 ∧
      operate .runResetSequence 6 s = .next t6 ∧ operate .runResetSequence 8 s = .next t8 ∧ operate .runResetSequence 9 s = .next t9 ∧
      t2.rstnOut = false ∧ t4.rstnOut = true ∧ t6.rstnOut = false ∧ t8.rstnOut = true ∧ t9.seq = .run .runResetSequence 8 ∧
      t9.trace = s.trace ++ pulseTrace s.params ∧
      (pulseTrace s.params).filter (drives .RSTN) =
        [.drive .RSTN false, .drive .RSTN true, .drive .RSTN false, .drive .RSTN true]) ∧
  (∀ (s t : State) (k : Nat), s.seq = .run .runResetSequence k → 8 ≤ k → exec .runResetSequence s = .next t →
    t.rstnOut = s.rstnOut ∧ ∃ e, t.trace = s.trace ++ [e] ∧ drives .RSTN e = false)

/-! ## What each operation leaves unchanged -/

/-- The frame of `writeByte` and `readByte`, at every step of them in every state (`10_state.md` section 1; `40_link_engine.md`). A `writeByte` in `HW` also
leaves `SR`, `SCK`, `SDA` and `DIR`. -/
def Obligations.LinkEngineFrame : Prop :=
  (∀ (v : Byte) (s t : State), exec (.writeByte v) s = .next t →
    t.rd0 = s.rd0 ∧ t.rd1 = s.rd1 ∧ t.sdaIn = s.sdaIn ∧ t.csnOut = s.csnOut ∧ t.dcOut = s.dcOut ∧ t.rstnOut = s.rstnOut ∧
    t.busyIn = s.busyIn ∧ t.rstate = s.rstate ∧ t.pollcnt = s.pollcnt ∧ t.params = s.params ∧ t.host = s.host ∧ t.device = s.device ∧
    t.contention = s.contention ∧
    (s.params.variant = .HW → t.sr = s.sr ∧ t.sckOut = s.sckOut ∧ t.sdaOut = s.sdaOut ∧ t.sdaDir = s.sdaDir)) ∧
  (∀ s t : State, exec .readByte s = .next t →
    t.rd1 = s.rd1 ∧ t.sdaOut = s.sdaOut ∧ t.csnOut = s.csnOut ∧ t.dcOut = s.dcOut ∧ t.rstnOut = s.rstnOut ∧ t.busyIn = s.busyIn ∧
    t.rstate = s.rstate ∧ t.pollcnt = s.pollcnt ∧ t.params = s.params ∧ t.host = s.host ∧ t.device.busy = s.device.busy ∧
    t.device.drives = s.device.drives ∧ t.contention = s.contention ∧
    (s.params.variant = .HW → t.sr = s.sr ∧ t.rd0 = s.rd0 ∧ t.sckOut = s.sckOut ∧ t.sdaIn = s.sdaIn ∧ t.sdaDir = s.sdaDir ∧
      t.trace = s.trace))

/-- The frame of `sendCommand`, `sendData` and `readChipId`, at every step of them in every state (`10_state.md` section 1;
`41_transaction_framer.md`). -/
def Obligations.FramerFrame : Prop :=
  (∀ (i : Instr) (v : Byte) (s t : State), i = .sendCommand v ∨ i = .sendData v → exec i s = .next t →
    t.rd0 = s.rd0 ∧ t.rd1 = s.rd1 ∧ t.sdaIn = s.sdaIn ∧ t.rstnOut = s.rstnOut ∧ t.busyIn = s.busyIn ∧ t.rstate = s.rstate ∧
    t.pollcnt = s.pollcnt ∧ t.params = s.params ∧ t.host = s.host ∧ t.device = s.device ∧ t.contention = s.contention ∧
    (s.params.variant = .HW → t.sr = s.sr ∧ t.sckOut = s.sckOut ∧ t.sdaOut = s.sdaOut ∧ t.sdaDir = s.sdaDir)) ∧
  (∀ s t : State, exec .readChipId s = .next t →
    t.rstnOut = s.rstnOut ∧ t.busyIn = s.busyIn ∧ t.rstate = s.rstate ∧ t.pollcnt = s.pollcnt ∧ t.params = s.params ∧ t.host = s.host ∧
    t.device.busy = s.device.busy ∧ t.device.drives = s.device.drives ∧ t.contention = s.contention ∧
    (s.params.variant = .HW → t.sr = s.sr ∧ t.rd0 = s.rd0 ∧ t.rd1 = s.rd1 ∧ t.sckOut = s.sckOut ∧ t.sdaOut = s.sdaOut ∧ t.sdaIn = s.sdaIn ∧
      t.sdaDir = s.sdaDir ∧ t.csnOut = s.csnOut ∧ t.dcOut = s.dcOut ∧ t.trace = s.trace))

/-- The frame of `runResetSequence`, at every step of it in every state (`42_reset_sync.md` section 1): it drives `RSTN` and samples `BUSY` and touches no
other line, no data register and not `DIR`. -/
def Obligations.ResetSequenceFrame : Prop :=
  ∀ s t : State, exec .runResetSequence s = .next t →
    t.sr = s.sr ∧ t.rd0 = s.rd0 ∧ t.rd1 = s.rd1 ∧ t.sckOut = s.sckOut ∧ t.sdaDir = s.sdaDir ∧ t.sdaOut = s.sdaOut ∧ t.sdaIn = s.sdaIn ∧
    t.csnOut = s.csnOut ∧ t.dcOut = s.dcOut ∧ t.params = s.params ∧ t.host = s.host ∧ t.device.sda = s.device.sda ∧
    t.device.drives = s.device.drives ∧ t.contention = s.contention

/-- Every step of a running operation performs one line primitive and emits exactly one event; acceptance and refusal emit none
(`20_memory.md` sections 2 and 6). -/
def Obligations.OneEventPerMicroOperation : Prop :=
  ∀ (i : Instr) (s t : State), exec i s = .next t →
    (∀ k, s.seq = .run i k → ∃ e, t.trace = s.trace ++ [e]) ∧ (s.seq = .idle → t.trace = s.trace)

/-- An output line holds the level it was last driven to until it is driven again (`10_state.md` section 3), over every step but an engine reset. -/
def Obligations.OutputsHoldTheirLevel : Prop :=
  ∀ (s t : State) (l : OutLine), step s = .next t → s.host.head? ≠ some .ereset →
    (∀ b, t.trace = s.trace ++ [.drive l b] → t.out l = b) ∧
    (t.trace = s.trace → t.out l = s.out l) ∧
    (∀ e, t.trace = s.trace ++ [e] → drives l e = false → t.out l = s.out l)

/-! ## Whole-machine rules -/

/-- The reset state meets the invariant, for every legal choice of parameters. -/
def Obligations.ResetMeetsTheInvariant : Prop :=
  (∀ (p : Params) (a b : Level), p.wellFormed = true → Inv (State.resetWith p a b)) ∧ Inv State.reset

/-- Every step keeps the invariant: the sequencer stays inside its micro-program, the lines are where the micro-program left them, select, clock and
reset are at rest whenever the SPE is idle, `RSTATE` follows its chain, `POLLCNT` stays within its limit, `DIR` is `OUT` throughout in `HW`. -/
def Obligations.StepKeepsTheInvariant : Prop := ∀ s t : State, Inv s → step s = .next t → Inv t

/-- From a state that meets the invariant no step stops: no micro-program reaches `PrimitivePrecondition` (`60_exceptions.md` section 8), and an accepted
operation keeps stepping (`70_reset_and_hazards.md` section 4). -/
def Obligations.NoStepStops : Prop := ∀ s : State, Inv s → ∃ t, step s = .next t

/-- From a state that meets the invariant, every event of a step is lawful on the wire in the state it is emitted from: see `lawfulEvent`
(the edge convention of `20_memory.md` section 2, the framing of `30_encoding.md` section 2, `42_reset_sync.md` section 3). -/
def Obligations.EveryEventIsLawful : Prop :=
  ∀ (s t : State) (e : Event), Inv s → step s = .next t → t.trace = s.trace ++ [e] → lawfulEvent s e

/-- Every operation but `runResetSequence`, from any point of it, ends after exactly its remaining micro-operations, with the SPE idle and status `OK`:
the busy-poll loop is the only way a run can go on for ever (`70_reset_and_hazards.md` section 4). -/
def Obligations.LinearOperationsEnd : Prop :=
  ∀ (s : State) (i : Instr) (k : Nat), Inv s → s.seq = .run i k → i ≠ .runResetSequence →
    ∃ (t : State) (d : List Byte), operate i ((microProgram s.params i).length - k) s = .next t ∧ t.seq = .idle ∧ t.rsp = some ⟨.OK, d⟩ ∧
      t.responses = s.responses ++ [⟨.OK, d⟩]

/-- No step changes a parameter, and no step forgets a recorded contention; contention is recorded in a step exactly when the SPE drives `SDA` after
its micro-operation while the device does (`20_memory.md` section 2, `60_exceptions.md` section 8; what a step's entry of the device's script covers is the
model's choice, log entry 9). -/
def Obligations.ContentionIsRecordedAndKept : Prop :=
  ∀ s t : State, step s = .next t →
    t.params = s.params ∧
    (s.contention = true → t.contention = true) ∧
    (∀ b rest, s.device.drives = b :: rest →
      (t.contention = true ↔ s.contention = true ∨ (t.sdaDir = .OUT ∧ b = true)) ∧ t.device.drives = rest)

/-- Independence of operations (`10_state.md` section 4): from two idle states with the same parameters and the same device, whatever their registers and
lines hold, an operation emits the same events and gives the same responses, step for step. -/
def Obligations.OperationsAreIndependent : Prop :=
  ∀ (i : Instr) (s s' : State), s.seq = .idle → s'.seq = .idle → s.params = s'.params → s.device = s'.device →
    s.pollcnt.isSome = s.params.busyPollLimit.isSome → s'.pollcnt.isSome = s.params.busyPollLimit.isSome →
    ∀ (n : Nat) (t : State), operate i n s = .next t →
      ∃ t', operate i n s' = .next t' ∧ t'.seq = t.seq ∧
        ∃ (tr : List Event) (rs : List Response), t.trace = s.trace ++ tr ∧ t'.trace = s'.trace ++ tr ∧
          t.responses = s.responses ++ rs ∧ t'.responses = s'.responses ++ rs

/-- The minimum durations of `70_reset_and_hazards.md` section 4, of the events each operation run on the machine appends to the trace, from every idle
state and for all its parameters; with the default hold times they are the numbers of the table there. In `HW` the byte costs no delay of the SPE's own.
A refused operation or word costs none. -/
def Obligations.MinimumDurations : Prop :=
  ∀ s : State, s.seq = .idle →
    (s.params.variant = .SW →
      (∀ v, ∃ t tr, operate (.writeByte v) 43 s = .next t ∧ t.seq = .idle ∧ t.rsp = some ⟨.OK, []⟩ ∧ t.trace = s.trace ++ tr ∧
        minDuration s.params tr = 16 * s.params.tEdge) ∧
      (∃ t tr d, operate .readByte 43 s = .next t ∧ t.seq = .idle ∧ t.rsp = some ⟨.OK, [d]⟩ ∧ t.trace = s.trace ++ tr ∧
        minDuration s.params tr = 16 * s.params.tEdge) ∧
      (∀ i v, i = .sendCommand v ∨ i = .sendData v →
        ∃ t tr, operate i 46 s = .next t ∧ t.seq = .idle ∧ t.rsp = some ⟨.OK, []⟩ ∧ t.trace = s.trace ++ tr ∧
          minDuration s.params tr = 16 * s.params.tEdge) ∧
      (∃ t tr d0 d1, operate .readChipId 131 s = .next t ∧ t.seq = .idle ∧ t.rsp = some ⟨.OK, [d0, d1]⟩ ∧ t.trace = s.trace ++ tr ∧
        minDuration s.params tr = 48 * s.params.tEdge)) ∧
    (s.params.variant = .HW →
      (∀ v, ∃ t tr, operate (.writeByte v) 2 s = .next t ∧ t.seq = .idle ∧ t.rsp = some ⟨.OK, []⟩ ∧ t.trace = s.trace ++ tr ∧
        minDuration s.params tr = 0) ∧
      (∀ i v, i = .sendCommand v ∨ i = .sendData v →
        ∃ t tr, operate i 5 s = .next t ∧ t.seq = .idle ∧ t.rsp = some ⟨.OK, []⟩ ∧ t.trace = s.trace ++ tr ∧ minDuration s.params tr = 0) ∧
      (∀ i, i = .readByte ∨ i = .readChipId →
        ∃ t tr, operate i 1 s = .next t ∧ t.rsp = some ⟨.UnsupportedOperation, []⟩ ∧ t.trace = s.trace ++ tr ∧ minDuration s.params tr = 0)) ∧
    (∀ w r rest, s.host = .present w :: rest ∨ s.host = .strobe w :: rest → decode w = .reserved r →
      ∃ t tr, step s = .next t ∧ t.rsp = some ⟨.IllegalOperation, []⟩ ∧ t.trace = s.trace ++ tr ∧ minDuration s.params tr = 0) ∧
    (∀ n, busyLevels (n + 1) s.device = List.replicate n false ++ [true] →
      (s.params.busyPollLimit = none ∧ s.pollcnt = none) ∨ (∃ limit c, s.params.busyPollLimit = some limit ∧ n < limit ∧ s.pollcnt = some c) →
      ∃ t tr, operate .runResetSequence (11 + 2 * n) s = .next t ∧ t.seq = .idle ∧ t.rsp = some ⟨.OK, []⟩ ∧ t.trace = s.trace ++ tr ∧
        minDuration s.params tr =
          (2 * (s.params.resetLowHold + s.params.resetHighHold) + n * s.params.busyPollInterval + s.params.readySettle) * s.params.tUnit ∧
        (s.params.resetLowHold = 20 → s.params.resetHighHold = 10 → s.params.busyPollInterval = 1 → s.params.readySettle = 10 →
          minDuration s.params tr = (70 + n) * s.params.tUnit)) ∧
    (∀ n c, s.params.busyPollLimit = some (n + 1) → s.pollcnt = some c → busyLevels (n + 1) s.device = List.replicate (n + 1) false →
      ∃ t tr, operate .runResetSequence (10 + 2 * n) s = .next t ∧ t.seq = .idle ∧ t.rsp = some ⟨.Timeout, []⟩ ∧ t.trace = s.trace ++ tr ∧
        minDuration s.params tr =
          (2 * (s.params.resetLowHold + s.params.resetHighHold) + n * s.params.busyPollInterval) * s.params.tUnit ∧
        (s.params.resetLowHold = 20 → s.params.resetHighHold = 10 → s.params.busyPollInterval = 1 →
          minDuration s.params tr = (59 + (n + 1)) * s.params.tUnit))
end

