-- ==== Sys2Proof/Laws/Encoding.lean ====
section
/-! SUPPORT. The fields of an encoded word, and a word put together from its fields (R85, R86). -/

namespace Sys2Proof

theorem zField_encode (i : Instr) : zField (encode i) = 0 := by
  simp only [zField, encode]
  apply BitVec.eq_of_getLsbD_eq
  intro k hk
  simp only [BitVec.getLsbD_append, BitVec.getLsbD_extractLsb', hk, decide_true, Bool.true_and]
  rw [if_neg (by omega), if_neg (by omega)]
  simp

theorem opField_encode (i : Instr) : opField (encode i) = opCode i := by
  simp only [opField, encode]
  apply BitVec.eq_of_getLsbD_eq
  intro k hk
  simp only [BitVec.getLsbD_append, BitVec.getLsbD_extractLsb', hk, decide_true, Bool.true_and]
  rw [if_neg (by omega), if_pos (by omega)]
  congr 1
  omega

theorem argField_encode (i : Instr) : argField (encode i) = arg i := by
  simp only [argField, encode]
  apply BitVec.eq_of_getLsbD_eq
  intro k hk
  simp only [BitVec.getLsbD_append, BitVec.getLsbD_extractLsb', hk, decide_true, Bool.true_and]
  rw [if_pos (by omega)]
  congr 1
  omega

/-- A word is its three fields. -/
theorem word_of_fields (w : Word) : (zField w ++ opField w) ++ argField w = w := by
  simp only [zField, opField, argField]
  apply BitVec.eq_of_getLsbD_eq
  intro i hi
  simp only [BitVec.getLsbD_append, BitVec.getLsbD_extractLsb']
  split
  · next h => simp [h]
  · split
    · next h h2 =>
      simp at *
      rw [show 8 + (i - 8) = i by omega]
      simp [*]
    · next h h2 =>
      simp at *
      rw [show 12 + (i - 8 - 4) = i by omega]
      simp [*]
      intro
      omega

end Sys2Proof
end

