-- ==== Sys2Proof/Laws/State.lean ====
section
/-! SUPPORT. One lemma per field per update of the state: what each named operation does to each field. -/

namespace Sys2Proof.Machine

/-! ## `emit` -/

@[simp] theorem State.emit_params (e : Event) (s : State) : (State.emit e s).params = s.params := rfl
@[simp] theorem State.emit_sr (e : Event) (s : State) : (State.emit e s).sr = s.sr := rfl
@[simp] theorem State.emit_rd0 (e : Event) (s : State) : (State.emit e s).rd0 = s.rd0 := rfl
@[simp] theorem State.emit_rd1 (e : Event) (s : State) : (State.emit e s).rd1 = s.rd1 := rfl
@[simp] theorem State.emit_seq (e : Event) (s : State) : (State.emit e s).seq = s.seq := rfl
@[simp] theorem State.emit_sckOut (e : Event) (s : State) : (State.emit e s).sckOut = s.sckOut := rfl
@[simp] theorem State.emit_sdaDir (e : Event) (s : State) : (State.emit e s).sdaDir = s.sdaDir := rfl
@[simp] theorem State.emit_sdaOut (e : Event) (s : State) : (State.emit e s).sdaOut = s.sdaOut := rfl
@[simp] theorem State.emit_sdaIn (e : Event) (s : State) : (State.emit e s).sdaIn = s.sdaIn := rfl
@[simp] theorem State.emit_csnOut (e : Event) (s : State) : (State.emit e s).csnOut = s.csnOut := rfl
@[simp] theorem State.emit_dcOut (e : Event) (s : State) : (State.emit e s).dcOut = s.dcOut := rfl
@[simp] theorem State.emit_rstnOut (e : Event) (s : State) : (State.emit e s).rstnOut = s.rstnOut := rfl
@[simp] theorem State.emit_busyIn (e : Event) (s : State) : (State.emit e s).busyIn = s.busyIn := rfl
@[simp] theorem State.emit_rstate (e : Event) (s : State) : (State.emit e s).rstate = s.rstate := rfl
@[simp] theorem State.emit_pollcnt (e : Event) (s : State) : (State.emit e s).pollcnt = s.pollcnt := rfl
@[simp] theorem State.emit_rsp (e : Event) (s : State) : (State.emit e s).rsp = s.rsp := rfl
@[simp] theorem State.emit_host (e : Event) (s : State) : (State.emit e s).host = s.host := rfl
@[simp] theorem State.emit_device (e : Event) (s : State) : (State.emit e s).device = s.device := rfl
@[simp] theorem State.emit_trace (e : Event) (s : State) : (State.emit e s).trace = s.trace ++ [e] := rfl
@[simp] theorem State.emit_responses (e : Event) (s : State) : (State.emit e s).responses = s.responses := rfl
@[simp] theorem State.emit_contention (e : Event) (s : State) : (State.emit e s).contention = s.contention := rfl

/-! ## `respond` -/

@[simp] theorem State.respond_params (r : Response) (s : State) : (State.respond r s).params = s.params := rfl
@[simp] theorem State.respond_sr (r : Response) (s : State) : (State.respond r s).sr = s.sr := rfl
@[simp] theorem State.respond_rd0 (r : Response) (s : State) : (State.respond r s).rd0 = s.rd0 := rfl
@[simp] theorem State.respond_rd1 (r : Response) (s : State) : (State.respond r s).rd1 = s.rd1 := rfl
@[simp] theorem State.respond_seq (r : Response) (s : State) : (State.respond r s).seq = s.seq := rfl
@[simp] theorem State.respond_sckOut (r : Response) (s : State) : (State.respond r s).sckOut = s.sckOut := rfl
@[simp] theorem State.respond_sdaDir (r : Response) (s : State) : (State.respond r s).sdaDir = s.sdaDir := rfl
@[simp] theorem State.respond_sdaOut (r : Response) (s : State) : (State.respond r s).sdaOut = s.sdaOut := rfl
@[simp] theorem State.respond_sdaIn (r : Response) (s : State) : (State.respond r s).sdaIn = s.sdaIn := rfl
@[simp] theorem State.respond_csnOut (r : Response) (s : State) : (State.respond r s).csnOut = s.csnOut := rfl
@[simp] theorem State.respond_dcOut (r : Response) (s : State) : (State.respond r s).dcOut = s.dcOut := rfl
@[simp] theorem State.respond_rstnOut (r : Response) (s : State) : (State.respond r s).rstnOut = s.rstnOut := rfl
@[simp] theorem State.respond_busyIn (r : Response) (s : State) : (State.respond r s).busyIn = s.busyIn := rfl
@[simp] theorem State.respond_rstate (r : Response) (s : State) : (State.respond r s).rstate = s.rstate := rfl
@[simp] theorem State.respond_pollcnt (r : Response) (s : State) : (State.respond r s).pollcnt = s.pollcnt := rfl
@[simp] theorem State.respond_rsp (r : Response) (s : State) : (State.respond r s).rsp = some r := rfl
@[simp] theorem State.respond_host (r : Response) (s : State) : (State.respond r s).host = s.host := rfl
@[simp] theorem State.respond_device (r : Response) (s : State) : (State.respond r s).device = s.device := rfl
@[simp] theorem State.respond_trace (r : Response) (s : State) : (State.respond r s).trace = s.trace := rfl
@[simp] theorem State.respond_responses (r : Response) (s : State) : (State.respond r s).responses = s.responses ++ [r] := rfl
@[simp] theorem State.respond_contention (r : Response) (s : State) : (State.respond r s).contention = s.contention := rfl

/-! ## `clearRsp` -/

@[simp] theorem State.clearRsp_params (s : State) : (State.clearRsp s).params = s.params := rfl
@[simp] theorem State.clearRsp_sr (s : State) : (State.clearRsp s).sr = s.sr := rfl
@[simp] theorem State.clearRsp_rd0 (s : State) : (State.clearRsp s).rd0 = s.rd0 := rfl
@[simp] theorem State.clearRsp_rd1 (s : State) : (State.clearRsp s).rd1 = s.rd1 := rfl
@[simp] theorem State.clearRsp_seq (s : State) : (State.clearRsp s).seq = s.seq := rfl
@[simp] theorem State.clearRsp_sckOut (s : State) : (State.clearRsp s).sckOut = s.sckOut := rfl
@[simp] theorem State.clearRsp_sdaDir (s : State) : (State.clearRsp s).sdaDir = s.sdaDir := rfl
@[simp] theorem State.clearRsp_sdaOut (s : State) : (State.clearRsp s).sdaOut = s.sdaOut := rfl
@[simp] theorem State.clearRsp_sdaIn (s : State) : (State.clearRsp s).sdaIn = s.sdaIn := rfl
@[simp] theorem State.clearRsp_csnOut (s : State) : (State.clearRsp s).csnOut = s.csnOut := rfl
@[simp] theorem State.clearRsp_dcOut (s : State) : (State.clearRsp s).dcOut = s.dcOut := rfl
@[simp] theorem State.clearRsp_rstnOut (s : State) : (State.clearRsp s).rstnOut = s.rstnOut := rfl
@[simp] theorem State.clearRsp_busyIn (s : State) : (State.clearRsp s).busyIn = s.busyIn := rfl
@[simp] theorem State.clearRsp_rstate (s : State) : (State.clearRsp s).rstate = s.rstate := rfl
@[simp] theorem State.clearRsp_pollcnt (s : State) : (State.clearRsp s).pollcnt = s.pollcnt := rfl
@[simp] theorem State.clearRsp_rsp (s : State) : (State.clearRsp s).rsp = none := rfl
@[simp] theorem State.clearRsp_host (s : State) : (State.clearRsp s).host = s.host := rfl
@[simp] theorem State.clearRsp_device (s : State) : (State.clearRsp s).device = s.device := rfl
@[simp] theorem State.clearRsp_trace (s : State) : (State.clearRsp s).trace = s.trace := rfl
@[simp] theorem State.clearRsp_responses (s : State) : (State.clearRsp s).responses = s.responses := rfl
@[simp] theorem State.clearRsp_contention (s : State) : (State.clearRsp s).contention = s.contention := rfl

/-! ## `setOut` -/

@[simp] theorem State.setOut_params (l : OutLine) (b : Level) (s : State) : (State.setOut l b s).params = s.params := by cases l <;> rfl
@[simp] theorem State.setOut_sr (l : OutLine) (b : Level) (s : State) : (State.setOut l b s).sr = s.sr := by cases l <;> rfl
@[simp] theorem State.setOut_rd0 (l : OutLine) (b : Level) (s : State) : (State.setOut l b s).rd0 = s.rd0 := by cases l <;> rfl
@[simp] theorem State.setOut_rd1 (l : OutLine) (b : Level) (s : State) : (State.setOut l b s).rd1 = s.rd1 := by cases l <;> rfl
@[simp] theorem State.setOut_seq (l : OutLine) (b : Level) (s : State) : (State.setOut l b s).seq = s.seq := by cases l <;> rfl
@[simp] theorem State.setOut_sdaDir (l : OutLine) (b : Level) (s : State) : (State.setOut l b s).sdaDir = s.sdaDir := by cases l <;> rfl
@[simp] theorem State.setOut_sdaIn (l : OutLine) (b : Level) (s : State) : (State.setOut l b s).sdaIn = s.sdaIn := by cases l <;> rfl
@[simp] theorem State.setOut_busyIn (l : OutLine) (b : Level) (s : State) : (State.setOut l b s).busyIn = s.busyIn := by cases l <;> rfl
@[simp] theorem State.setOut_rstate (l : OutLine) (b : Level) (s : State) : (State.setOut l b s).rstate = s.rstate := by cases l <;> rfl
@[simp] theorem State.setOut_pollcnt (l : OutLine) (b : Level) (s : State) : (State.setOut l b s).pollcnt = s.pollcnt := by cases l <;> rfl
@[simp] theorem State.setOut_rsp (l : OutLine) (b : Level) (s : State) : (State.setOut l b s).rsp = s.rsp := by cases l <;> rfl
@[simp] theorem State.setOut_host (l : OutLine) (b : Level) (s : State) : (State.setOut l b s).host = s.host := by cases l <;> rfl
@[simp] theorem State.setOut_device (l : OutLine) (b : Level) (s : State) : (State.setOut l b s).device = s.device := by cases l <;> rfl
@[simp] theorem State.setOut_trace (l : OutLine) (b : Level) (s : State) : (State.setOut l b s).trace = s.trace := by cases l <;> rfl
@[simp] theorem State.setOut_responses (l : OutLine) (b : Level) (s : State) : (State.setOut l b s).responses = s.responses := by cases l <;> rfl
@[simp] theorem State.setOut_contention (l : OutLine) (b : Level) (s : State) : (State.setOut l b s).contention = s.contention := by cases l <;> rfl

/-! ## `setdir` -/

@[simp] theorem setdir_params (d : Dir) (s : State) : (setdir d s).params = s.params := rfl
@[simp] theorem setdir_sr (d : Dir) (s : State) : (setdir d s).sr = s.sr := rfl
@[simp] theorem setdir_rd0 (d : Dir) (s : State) : (setdir d s).rd0 = s.rd0 := rfl
@[simp] theorem setdir_rd1 (d : Dir) (s : State) : (setdir d s).rd1 = s.rd1 := rfl
@[simp] theorem setdir_seq (d : Dir) (s : State) : (setdir d s).seq = s.seq := rfl
@[simp] theorem setdir_sckOut (d : Dir) (s : State) : (setdir d s).sckOut = s.sckOut := rfl
@[simp] theorem setdir_sdaDir (d : Dir) (s : State) : (setdir d s).sdaDir = d := rfl
@[simp] theorem setdir_sdaOut (d : Dir) (s : State) : (setdir d s).sdaOut = s.sdaOut := rfl
@[simp] theorem setdir_sdaIn (d : Dir) (s : State) : (setdir d s).sdaIn = s.sdaIn := rfl
@[simp] theorem setdir_csnOut (d : Dir) (s : State) : (setdir d s).csnOut = s.csnOut := rfl
@[simp] theorem setdir_dcOut (d : Dir) (s : State) : (setdir d s).dcOut = s.dcOut := rfl
@[simp] theorem setdir_rstnOut (d : Dir) (s : State) : (setdir d s).rstnOut = s.rstnOut := rfl
@[simp] theorem setdir_busyIn (d : Dir) (s : State) : (setdir d s).busyIn = s.busyIn := rfl
@[simp] theorem setdir_rstate (d : Dir) (s : State) : (setdir d s).rstate = s.rstate := rfl
@[simp] theorem setdir_pollcnt (d : Dir) (s : State) : (setdir d s).pollcnt = s.pollcnt := rfl
@[simp] theorem setdir_rsp (d : Dir) (s : State) : (setdir d s).rsp = s.rsp := rfl
@[simp] theorem setdir_host (d : Dir) (s : State) : (setdir d s).host = s.host := rfl
@[simp] theorem setdir_device (d : Dir) (s : State) : (setdir d s).device = s.device := rfl
@[simp] theorem setdir_trace (d : Dir) (s : State) : (setdir d s).trace = s.trace ++ [.dir d] := rfl
@[simp] theorem setdir_responses (d : Dir) (s : State) : (setdir d s).responses = s.responses := rfl
@[simp] theorem setdir_contention (d : Dir) (s : State) : (setdir d s).contention = s.contention := rfl

/-! ## `delayEdge` -/

@[simp] theorem delayEdge_params (s : State) : (delayEdge s).params = s.params := rfl
@[simp] theorem delayEdge_sr (s : State) : (delayEdge s).sr = s.sr := rfl
@[simp] theorem delayEdge_rd0 (s : State) : (delayEdge s).rd0 = s.rd0 := rfl
@[simp] theorem delayEdge_rd1 (s : State) : (delayEdge s).rd1 = s.rd1 := rfl
@[simp] theorem delayEdge_seq (s : State) : (delayEdge s).seq = s.seq := rfl
@[simp] theorem delayEdge_sckOut (s : State) : (delayEdge s).sckOut = s.sckOut := rfl
@[simp] theorem delayEdge_sdaDir (s : State) : (delayEdge s).sdaDir = s.sdaDir := rfl
@[simp] theorem delayEdge_sdaOut (s : State) : (delayEdge s).sdaOut = s.sdaOut := rfl
@[simp] theorem delayEdge_sdaIn (s : State) : (delayEdge s).sdaIn = s.sdaIn := rfl
@[simp] theorem delayEdge_csnOut (s : State) : (delayEdge s).csnOut = s.csnOut := rfl
@[simp] theorem delayEdge_dcOut (s : State) : (delayEdge s).dcOut = s.dcOut := rfl
@[simp] theorem delayEdge_rstnOut (s : State) : (delayEdge s).rstnOut = s.rstnOut := rfl
@[simp] theorem delayEdge_busyIn (s : State) : (delayEdge s).busyIn = s.busyIn := rfl
@[simp] theorem delayEdge_rstate (s : State) : (delayEdge s).rstate = s.rstate := rfl
@[simp] theorem delayEdge_pollcnt (s : State) : (delayEdge s).pollcnt = s.pollcnt := rfl
@[simp] theorem delayEdge_rsp (s : State) : (delayEdge s).rsp = s.rsp := rfl
@[simp] theorem delayEdge_host (s : State) : (delayEdge s).host = s.host := rfl
@[simp] theorem delayEdge_device (s : State) : (delayEdge s).device = s.device := rfl
@[simp] theorem delayEdge_trace (s : State) : (delayEdge s).trace = s.trace ++ [.delayEdge] := rfl
@[simp] theorem delayEdge_responses (s : State) : (delayEdge s).responses = s.responses := rfl
@[simp] theorem delayEdge_contention (s : State) : (delayEdge s).contention = s.contention := rfl

/-! ## `sleep` -/

@[simp] theorem sleep_params (n : Nat) (s : State) : (sleep n s).params = s.params := rfl
@[simp] theorem sleep_sr (n : Nat) (s : State) : (sleep n s).sr = s.sr := rfl
@[simp] theorem sleep_rd0 (n : Nat) (s : State) : (sleep n s).rd0 = s.rd0 := rfl
@[simp] theorem sleep_rd1 (n : Nat) (s : State) : (sleep n s).rd1 = s.rd1 := rfl
@[simp] theorem sleep_seq (n : Nat) (s : State) : (sleep n s).seq = s.seq := rfl
@[simp] theorem sleep_sckOut (n : Nat) (s : State) : (sleep n s).sckOut = s.sckOut := rfl
@[simp] theorem sleep_sdaDir (n : Nat) (s : State) : (sleep n s).sdaDir = s.sdaDir := rfl
@[simp] theorem sleep_sdaOut (n : Nat) (s : State) : (sleep n s).sdaOut = s.sdaOut := rfl
@[simp] theorem sleep_sdaIn (n : Nat) (s : State) : (sleep n s).sdaIn = s.sdaIn := rfl
@[simp] theorem sleep_csnOut (n : Nat) (s : State) : (sleep n s).csnOut = s.csnOut := rfl
@[simp] theorem sleep_dcOut (n : Nat) (s : State) : (sleep n s).dcOut = s.dcOut := rfl
@[simp] theorem sleep_rstnOut (n : Nat) (s : State) : (sleep n s).rstnOut = s.rstnOut := rfl
@[simp] theorem sleep_busyIn (n : Nat) (s : State) : (sleep n s).busyIn = s.busyIn := rfl
@[simp] theorem sleep_rstate (n : Nat) (s : State) : (sleep n s).rstate = s.rstate := rfl
@[simp] theorem sleep_pollcnt (n : Nat) (s : State) : (sleep n s).pollcnt = s.pollcnt := rfl
@[simp] theorem sleep_rsp (n : Nat) (s : State) : (sleep n s).rsp = s.rsp := rfl
@[simp] theorem sleep_host (n : Nat) (s : State) : (sleep n s).host = s.host := rfl
@[simp] theorem sleep_device (n : Nat) (s : State) : (sleep n s).device = s.device := rfl
@[simp] theorem sleep_trace (n : Nat) (s : State) : (sleep n s).trace = s.trace ++ [.sleep n] := rfl
@[simp] theorem sleep_responses (n : Nat) (s : State) : (sleep n s).responses = s.responses := rfl
@[simp] theorem sleep_contention (n : Nat) (s : State) : (sleep n s).contention = s.contention := rfl

/-! ## `xfer` -/

@[simp] theorem xfer_params (tx : List Byte) (s : State) : (xfer tx s).params = s.params := rfl
@[simp] theorem xfer_sr (tx : List Byte) (s : State) : (xfer tx s).sr = s.sr := rfl
@[simp] theorem xfer_rd0 (tx : List Byte) (s : State) : (xfer tx s).rd0 = s.rd0 := rfl
@[simp] theorem xfer_rd1 (tx : List Byte) (s : State) : (xfer tx s).rd1 = s.rd1 := rfl
@[simp] theorem xfer_seq (tx : List Byte) (s : State) : (xfer tx s).seq = s.seq := rfl
@[simp] theorem xfer_sckOut (tx : List Byte) (s : State) : (xfer tx s).sckOut = s.sckOut := rfl
@[simp] theorem xfer_sdaDir (tx : List Byte) (s : State) : (xfer tx s).sdaDir = s.sdaDir := rfl
@[simp] theorem xfer_sdaOut (tx : List Byte) (s : State) : (xfer tx s).sdaOut = s.sdaOut := rfl
@[simp] theorem xfer_sdaIn (tx : List Byte) (s : State) : (xfer tx s).sdaIn = s.sdaIn := rfl
@[simp] theorem xfer_csnOut (tx : List Byte) (s : State) : (xfer tx s).csnOut = s.csnOut := rfl
@[simp] theorem xfer_dcOut (tx : List Byte) (s : State) : (xfer tx s).dcOut = s.dcOut := rfl
@[simp] theorem xfer_rstnOut (tx : List Byte) (s : State) : (xfer tx s).rstnOut = s.rstnOut := rfl
@[simp] theorem xfer_busyIn (tx : List Byte) (s : State) : (xfer tx s).busyIn = s.busyIn := rfl
@[simp] theorem xfer_rstate (tx : List Byte) (s : State) : (xfer tx s).rstate = s.rstate := rfl
@[simp] theorem xfer_pollcnt (tx : List Byte) (s : State) : (xfer tx s).pollcnt = s.pollcnt := rfl
@[simp] theorem xfer_rsp (tx : List Byte) (s : State) : (xfer tx s).rsp = s.rsp := rfl
@[simp] theorem xfer_host (tx : List Byte) (s : State) : (xfer tx s).host = s.host := rfl
@[simp] theorem xfer_device (tx : List Byte) (s : State) : (xfer tx s).device = s.device := rfl
@[simp] theorem xfer_trace (tx : List Byte) (s : State) : (xfer tx s).trace = s.trace ++ [.xfer tx] := rfl
@[simp] theorem xfer_responses (tx : List Byte) (s : State) : (xfer tx s).responses = s.responses := rfl
@[simp] theorem xfer_contention (tx : List Byte) (s : State) : (xfer tx s).contention = s.contention := rfl

/-! ## `accept` -/

@[simp] theorem accept_params (i : Instr) (s : State) : (accept i s).params = s.params := rfl
@[simp] theorem accept_sr (i : Instr) (s : State) : (accept i s).sr = s.sr := rfl
@[simp] theorem accept_rd0 (i : Instr) (s : State) : (accept i s).rd0 = s.rd0 := rfl
@[simp] theorem accept_rd1 (i : Instr) (s : State) : (accept i s).rd1 = s.rd1 := rfl
@[simp] theorem accept_seq (i : Instr) (s : State) : (accept i s).seq = .run i 0 := rfl
@[simp] theorem accept_sckOut (i : Instr) (s : State) : (accept i s).sckOut = s.sckOut := rfl
@[simp] theorem accept_sdaDir (i : Instr) (s : State) : (accept i s).sdaDir = s.sdaDir := rfl
@[simp] theorem accept_sdaOut (i : Instr) (s : State) : (accept i s).sdaOut = s.sdaOut := rfl
@[simp] theorem accept_sdaIn (i : Instr) (s : State) : (accept i s).sdaIn = s.sdaIn := rfl
@[simp] theorem accept_csnOut (i : Instr) (s : State) : (accept i s).csnOut = s.csnOut := rfl
@[simp] theorem accept_dcOut (i : Instr) (s : State) : (accept i s).dcOut = s.dcOut := rfl
@[simp] theorem accept_rstnOut (i : Instr) (s : State) : (accept i s).rstnOut = s.rstnOut := rfl
@[simp] theorem accept_busyIn (i : Instr) (s : State) : (accept i s).busyIn = s.busyIn := rfl
@[simp] theorem accept_rstate (i : Instr) (s : State) : (accept i s).rstate = s.rstate := rfl
@[simp] theorem accept_pollcnt (i : Instr) (s : State) : (accept i s).pollcnt = s.pollcnt := rfl
@[simp] theorem accept_rsp (i : Instr) (s : State) : (accept i s).rsp = s.rsp := rfl
@[simp] theorem accept_host (i : Instr) (s : State) : (accept i s).host = s.host := rfl
@[simp] theorem accept_device (i : Instr) (s : State) : (accept i s).device = s.device := rfl
@[simp] theorem accept_trace (i : Instr) (s : State) : (accept i s).trace = s.trace := rfl
@[simp] theorem accept_responses (i : Instr) (s : State) : (accept i s).responses = s.responses := rfl
@[simp] theorem accept_contention (i : Instr) (s : State) : (accept i s).contention = s.contention := rfl

/-! ## `acceptReset` -/

@[simp] theorem acceptReset_params (s : State) : (acceptReset s).params = s.params := rfl
@[simp] theorem acceptReset_sr (s : State) : (acceptReset s).sr = s.sr := rfl
@[simp] theorem acceptReset_rd0 (s : State) : (acceptReset s).rd0 = s.rd0 := rfl
@[simp] theorem acceptReset_rd1 (s : State) : (acceptReset s).rd1 = s.rd1 := rfl
@[simp] theorem acceptReset_seq (s : State) : (acceptReset s).seq = .run .runResetSequence 0 := rfl
@[simp] theorem acceptReset_sckOut (s : State) : (acceptReset s).sckOut = s.sckOut := rfl
@[simp] theorem acceptReset_sdaDir (s : State) : (acceptReset s).sdaDir = s.sdaDir := rfl
@[simp] theorem acceptReset_sdaOut (s : State) : (acceptReset s).sdaOut = s.sdaOut := rfl
@[simp] theorem acceptReset_sdaIn (s : State) : (acceptReset s).sdaIn = s.sdaIn := rfl
@[simp] theorem acceptReset_csnOut (s : State) : (acceptReset s).csnOut = s.csnOut := rfl
@[simp] theorem acceptReset_dcOut (s : State) : (acceptReset s).dcOut = s.dcOut := rfl
@[simp] theorem acceptReset_rstnOut (s : State) : (acceptReset s).rstnOut = s.rstnOut := rfl
@[simp] theorem acceptReset_busyIn (s : State) : (acceptReset s).busyIn = s.busyIn := rfl
@[simp] theorem acceptReset_rstate (s : State) : (acceptReset s).rstate = .Idle := rfl
@[simp] theorem acceptReset_pollcnt (s : State) : (acceptReset s).pollcnt = s.pollcnt.map fun _ => 0 := rfl
@[simp] theorem acceptReset_rsp (s : State) : (acceptReset s).rsp = s.rsp := rfl
@[simp] theorem acceptReset_host (s : State) : (acceptReset s).host = s.host := rfl
@[simp] theorem acceptReset_device (s : State) : (acceptReset s).device = s.device := rfl
@[simp] theorem acceptReset_trace (s : State) : (acceptReset s).trace = s.trace := rfl
@[simp] theorem acceptReset_responses (s : State) : (acceptReset s).responses = s.responses := rfl
@[simp] theorem acceptReset_contention (s : State) : (acceptReset s).contention = s.contention := rfl

/-! ## `complete` -/

@[simp] theorem complete_params (st : Status) (data : List Byte) (s : State) : (complete st data s).params = s.params := rfl
@[simp] theorem complete_sr (st : Status) (data : List Byte) (s : State) : (complete st data s).sr = s.sr := rfl
@[simp] theorem complete_rd0 (st : Status) (data : List Byte) (s : State) : (complete st data s).rd0 = s.rd0 := rfl
@[simp] theorem complete_rd1 (st : Status) (data : List Byte) (s : State) : (complete st data s).rd1 = s.rd1 := rfl
@[simp] theorem complete_seq (st : Status) (data : List Byte) (s : State) : (complete st data s).seq = .idle := rfl
@[simp] theorem complete_sckOut (st : Status) (data : List Byte) (s : State) : (complete st data s).sckOut = s.sckOut := rfl
@[simp] theorem complete_sdaDir (st : Status) (data : List Byte) (s : State) : (complete st data s).sdaDir = s.sdaDir := rfl
@[simp] theorem complete_sdaOut (st : Status) (data : List Byte) (s : State) : (complete st data s).sdaOut = s.sdaOut := rfl
@[simp] theorem complete_sdaIn (st : Status) (data : List Byte) (s : State) : (complete st data s).sdaIn = s.sdaIn := rfl
@[simp] theorem complete_csnOut (st : Status) (data : List Byte) (s : State) : (complete st data s).csnOut = s.csnOut := rfl
@[simp] theorem complete_dcOut (st : Status) (data : List Byte) (s : State) : (complete st data s).dcOut = s.dcOut := rfl
@[simp] theorem complete_rstnOut (st : Status) (data : List Byte) (s : State) : (complete st data s).rstnOut = s.rstnOut := rfl
@[simp] theorem complete_busyIn (st : Status) (data : List Byte) (s : State) : (complete st data s).busyIn = s.busyIn := rfl
@[simp] theorem complete_rstate (st : Status) (data : List Byte) (s : State) : (complete st data s).rstate = s.rstate := rfl
@[simp] theorem complete_pollcnt (st : Status) (data : List Byte) (s : State) : (complete st data s).pollcnt = s.pollcnt := rfl
@[simp] theorem complete_rsp (st : Status) (data : List Byte) (s : State) : (complete st data s).rsp = some ⟨st, data⟩ := rfl
@[simp] theorem complete_host (st : Status) (data : List Byte) (s : State) : (complete st data s).host = s.host := rfl
@[simp] theorem complete_device (st : Status) (data : List Byte) (s : State) : (complete st data s).device = s.device := rfl
@[simp] theorem complete_trace (st : Status) (data : List Byte) (s : State) : (complete st data s).trace = s.trace := rfl
@[simp] theorem complete_responses (st : Status) (data : List Byte) (s : State) : (complete st data s).responses = s.responses ++ [⟨st, data⟩] := rfl
@[simp] theorem complete_contention (st : Status) (data : List Byte) (s : State) : (complete st data s).contention = s.contention := rfl

/-! ## `refuse` -/

@[simp] theorem refuse_params (st : Status) (s : State) : (refuse st s).params = s.params := rfl
@[simp] theorem refuse_sr (st : Status) (s : State) : (refuse st s).sr = s.sr := rfl
@[simp] theorem refuse_rd0 (st : Status) (s : State) : (refuse st s).rd0 = s.rd0 := rfl
@[simp] theorem refuse_rd1 (st : Status) (s : State) : (refuse st s).rd1 = s.rd1 := rfl
@[simp] theorem refuse_seq (st : Status) (s : State) : (refuse st s).seq = s.seq := rfl
@[simp] theorem refuse_sckOut (st : Status) (s : State) : (refuse st s).sckOut = s.sckOut := rfl
@[simp] theorem refuse_sdaDir (st : Status) (s : State) : (refuse st s).sdaDir = s.sdaDir := rfl
@[simp] theorem refuse_sdaOut (st : Status) (s : State) : (refuse st s).sdaOut = s.sdaOut := rfl
@[simp] theorem refuse_sdaIn (st : Status) (s : State) : (refuse st s).sdaIn = s.sdaIn := rfl
@[simp] theorem refuse_csnOut (st : Status) (s : State) : (refuse st s).csnOut = s.csnOut := rfl
@[simp] theorem refuse_dcOut (st : Status) (s : State) : (refuse st s).dcOut = s.dcOut := rfl
@[simp] theorem refuse_rstnOut (st : Status) (s : State) : (refuse st s).rstnOut = s.rstnOut := rfl
@[simp] theorem refuse_busyIn (st : Status) (s : State) : (refuse st s).busyIn = s.busyIn := rfl
@[simp] theorem refuse_rstate (st : Status) (s : State) : (refuse st s).rstate = s.rstate := rfl
@[simp] theorem refuse_pollcnt (st : Status) (s : State) : (refuse st s).pollcnt = s.pollcnt := rfl
@[simp] theorem refuse_rsp (st : Status) (s : State) : (refuse st s).rsp = some ⟨st, []⟩ := rfl
@[simp] theorem refuse_host (st : Status) (s : State) : (refuse st s).host = s.host := rfl
@[simp] theorem refuse_device (st : Status) (s : State) : (refuse st s).device = s.device := rfl
@[simp] theorem refuse_trace (st : Status) (s : State) : (refuse st s).trace = s.trace := rfl
@[simp] theorem refuse_responses (st : Status) (s : State) : (refuse st s).responses = s.responses ++ [⟨st, []⟩] := rfl
@[simp] theorem refuse_contention (st : Status) (s : State) : (refuse st s).contention = s.contention := rfl

/-! ## `observeDevice` -/

@[simp] theorem observeDevice_params (s : State) : (observeDevice s).params = s.params := rfl
@[simp] theorem observeDevice_sr (s : State) : (observeDevice s).sr = s.sr := rfl
@[simp] theorem observeDevice_rd0 (s : State) : (observeDevice s).rd0 = s.rd0 := rfl
@[simp] theorem observeDevice_rd1 (s : State) : (observeDevice s).rd1 = s.rd1 := rfl
@[simp] theorem observeDevice_seq (s : State) : (observeDevice s).seq = s.seq := rfl
@[simp] theorem observeDevice_sckOut (s : State) : (observeDevice s).sckOut = s.sckOut := rfl
@[simp] theorem observeDevice_sdaDir (s : State) : (observeDevice s).sdaDir = s.sdaDir := rfl
@[simp] theorem observeDevice_sdaOut (s : State) : (observeDevice s).sdaOut = s.sdaOut := rfl
@[simp] theorem observeDevice_sdaIn (s : State) : (observeDevice s).sdaIn = s.sdaIn := rfl
@[simp] theorem observeDevice_csnOut (s : State) : (observeDevice s).csnOut = s.csnOut := rfl
@[simp] theorem observeDevice_dcOut (s : State) : (observeDevice s).dcOut = s.dcOut := rfl
@[simp] theorem observeDevice_rstnOut (s : State) : (observeDevice s).rstnOut = s.rstnOut := rfl
@[simp] theorem observeDevice_busyIn (s : State) : (observeDevice s).busyIn = s.busyIn := rfl
@[simp] theorem observeDevice_rstate (s : State) : (observeDevice s).rstate = s.rstate := rfl
@[simp] theorem observeDevice_pollcnt (s : State) : (observeDevice s).pollcnt = s.pollcnt := rfl
@[simp] theorem observeDevice_rsp (s : State) : (observeDevice s).rsp = s.rsp := rfl
@[simp] theorem observeDevice_host (s : State) : (observeDevice s).host = s.host := rfl
@[simp] theorem observeDevice_device (s : State) : (observeDevice s).device = s.device.afterStep := rfl
@[simp] theorem observeDevice_trace (s : State) : (observeDevice s).trace = s.trace := rfl
@[simp] theorem observeDevice_responses (s : State) : (observeDevice s).responses = s.responses := rfl
@[simp] theorem observeDevice_contention (s : State) : (observeDevice s).contention = (s.contention || (decide (s.sdaDir = .OUT) && s.device.drivesNow)) := rfl

/-! ## The lines -/

@[simp] theorem State.out_setOut_same (l : OutLine) (b : Level) (s : State) : (s.setOut l b).out l = b := by cases l <;> rfl

theorem State.out_setOut_other {l l' : OutLine} (h : l' ≠ l) (b : Level) (s : State) : (s.setOut l b).out l' = s.out l' := by
  cases l <;> cases l' <;> first | rfl | exact absurd rfl h

@[simp] theorem State.out_emit (l : OutLine) (e : Event) (s : State) : (s.emit e).out l = s.out l := by cases l <;> rfl

@[simp] theorem andThen_next (s : State) (f : State → Result) : andThen (.next s) f = f s := rfl

@[simp] theorem andThen_fault (e : Fault) (f : State → Result) : andThen (.fault e) f = .fault e := rfl

@[simp] theorem andThen_refused (e : Refusal) (f : State → Result) : andThen (.refused e) f = .refused e := rfl

theorem andThen_assoc (r : Result) (f g : State → Result) : andThen (andThen r f) g = andThen r fun s => andThen (f s) g := by
  cases r <;> rfl

/-- A step that goes on after another answers a next state only if both do. -/
theorem andThen_eq_next {r : Result} {f : State → Result} {t : State} : andThen r f = .next t ↔ ∃ s, r = .next s ∧ f s = .next t := by
  cases r <;> simp [andThen]

end Sys2Proof.Machine
end

