-- ==== Sys2Proof/Laws/Ops.lean ====
section
/-! SUPPORT. For each shared operation, one lemma that says everything it can do; the provers cite these instead of unfolding it. -/

namespace Sys2Proof.Machine

/-! ## Register writes -/

/-- The fields register writes never touch: everything but `SR`, `RD0`, `RD1` and `RSTATE`. -/
structure WriteFrame (s t : State) : Prop where
  params : t.params = s.params
  seq : t.seq = s.seq
  sckOut : t.sckOut = s.sckOut
  sdaDir : t.sdaDir = s.sdaDir
  sdaOut : t.sdaOut = s.sdaOut
  sdaIn : t.sdaIn = s.sdaIn
  csnOut : t.csnOut = s.csnOut
  dcOut : t.dcOut = s.dcOut
  rstnOut : t.rstnOut = s.rstnOut
  busyIn : t.busyIn = s.busyIn
  pollcnt : t.pollcnt = s.pollcnt
  rsp : t.rsp = s.rsp
  host : t.host = s.host
  device : t.device = s.device
  trace : t.trace = s.trace
  responses : t.responses = s.responses
  contention : t.contention = s.contention

theorem WriteFrame.refl (s : State) : WriteFrame s s := by constructor <;> rfl

theorem WriteFrame.trans {s t u : State} (h : WriteFrame s t) (k : WriteFrame t u) : WriteFrame s u where
  params := k.params.trans h.params
  seq := k.seq.trans h.seq
  sckOut := k.sckOut.trans h.sckOut
  sdaDir := k.sdaDir.trans h.sdaDir
  sdaOut := k.sdaOut.trans h.sdaOut
  sdaIn := k.sdaIn.trans h.sdaIn
  csnOut := k.csnOut.trans h.csnOut
  dcOut := k.dcOut.trans h.dcOut
  rstnOut := k.rstnOut.trans h.rstnOut
  busyIn := k.busyIn.trans h.busyIn
  pollcnt := k.pollcnt.trans h.pollcnt
  rsp := k.rsp.trans h.rsp
  host := k.host.trans h.host
  device := k.device.trans h.device
  trace := k.trace.trans h.trace
  responses := k.responses.trans h.responses
  contention := k.contention.trans h.contention

theorem RegWrite.apply_frame (w : RegWrite) (s : State) : WriteFrame s (w.apply s) := by
  cases w <;> constructor <;> rfl

theorem applyWrites_frame (ws : List RegWrite) (s : State) : WriteFrame s (applyWrites ws s) := by
  induction ws generalizing s with
  | nil => exact .refl s
  | cons w ws ih => exact (w.apply_frame s).trans (ih _)

@[simp] theorem applyWrites_nil (s : State) : applyWrites [] s = s := rfl

@[simp] theorem applyWrites_cons (w : RegWrite) (ws : List RegWrite) (s : State) :
    applyWrites (w :: ws) s = applyWrites ws (w.apply s) := rfl

/-- The state with another sequencer position. -/
def State.withSeq (q : Seq) (s : State) : State := { s with seq := q }

theorem RegWrite.apply_withSeq (w : RegWrite) (s : State) (q : Seq) : w.apply (s.withSeq q) = (w.apply s).withSeq q := by
  cases w <;> rfl

/-- Register writes neither read nor write `SEQ`. -/
theorem applyWrites_withSeq (ws : List RegWrite) (s : State) (q : Seq) :
    applyWrites ws (s.withSeq q) = (applyWrites ws s).withSeq q := by
  induction ws generalizing s with
  | nil => rfl
  | cons w ws ih => rw [applyWrites_cons, RegWrite.apply_withSeq, ih, applyWrites_cons]

/-- Register writes that set no `RSTATE` leave it. -/
theorem applyWrites_rstate {ws : List RegWrite} (h : ∀ w ∈ ws, ∀ r, w ≠ .setRState r) (s : State) :
    (applyWrites ws s).rstate = s.rstate := by
  induction ws generalizing s with
  | nil => rfl
  | cons w ws ih =>
    rw [applyWrites_cons, ih (fun w' hw' => h w' (.tail _ hw'))]
    cases w <;> first | rfl | exact absurd rfl (h _ (.head _) _)

/-! ## The primitives -/

theorem drive_next {l : OutLine} {b : Level} {s t : State} :
    drive l b s = .next t ↔ mayDrive l s = true ∧ t = (s.setOut l b).emit (.drive l b) := by
  unfold drive
  split
  · next h => exact ⟨fun e => ⟨h, by injection e with e; exact e.symm⟩, fun e => by rw [e.2]⟩
  · next h => exact ⟨fun e => (by cases e), fun e => absurd e.1 h⟩

theorem sample_next {l : InLine} {s t : State} : sample l s = .next t ↔ maySample l s = true ∧ t = sampled l s := by
  unfold sample
  split
  · next h => exact ⟨fun e => ⟨h, by injection e with e; exact e.symm⟩, fun e => by rw [e.2]⟩
  · next h => exact ⟨fun e => (by cases e), fun e => absurd e.1 h⟩

@[simp] theorem mayDrive_control {l : OutLine} (h : l ≠ .SDA) (s : State) : mayDrive l s = true := by simp [mayDrive, h]

theorem mayDrive_sda (s : State) : mayDrive .SDA s = true ↔ s.sdaDir = .OUT := by simp [mayDrive]

theorem maySample_sda (s : State) : maySample .SDA s = true ↔ s.sdaDir = .IN := by simp [maySample]

@[simp] theorem maySample_busy (s : State) : maySample .BUSY s = true := rfl

/-- Everything a line primitive can do when it answers a next state (R51 to R60). -/
theorem runPrim_next {p : Prim} {s t : State} (h : runPrim p s = .next t) :
    (∃ d, p = .setdir d ∧ t = setdir d s) ∨
    (∃ l b, p = .drive l b ∧ mayDrive l s = true ∧ t = (s.setOut l (b.value s)).emit (.drive l (b.value s))) ∨
    (∃ l, p = .sample l ∧ maySample l s = true ∧ t = sampled l s) ∨
    (p = .delayEdge ∧ t = delayEdge s) ∨ (∃ n, p = .sleep n ∧ t = sleep n s) ∨ (∃ tx, p = .xfer tx ∧ t = xfer tx s) := by
  cases p with
  | setdir d => exact .inl ⟨d, rfl, by simpa [runPrim] using h.symm⟩
  | drive l b => exact .inr (.inl ⟨l, b, rfl, drive_next.1 h⟩)
  | sample l => exact .inr (.inr (.inl ⟨l, rfl, sample_next.1 h⟩))
  | delayEdge => exact .inr (.inr (.inr (.inl ⟨rfl, by simpa [runPrim] using h.symm⟩)))
  | sleep n => exact .inr (.inr (.inr (.inr (.inl ⟨n, rfl, by simpa [runPrim] using h.symm⟩))))
  | xfer tx => exact .inr (.inr (.inr (.inr (.inr ⟨tx, rfl, by simpa [runPrim] using h.symm⟩))))

/-- A line primitive stops only where its precondition fails (R53, R54). -/
theorem runPrim_stops {p : Prim} {s : State} (h : ∀ t, runPrim p s ≠ .next t) :
    runPrim p s = .fault .primitivePrecondition ∧
      ((∃ b, p = .drive .SDA b ∧ s.sdaDir = .IN) ∨ (p = .sample .SDA ∧ s.sdaDir = .OUT)) := by
  cases p with
  | setdir d => exact absurd rfl (h _)
  | delayEdge => exact absurd rfl (h _)
  | sleep n => exact absurd rfl (h _)
  | xfer tx => exact absurd rfl (h _)
  | drive l b =>
    cases l <;> try exact absurd rfl (h _)
    cases hd : s.sdaDir with
    | OUT => exact absurd (drive_next.2 ⟨(mayDrive_sda s).2 hd, rfl⟩) (h _)
    | IN => exact ⟨by simp [runPrim, drive, mayDrive, hd], .inl ⟨b, rfl, rfl⟩⟩
  | sample l =>
    cases l <;> try exact absurd rfl (h _)
    cases hd : s.sdaDir with
    | IN => exact absurd (sample_next.2 ⟨(maySample_sda s).2 hd, rfl⟩) (h _)
    | OUT => exact ⟨by simp [runPrim, sample, maySample, hd], .inr ⟨rfl, rfl⟩⟩

/-- The primitives neither read nor write `SEQ`. -/
theorem runPrim_withSeq (p : Prim) (s : State) (q : Seq) :
    runPrim p (s.withSeq q) = andThen (runPrim p s) fun t => .next (t.withSeq q) := by
  cases p with
  | drive l b =>
    have h : mayDrive l (s.withSeq q) = mayDrive l s := rfl
    have e : ((s.withSeq q).setOut l (b.value s)).emit (.drive l (b.value s)) = ((s.setOut l (b.value s)).emit (.drive l (b.value s))).withSeq q := by
      cases l <;> rfl
    simp only [runPrim, drive, h, show b.value (s.withSeq q) = b.value s by cases b <;> rfl, e]
    split <;> rfl
  | sample l =>
    have h : maySample l (s.withSeq q) = maySample l s := rfl
    have e : sampled l (s.withSeq q) = (sampled l s).withSeq q := by cases l <;> rfl
    simp only [runPrim, sample, h, e]
    split <;> rfl
  | _ => rfl

/-! ## Micro-operations -/

/-- Everything performing a micro-operation can do when it answers a next state: its primitive ran between its register writes (R25). -/
theorem perform_next {m : MicroOp} {s t : State} (h : m.perform s = .next t) :
    ∃ u, runPrim m.prim (applyWrites m.before s) = .next u ∧ t = applyWrites m.after u := by
  obtain ⟨u, hu, ht⟩ := andThen_eq_next.1 h
  exact ⟨u, hu, by simpa [eq_comm] using ht⟩

/-- Performing a micro-operation neither reads nor writes `SEQ`. -/
theorem perform_withSeq (m : MicroOp) (s : State) (q : Seq) :
    m.perform (s.withSeq q) = andThen (m.perform s) fun t => .next (t.withSeq q) := by
  simp only [MicroOp.perform, applyWrites_withSeq, runPrim_withSeq, andThen_assoc]
  congr 1; funext t; simp only [andThen_next, applyWrites_withSeq]

/-- The fields no micro-operation touches. -/
structure PerformFrame (s t : State) : Prop where
  params : t.params = s.params
  seq : t.seq = s.seq
  pollcnt : t.pollcnt = s.pollcnt
  rsp : t.rsp = s.rsp
  host : t.host = s.host
  drives : t.device.drives = s.device.drives
  responses : t.responses = s.responses
  contention : t.contention = s.contention

theorem Device.afterSda_drives (d : Device) : d.afterSda.drives = d.drives := by unfold Device.afterSda; split <;> rfl

theorem Device.afterBusy_drives (d : Device) : d.afterBusy.drives = d.drives := by unfold Device.afterBusy; split <;> rfl

theorem Device.afterSda_busy (d : Device) : d.afterSda.busy = d.busy := by unfold Device.afterSda; split <;> rfl

theorem Device.afterBusy_sda (d : Device) : d.afterBusy.sda = d.sda := by unfold Device.afterBusy; split <;> rfl

theorem runPrim_frame {p : Prim} {s t : State} (h : runPrim p s = .next t) : PerformFrame s t := by
  obtain ⟨d, -, rfl⟩ | ⟨l, b, -, -, rfl⟩ | ⟨l, -, -, rfl⟩ | ⟨-, rfl⟩ | ⟨n, -, rfl⟩ | ⟨tx, -, rfl⟩ := runPrim_next h
  case inr.inr.inl => cases l <;> constructor <;> first | rfl | exact Device.afterSda_drives _ | exact Device.afterBusy_drives _
  all_goals constructor <;> simp

theorem perform_frame {m : MicroOp} {s t : State} (h : m.perform s = .next t) : PerformFrame s t := by
  obtain ⟨u, hu, rfl⟩ := perform_next h
  have a := applyWrites_frame m.before s
  have b := runPrim_frame hu
  have c := applyWrites_frame m.after u
  exact ⟨by rw [c.params, b.params, a.params], by rw [c.seq, b.seq, a.seq], by rw [c.pollcnt, b.pollcnt, a.pollcnt],
    by rw [c.rsp, b.rsp, a.rsp], by rw [c.host, b.host, a.host], by rw [c.device, b.drives, a.device],
    by rw [c.responses, b.responses, a.responses], by rw [c.contention, b.contention, a.contention]⟩

/-- A line primitive emits exactly one event (R51). -/
theorem runPrim_emits {p : Prim} {s t : State} (h : runPrim p s = .next t) : ∃ e, t.trace = s.trace ++ [e] := by
  obtain ⟨d, -, rfl⟩ | ⟨l, b, -, -, rfl⟩ | ⟨l, -, -, rfl⟩ | ⟨-, rfl⟩ | ⟨n, -, rfl⟩ | ⟨tx, -, rfl⟩ := runPrim_next h
  case inr.inr.inl => cases l <;> exact ⟨_, rfl⟩
  all_goals exact ⟨_, by simp; rfl⟩

theorem perform_emits {m : MicroOp} {s t : State} (h : m.perform s = .next t) : ∃ e, t.trace = s.trace ++ [e] := by
  obtain ⟨u, hu, rfl⟩ := perform_next h
  obtain ⟨e, he⟩ := runPrim_emits hu
  exact ⟨e, by rw [(applyWrites_frame m.after u).trace, he, (applyWrites_frame m.before s).trace]⟩

end Sys2Proof.Machine
end

