-- ==== Sys2Proof/Laws/Run.lean ====
section
/-! SUPPORT. Running an operation: `exec` as one shared step, and a stretch of a micro-program performed by repeated `exec`. -/

namespace Sys2Proof.Machine

/-- What acceptance does with each operation (R36). -/
def onAccept (i : Instr) : State → State :=
  match i with
  | .writeByte v => accept (.writeByte v)
  | .readByte => acceptRead .readByte
  | .sendCommand c => accept (.sendCommand c)
  | .sendData v => accept (.sendData v)
  | .readChipId => acceptRead .readChipId
  | .runResetSequence => acceptReset

/-- What follows micro-operation `k` of each operation (R25, R146). -/
def follow (p : Params) (i : Instr) : Nat → State → State :=
  match i with
  | .writeByte v => advance (.writeByte v) (microProgram p (.writeByte v)).length
  | .readByte => advance .readByte (microProgram p .readByte).length
  | .sendCommand c => advance (.sendCommand c) (microProgram p (.sendCommand c)).length
  | .sendData v => advance (.sendData v) (microProgram p (.sendData v)).length
  | .readChipId => advance .readChipId (microProgram p .readChipId).length
  | .runResetSequence => resetFollow (microProgram p .runResetSequence).length

/-- Every meaning is the shared step with its own acceptance, micro-program and continuation. -/
theorem exec_eq (i : Instr) (s : State) :
    exec i s = runOperation i (onAccept i) (microProgram s.params i) (follow s.params i) s := by
  cases i <;> rfl

theorem follow_linear {i : Instr} (h : i ≠ .runResetSequence) (p : Params) : follow p i = advance i (microProgram p i).length := by
  cases i <;> first | rfl | exact absurd rfl h

theorem exec_idle {i : Instr} {s : State} (h : s.seq = .idle) : exec i s = .next (onAccept i s) := by
  simp [exec_eq, runOperation, h]

theorem exec_running {i : Instr} {s : State} {k : Nat} {m : MicroOp} (h : s.seq = .run i k)
    (hm : (microProgram s.params i)[k]? = some m) : exec i s = andThen (m.perform s) fun t => .next (follow s.params i k t) := by
  simp [exec_eq, runOperation, h, hm]

theorem exec_other {i j : Instr} {s : State} {k : Nat} (h : s.seq = .run j k) (hij : j ≠ i) : exec i s = .next s := by
  simp [exec_eq, runOperation, h, hij]

/-- Everything one step of an operation can do (R25, R36): it is accepted or refused, its micro-operation is performed, or another operation runs. -/
theorem exec_next {i : Instr} {s t : State} (h : exec i s = .next t) :
    (s.seq = .idle ∧ t = onAccept i s) ∨
    (∃ k m u, s.seq = .run i k ∧ (microProgram s.params i)[k]? = some m ∧ m.perform s = .next u ∧ t = follow s.params i k u) ∨
    (∃ j k, s.seq = .run j k ∧ j ≠ i ∧ t = s) := by
  cases hs : s.seq with
  | idle => exact .inl ⟨rfl, by simpa [exec_idle hs, eq_comm] using h⟩
  | run j k =>
    by_cases hij : j = i
    · subst hij
      cases hm : (microProgram s.params j)[k]? with
      | none => simp [exec_eq, runOperation, hs, hm] at h
      | some m =>
        rw [exec_running hs hm] at h
        obtain ⟨u, hu, ht⟩ := andThen_eq_next.1 h
        exact .inr (.inl ⟨k, m, u, rfl, hm, hu, by simpa [eq_comm] using ht⟩)
    · rw [exec_other hs hij] at h
      exact .inr (.inr ⟨j, k, rfl, hij, by simpa [eq_comm] using h⟩)

/-! ## Stretches of a micro-program -/

/-- Micro-operations performed one after the other. -/
def performAll : List MicroOp → State → Result
  | [], s => .next s
  | m :: ms, s => andThen (m.perform s) (performAll ms)

@[simp] theorem performAll_nil (s : State) : performAll [] s = .next s := rfl

theorem performAll_append (ms ms' : List MicroOp) (s : State) :
    performAll (ms ++ ms') s = andThen (performAll ms s) (performAll ms') := by
  induction ms generalizing s with
  | nil => rfl
  | cons m ms ih => simp only [List.cons_append, performAll, andThen_assoc]; exact congrArg _ (funext ih)

theorem performAll_withSeq (ms : List MicroOp) (s : State) (q : Seq) :
    performAll ms (s.withSeq q) = andThen (performAll ms s) fun t => .next (t.withSeq q) := by
  induction ms generalizing s with
  | nil => rfl
  | cons m ms ih =>
    simp only [performAll, perform_withSeq, andThen_assoc, andThen_next]
    congr 1; funext t; exact ih t

theorem operate_add (i : Instr) (a b : Nat) (s : State) : operate i (a + b) s = andThen (operate i a s) (operate i b) := by
  induction a generalizing s with
  | zero => simp [operate]
  | succ a ih => rw [Nat.succ_add]; simp only [operate, andThen_assoc]; exact congrArg _ (funext ih)

/-- Inside a linear operation, before its last micro-operation, repeated `exec` performs the micro-program in order (R25). -/
theorem operate_segment {i : Instr} (hi : i ≠ .runResetSequence) (before seg : List MicroOp) (m : MicroOp) (after : List MicroOp) {s : State}
    (hp : microProgram s.params i = before ++ (seg ++ m :: after)) (hs : s.seq = .run i before.length) :
    operate i seg.length s = andThen (performAll seg s) fun t => .next (t.withSeq (.run i (before.length + seg.length))) := by
  induction seg generalizing before s with
  | nil => simp only [operate, performAll, andThen_next, List.length_nil, Nat.add_zero, ← hs, State.withSeq]
  | cons a seg ih =>
    have ha : (microProgram s.params i)[before.length]? = some a := by simp [hp]
    have hl : before.length + 1 ≠ (microProgram s.params i).length := by simp [hp]
    simp only [List.length_cons, operate, performAll, exec_running hs ha, follow_linear hi, andThen_assoc, andThen_next]
    cases hr : a.perform s with
    | fault e => rfl
    | refused e => rfl
    | next u =>
      have f := perform_frame hr
      have := ih (before ++ [a]) (s := u.withSeq (.run i (before.length + 1))) (by simp [State.withSeq, f.params, hp]) (by simp [State.withSeq])
      simp only [andThen_next, advance, hl, if_false]
      refine this.trans ?_
      rw [performAll_withSeq, andThen_assoc]
      congr 1; funext t; simp [State.withSeq, Nat.add_assoc, Nat.add_comm 1]

/-- The last micro-operation of a linear operation completes it with `OK` (R25, R35). -/
theorem operate_last {i : Instr} (hi : i ≠ .runResetSequence) (before : List MicroOp) (m : MicroOp) {s : State}
    (hp : microProgram s.params i = before ++ [m]) (hs : s.seq = .run i before.length) :
    operate i 1 s = andThen (m.perform s) fun t => .next (complete .OK (responseData i t) t) := by
  have hm : (microProgram s.params i)[before.length]? = some m := by simp [hp]
  simp only [operate, exec_running hs hm, follow_linear hi, andThen_assoc, andThen_next, advance, hp, List.length_append,
    List.length_singleton, if_true]

/-- A linear operation accepted by an idle SPE performs its whole micro-program and completes with `OK`. -/
theorem operate_whole {i : Instr} (hi : i ≠ .runResetSequence) (body : List MicroOp) (m : MicroOp) {n : Nat} (hn : body.length + 2 = n)
    {s : State} (hp : microProgram s.params i = body ++ [m]) (hs : s.seq = .idle) (ha : onAccept i s = accept i s) :
    operate i n s = andThen (performAll (body ++ [m]) s) fun t => .next (complete .OK (responseData i t) t) := by
  subst hn
  have hr : ∀ t q, complete .OK (responseData i (State.withSeq q t)) (t.withSeq q) = complete .OK (responseData i t) t := by
    intro t q; cases i <;> rfl
  have h1 : operate i 1 s = .next (accept i s) := by simp [operate, exec_idle hs, ha]
  have h2 := operate_segment hi [] body m [] (s := accept i s) (by simpa using hp) rfl
  rw [show body.length + 2 = 1 + (body.length + 1) by omega, operate_add, h1, andThen_next, operate_add, h2,
    show accept i s = s.withSeq (.run i 0) from rfl, performAll_withSeq, performAll_append, andThen_assoc, andThen_assoc, andThen_assoc]
  cases hb : performAll body s with
  | fault e => rfl
  | refused e => rfl
  | next t =>
    have hpar : ∀ ms (a b : State), performAll ms a = .next b → b.params = a.params := by
      intro ms
      induction ms with
      | nil => intro a b h; cases h; rfl
      | cons x xs ih =>
        intro a b h
        obtain ⟨c, hc, hb⟩ := andThen_eq_next.1 h
        rw [ih _ _ hb, (perform_frame hc).params]
    simp only [andThen_next, List.length_nil, Nat.zero_add, performAll, andThen_assoc]
    rw [show (t.withSeq (.run i 0)).withSeq (.run i body.length) = t.withSeq (.run i body.length) from rfl,
      operate_last hi body m (s := t.withSeq (.run i body.length)) (by simpa [State.withSeq, hpar _ _ _ hb] using hp) rfl, perform_withSeq,
      andThen_assoc]
    exact congrArg _ (funext fun u => congrArg _ (hr u _))

end Sys2Proof.Machine
end

