-- ==== Sys2Proof/Laws/Frames.lean ====
section
/-! SUPPORT. What a whole Byte Frame does: the write frame, the read frame, and the shift arithmetic they rest on (R70, R101, R105). -/

namespace Sys2Proof.Machine

/-! ## The shift arithmetic -/

/-- Eight shifts leave nothing of a byte (R70). -/
theorem shiftLeftOne_eight (v : Byte) :
    shiftLeftOne (shiftLeftOne (shiftLeftOne (shiftLeftOne (shiftLeftOne (shiftLeftOne (shiftLeftOne (shiftLeftOne v))))))) = 0x00#8 := by
  simp only [shiftLeftOne, ← BitVec.shiftLeft_add]
  exact BitVec.shiftLeft_eq_zero (by decide)

/-- The bit a write slot drives after `n` shifts is `v[7 - n]` (R101). -/
theorem topBit_shiftLeft (v : Byte) (n : Nat) (h : n ≤ 7) : topBit (v <<< n) = v.getLsbD (7 - n) := by
  simp only [topBit, BitVec.getLsbD_shiftLeft]
  rw [show decide (7 < n) = false by simp; omega]
  simp

/-! ## Slots -/

theorem perform_writeSlot {s : State} (h : s.sdaDir = .OUT) :
    performAll writeSlot s = .next { s with
      sckOut := true, sdaOut := topBit s.sr, sr := shiftLeftOne s.sr, trace := s.trace ++ writeSlotTrace (topBit s.sr) } := by
  simp [performAll, writeSlot, plain, MicroOp.perform, runPrim, drive, mayDrive, h, DriveLevel.value, RegWrite.apply, writeSlotTrace,
    State.setOut, State.emit, delayEdge]

theorem perform_readSlot {s : State} (h : s.sdaDir = .IN) :
    performAll readSlot s = .next { s with
      sckOut := true, sdaIn := s.device.sdaLevel, sr := insertLow (shiftLeftOne s.sr) s.device.sdaLevel, device := s.device.afterSda,
      trace := s.trace ++ readSlotTrace s.device.sdaLevel } := by
  simp [performAll, readSlot, plain, MicroOp.perform, runPrim, drive, mayDrive, sample, maySample, sampled, h, DriveLevel.value, RegWrite.apply,
    readSlotTrace, State.setOut, State.emit, delayEdge]

/-- `n` write slots after another, from a state whose data line is an output. -/
theorem perform_writeSlots (n : Nat) {s : State} (h : s.sdaDir = .OUT) :
    performAll (slots (n + 1) writeSlot) s = .next { s with
      sckOut := true, sdaOut := topBit (s.sr <<< n), sr := s.sr <<< (n + 1),
      trace := s.trace ++ (List.range (n + 1)).flatMap fun i => writeSlotTrace (topBit (s.sr <<< i)) } := by
  induction n generalizing s with
  | zero => simp [slots, perform_writeSlot h, shiftLeftOne]
  | succ n ih =>
    rw [slots, performAll_append, perform_writeSlot h, andThen_next, ih (by exact h), List.range_succ_eq_map (n := n + 1)]
    simp only [shiftLeftOne, ← BitVec.shiftLeft_add, Nat.add_comm 1, List.flatMap_cons, List.flatMap_map, List.append_assoc, BitVec.shiftLeft_zero]

/-- `n` read slots after another, from a state whose data line is an input. -/
theorem perform_readSlots (n : Nat) {s : State} (h : s.sdaDir = .IN) :
    performAll (slots (n + 1) readSlot) s = .next { s with
      sckOut := true, sdaIn := (afterSdaLevels n s.device).sdaLevel, device := afterSdaLevels (n + 1) s.device,
      sr := (sdaLevels (n + 1) s.device).foldl (fun v b => insertLow (shiftLeftOne v) b) s.sr,
      trace := s.trace ++ (sdaLevels (n + 1) s.device).flatMap readSlotTrace } := by
  induction n generalizing s with
  | zero => simp [slots, perform_readSlot h, afterSdaLevels, sdaLevels]
  | succ n ih =>
    rw [slots, performAll_append, perform_readSlot h, andThen_next, ih (by exact h)]
    simp [afterSdaLevels, sdaLevels]

/-! ## Frames -/

/-- The levels the slots of a write frame drive are the bits of the byte, bit 7 first (R63, R101). -/
theorem writeSlotTraces (v : Byte) :
    ((List.range 8).flatMap fun i => writeSlotTrace (topBit (v <<< i))) = (wireBits v).flatMap writeSlotTrace := by
  have h : ∀ n, n ≤ 7 → topBit (v <<< n) = v.getLsbD (7 - n) := fun n => topBit_shiftLeft v n
  simp only [wireBits, show List.range 8 = [0, 1, 2, 3, 4, 5, 6, 7] from rfl, List.flatMap_cons, List.flatMap_nil, h 0 (by decide), h 1 (by decide),
    h 2 (by decide), h 3 (by decide), h 4 (by decide), h 5 (by decide), h 6 (by decide), h 7 (by decide), Nat.sub_zero, Nat.reduceSub]

/-- The whole write frame in `SW` (R101). -/
theorem perform_writeByteProgram (v : Byte) (s : State) :
    performAll (writeByteProgram .SW v) s = .next { s with
      sr := 0x00#8, sdaDir := .OUT, sckOut := false, sdaOut := v.getLsbD 0, trace := s.trace ++ writeByteTrace v } := by
  rw [show writeByteProgram .SW v = [⟨[.loadSr v], .setdir .OUT, []⟩] ++ (slots 8 writeSlot ++ [plain (.drive .SCK (.const false))]) from rfl,
    performAll_append, show performAll [⟨[.loadSr v], .setdir .OUT, []⟩] s =
      .next { s with sr := v, sdaDir := .OUT, trace := s.trace ++ [.dir .OUT] } from rfl, andThen_next, performAll_append,
    perform_writeSlots 7 rfl, andThen_next, writeSlotTraces]
  simp [performAll, plain, MicroOp.perform, runPrim, drive, mayDrive, DriveLevel.value, State.setOut, State.emit, writeByteTrace,
    topBit_shiftLeft, BitVec.shiftLeft_eq_zero]

/-- The whole read frame in `SW` (R105), up to its result register. -/
theorem perform_readFrame (w : RegWrite) (s : State) :
    performAll (readFrame .SW w) s = .next (w.apply { s with
      sr := byteOfBits (sdaLevels 8 s.device), sdaDir := .IN, sckOut := false, sdaIn := (afterSdaLevels 7 s.device).sdaLevel,
      device := afterSdaLevels 8 s.device, trace := s.trace ++ readByteTrace (sdaLevels 8 s.device) }) := by
  rw [show readFrame .SW w = [⟨[.loadSr 0x00#8], .setdir .IN, []⟩] ++ (slots 8 readSlot ++ [⟨[], .drive .SCK (.const false), [w]⟩]) from rfl,
    performAll_append, show performAll [⟨[.loadSr 0x00#8], .setdir .IN, []⟩] s =
      .next { s with sr := 0x00#8, sdaDir := .IN, trace := s.trace ++ [.dir .IN] } from rfl, andThen_next, performAll_append,
    perform_readSlots 7 rfl, andThen_next]
  simp [performAll, MicroOp.perform, runPrim, drive, mayDrive, DriveLevel.value, State.setOut, State.emit, readByteTrace, byteOfBits]

/-- The bits of a byte in wire order, shifted in again, give the byte (R63, R70). -/
@[simp] theorem byteOfBits_wireBits : ∀ v : Byte, byteOfBits (wireBits v) = v := by decide

/-! ## Lengths, control lines, and stretches of samples -/

@[simp] theorem slots_length (n : Nat) (slot : List MicroOp) : (slots n slot).length = n * slot.length := by
  induction n with
  | zero => simp [slots]
  | succ n ih => simp [slots, ih, Nat.succ_mul, Nat.add_comm]

@[simp] theorem writeByteProgram_length_sw (v : Byte) : (writeByteProgram .SW v).length = 42 := by simp [writeByteProgram, writeSlot, Config.FRAME_BITS]

@[simp] theorem writeByteProgram_length_hw (v : Byte) : (writeByteProgram .HW v).length = 1 := by simp [writeByteProgram]

@[simp] theorem readFrame_length_sw (w : RegWrite) : (readFrame .SW w).length = 42 := by simp [readFrame, readSlot, Config.FRAME_BITS]

@[simp] theorem readChipIdProgram_length_sw (opcode : Byte) : (readChipIdProgram .SW opcode).length = 130 := by
  simp [readChipIdProgram]

@[simp] theorem resetProgram_length (p : Params) : (resetProgram p).length = 11 := by simp [resetProgram]

@[simp] theorem writeByteTrace_length (v : Byte) : (writeByteTrace v).length = 42 := by simp [writeByteTrace, wireBits, writeSlotTrace]

/-- A drive of a control line has no precondition (R53). -/
theorem perform_drive {l : OutLine} (hl : l ≠ .SDA) (b : Level) (s : State) :
    (plain (.drive l (.const b))).perform s = .next ((s.setOut l b).emit (.drive l b)) := by
  simp [plain, MicroOp.perform, runPrim, drive, mayDrive, hl, DriveLevel.value]

theorem perform_xfer (tx : List Byte) (s : State) : (plain (.xfer tx)).perform s = .next (xfer tx s) := rfl

/-- `sendCommand` and `sendData` are one transaction that differs in the mode only (R121, R123). -/
theorem oneByteTransaction_operation {i : Instr} {mode : Level} {v : Byte} (h : (i = .sendCommand v ∧ mode = false) ∨ (i = .sendData v ∧ mode = true)) :
    i ≠ .runResetSequence ∧ (∀ s, onAccept i s = accept i s) ∧ (∀ p, microProgram p i = oneByteTransaction p.variant mode v) ∧
      ∀ s, responseData i s = [] := by
  rcases h with ⟨rfl, rfl⟩ | ⟨rfl, rfl⟩ <;> simp [onAccept, microProgram, sendCommandProgram, sendDataProgram, responseData]

@[simp] theorem sdaLevels_length (n : Nat) (d : Device) : (sdaLevels n d).length = n := by induction n generalizing d <;> simp [sdaLevels, *]

theorem sdaLevels_add (a b : Nat) (d : Device) : sdaLevels (a + b) d = sdaLevels a d ++ sdaLevels b (afterSdaLevels a d) := by
  induction a generalizing d with
  | zero => simp [sdaLevels, afterSdaLevels]
  | succ a ih => rw [Nat.succ_add]; simp [sdaLevels, afterSdaLevels, ih]

theorem afterSdaLevels_add (a b : Nat) (d : Device) : afterSdaLevels (a + b) d = afterSdaLevels b (afterSdaLevels a d) := by
  induction a generalizing d with
  | zero => simp [afterSdaLevels]
  | succ a ih => rw [Nat.succ_add]; simp [afterSdaLevels, ih]

/-! ## Whole transactions -/

theorem performAll_cons (m : MicroOp) (ms : List MicroOp) (s : State) :
    performAll (m :: ms) s = andThen (m.perform s) (performAll ms) := by rw [performAll]

theorem performAll_drive {l : OutLine} (hl : l ≠ .SDA) (b : Level) (ms : List MicroOp) (s : State) :
    performAll (plain (.drive l (.const b)) :: ms) s = performAll ms ((s.setOut l b).emit (.drive l b)) := by
  rw [performAll_cons, perform_drive hl, andThen_next]

/-- A linear operation accepted by an idle SPE performs its whole micro-program and completes with `OK`. -/
theorem operate_linear {i : Instr} (hi : i ≠ .runResetSequence) {n : Nat} {s : State} (hn : (microProgram s.params i).length + 1 = n)
    (hp : microProgram s.params i ≠ []) (hs : s.seq = .idle) (ha : onAccept i s = accept i s) :
    operate i n s = andThen (performAll (microProgram s.params i) s) fun t => .next (complete .OK (responseData i t) t) := by
  have e := (List.dropLast_concat_getLast hp).symm
  have h := operate_whole hi _ _ (n := n) (by have := congrArg List.length e; simp at this ⊢; omega) e hs ha
  rwa [← e] at h

/-- The whole one-byte transaction in `SW` (R121, R123). -/
theorem perform_oneByteTransaction_sw (mode : Level) (v : Byte) (s : State) :
    performAll (oneByteTransaction .SW mode v) s = .next { s with
      csnOut := true, dcOut := mode, sr := 0x00#8, sdaDir := .OUT, sckOut := false, sdaOut := v.getLsbD 0,
      trace := s.trace ++ transactionTrace .SW mode v } := by
  rw [oneByteTransaction, performAll_drive (by simp), performAll_drive (by simp), performAll_append, perform_writeByteProgram, andThen_next,
    performAll_drive (by simp), performAll_nil]
  simp [State.setOut, State.emit, transactionTrace, frameTrace]

/-- The whole one-byte transaction in `HW` (R121, R123). -/
theorem perform_oneByteTransaction_hw (mode : Level) (v : Byte) (s : State) :
    performAll (oneByteTransaction .HW mode v) s = .next { s with
      csnOut := true, dcOut := mode, trace := s.trace ++ transactionTrace .HW mode v } := by
  rw [oneByteTransaction, performAll_drive (by simp), performAll_drive (by simp), performAll_append,
    show performAll (writeByteProgram .HW v) = fun s => .next (xfer [v] s) from rfl, andThen_next, performAll_drive (by simp), performAll_nil]
  simp [State.setOut, State.emit, transactionTrace, frameTrace, xfer]

/-- The whole chip-ID transaction (R126). -/
theorem perform_readChipIdProgram (opcode : Byte) (s : State) :
    performAll (readChipIdProgram .SW opcode) s = .next { s with
      csnOut := true, dcOut := true, sr := byteOfBits (sdaLevels 8 (afterSdaLevels 8 s.device)), rd0 := byteOfBits (sdaLevels 8 s.device),
      rd1 := byteOfBits (sdaLevels 8 (afterSdaLevels 8 s.device)), sdaDir := .IN, sckOut := false, sdaOut := opcode.getLsbD 0,
      sdaIn := (afterSdaLevels 15 s.device).sdaLevel, device := afterSdaLevels 16 s.device,
      trace := s.trace ++ chipIdTrace opcode (sdaLevels 8 s.device) (sdaLevels 8 (afterSdaLevels 8 s.device)) } := by
  rw [readChipIdProgram, performAll_drive (by simp), performAll_drive (by simp), performAll_append, perform_writeByteProgram, andThen_next,
    performAll_drive (by simp), performAll_append, perform_readFrame, andThen_next, performAll_append, perform_readFrame, andThen_next,
    performAll_drive (by simp), performAll_nil, afterSdaLevels_add 8 8, afterSdaLevels_add 8 7]
  simp [State.setOut, State.emit, chipIdTrace, RegWrite.apply]

/-! ## Durations (R221) -/

@[simp] theorem minDuration_nil (p : Params) : minDuration p [] = 0 := rfl

@[simp] theorem minDuration_cons (p : Params) (e : Event) (es : List Event) : minDuration p (e :: es) = eventDuration p e + minDuration p es := by
  simp [minDuration]

@[simp] theorem minDuration_append (p : Params) (es es' : List Event) : minDuration p (es ++ es') = minDuration p es + minDuration p es' := by
  simp [minDuration]

theorem minDuration_writeSlots (p : Params) (bits : List Level) : minDuration p (bits.flatMap writeSlotTrace) = bits.length * (2 * p.tEdge) := by
  induction bits with
  | nil => simp
  | cons b bits ih => simp [ih, writeSlotTrace, eventDuration, Nat.succ_mul]; omega

theorem minDuration_readSlots (p : Params) (bits : List Level) : minDuration p (bits.flatMap readSlotTrace) = bits.length * (2 * p.tEdge) := by
  induction bits with
  | nil => simp
  | cons b bits ih => simp [ih, readSlotTrace, eventDuration, Nat.succ_mul]; omega

@[simp] theorem minDuration_writeByteTrace (p : Params) (v : Byte) : minDuration p (writeByteTrace v) = 16 * p.tEdge := by
  rw [writeByteTrace, minDuration_cons, minDuration_append, minDuration_writeSlots]
  simp [wireBits, eventDuration]
  omega

@[simp] theorem minDuration_readByteTrace (p : Params) (bits : List Level) : minDuration p (readByteTrace bits) = bits.length * (2 * p.tEdge) := by
  simp [readByteTrace, minDuration_readSlots, eventDuration]

@[simp] theorem minDuration_pulseTrace (p : Params) : minDuration p (pulseTrace p) = 2 * (p.resetLowHold + p.resetHighHold) * p.tUnit := by
  simp only [pulseTrace, minDuration_cons, minDuration_nil, eventDuration]
  ring

@[simp] theorem minDuration_pollTrace (p : Params) (interval n : Nat) : minDuration p (pollTrace interval n) = n * interval * p.tUnit := by
  induction n with
  | zero => simp [pollTrace]
  | succ n ih => simp only [pollTrace, minDuration_cons, ih, eventDuration]; ring

end Sys2Proof.Machine
end

