-- ==== Sys2Proof/Laws/Invariant.lean ====
section
/-! SUPPORT. What the lines hold at each place of a micro-program, that every micro-program is safe on the wire, and everything a step of the machine
can do. -/

namespace Sys2Proof.Machine

/-! ## Tracks -/

/-- What a micro-program's place says of the lines: the levels of the clock, select and reset, and the direction of the data line where it is set. -/
structure Track where
  sck : Level
  csn : Level
  rstn : Level
  dir : Option Dir
deriving DecidableEq, Repr

def Track.after (τ : Track) (m : MicroOp) : Track where
  sck := levelAfter .SCK τ.sck [m]
  csn := levelAfter .CSN τ.csn [m]
  rstn := levelAfter .RSTN τ.rstn [m]
  dir := dirAfter τ.dir [m]

def Track.afterAll (τ : Track) (ms : List MicroOp) : Track := ms.foldl Track.after τ

def Track.rest : Track := ⟨false, true, true, none⟩

theorem levelAfter_cons (l : OutLine) (b : Level) (m : MicroOp) (ms : List MicroOp) :
    levelAfter l b (m :: ms) = levelAfter l (levelAfter l b [m]) ms := by
  simp only [levelAfter]
  split <;> simp_all

theorem dirAfter_cons (d : Option Dir) (m : MicroOp) (ms : List MicroOp) : dirAfter d (m :: ms) = dirAfter (dirAfter d [m]) ms := by
  simp only [dirAfter]
  split <;> simp_all

theorem levelAfter_append (l : OutLine) (b : Level) (ms ms' : List MicroOp) :
    levelAfter l b (ms ++ ms') = levelAfter l (levelAfter l b ms) ms' := by
  induction ms generalizing b with
  | nil => rfl
  | cons m ms ih => rw [List.cons_append, levelAfter_cons, ih, levelAfter_cons l b m ms]

theorem dirAfter_append (d : Option Dir) (ms ms' : List MicroOp) : dirAfter d (ms ++ ms') = dirAfter (dirAfter d ms) ms' := by
  induction ms generalizing d with
  | nil => rfl
  | cons m ms ih => rw [List.cons_append, dirAfter_cons, ih, dirAfter_cons d m ms]

theorem afterAll_eq (τ : Track) (ms : List MicroOp) :
    τ.afterAll ms = ⟨levelAfter .SCK τ.sck ms, levelAfter .CSN τ.csn ms, levelAfter .RSTN τ.rstn ms, dirAfter τ.dir ms⟩ := by
  induction ms generalizing τ with
  | nil => rfl
  | cons m ms ih =>
    rw [show τ.afterAll (m :: ms) = (τ.after m).afterAll ms from rfl, ih, levelAfter_cons .SCK τ.sck, levelAfter_cons .CSN τ.csn,
      levelAfter_cons .RSTN τ.rstn, dirAfter_cons τ.dir]
    rfl

/-- The state's lines are as the place says. -/
structure Tracks (τ : Track) (s : State) : Prop where
  sck : s.sckOut = τ.sck
  csn : s.csnOut = τ.csn
  rstn : s.rstnOut = τ.rstn
  dir : ∀ d, τ.dir = some d → s.sdaDir = d

/-- What a micro-operation needs of its place: the rules of the wire (see `lawfulEvent`), the preconditions of the primitives, and that only `SDA` is driven
from the shift register. -/
def safeOp (v : Variant) (τ : Track) (m : MicroOp) : Bool :=
  match m.prim with
  | .setdir _ => decide (v = .SW) && !τ.sck
  | .drive .SCK (.const _) => decide (v = .SW) && τ.rstn
  | .drive .SDA _ => decide (v = .SW) && !τ.sck && decide (τ.dir = some .OUT)
  | .drive .CSN (.const _) => !τ.sck && τ.rstn
  | .drive .DC (.const _) => !τ.sck && !τ.csn
  | .drive .RSTN (.const _) => !τ.sck && τ.csn
  | .drive _ .srMsb => false
  | .sample .SDA => decide (v = .SW) && τ.sck && decide (τ.dir = some .IN)
  | .sample .BUSY => !τ.sck && τ.csn && τ.rstn
  | .delayEdge => decide (v = .SW)
  | .sleep _ => !τ.sck && τ.csn
  | .xfer _ => decide (v = .HW)

def safeAll (v : Variant) : Track → List MicroOp → Bool
  | _, [] => true
  | τ, m :: ms => safeOp v τ m && safeAll v (τ.after m) ms

theorem safeAll_get {v : Variant} {τ : Track} {ms : List MicroOp} (h : safeAll v τ ms = true) {k : Nat} {m : MicroOp} (hm : ms[k]? = some m) :
    safeOp v (τ.afterAll (ms.take k)) m = true := by
  induction ms generalizing τ k with
  | nil => simp at hm
  | cons a ms ih =>
    simp only [safeAll, Bool.and_eq_true] at h
    cases k with
    | zero => simp at hm; subst hm; exact h.1
    | succ k => exact ih h.2 (by simpa using hm)

theorem tracks_writes {τ : Track} {s : State} (ws : List RegWrite) (h : Tracks τ s) : Tracks τ (applyWrites ws s) := by
  have f := applyWrites_frame ws s
  exact ⟨f.sckOut.trans h.sck, f.csnOut.trans h.csn, f.rstnOut.trans h.rstn, fun d hd => f.sdaDir.trans (h.dir d hd)⟩

theorem runPrim_tracks {τ : Track} {s : State} {m : MicroOp} (h : Tracks τ s) (hs : safeOp s.params.variant τ m = true) :
    ∃ t e, runPrim m.prim s = .next t ∧ t.trace = s.trace ++ [e] ∧ lawfulEvent s e ∧ Tracks (τ.after m) t ∧
      (s.params.variant = .HW → t.sdaDir = s.sdaDir) := by
  obtain ⟨h1, h2, h3, h4⟩ := h
  obtain ⟨before, p, after⟩ := m
  unfold safeOp at hs
  simp only [Track.after]
  cases p with
  | setdir d => 
    simp at hs
    exact ⟨_, _, rfl, rfl, by simp [lawfulEvent, hs, h1], ⟨h1, h2, h3, by simp [dirAfter, setdir]⟩, by simp [hs]⟩
  | drive l b =>
    cases b with
    | const b =>
      simp only [runPrim]
      cases l <;> simp at hs
      case SCK =>
        exact ⟨_, _, drive_next.2 ⟨rfl, rfl⟩, rfl, ⟨hs.1, h3.trans hs.2⟩, ⟨rfl, h2, h3, h4⟩, fun _ => rfl⟩
      case SDA =>
        exact ⟨_, _, drive_next.2 ⟨(mayDrive_sda s).2 (h4 _ hs.2), rfl⟩, rfl, ⟨hs.1.1, h1.trans hs.1.2, h4 _ hs.2⟩, ⟨h1, h2, h3, h4⟩,
          fun _ => rfl⟩
      case CSN => exact ⟨_, _, drive_next.2 ⟨rfl, rfl⟩, rfl, ⟨h1.trans hs.1, h3.trans hs.2⟩, ⟨h1, rfl, h3, h4⟩, fun _ => rfl⟩
      case DC => exact ⟨_, _, drive_next.2 ⟨rfl, rfl⟩, rfl, ⟨h1.trans hs.1, h2.trans hs.2⟩, ⟨h1, h2, h3, h4⟩, fun _ => rfl⟩
      case RSTN => exact ⟨_, _, drive_next.2 ⟨rfl, rfl⟩, rfl, ⟨h1.trans hs.1, h2.trans hs.2⟩, ⟨h1, h2, rfl, h4⟩, fun _ => rfl⟩
    | srMsb =>
      cases l <;> simp at hs
      simp only [runPrim]
      refine ⟨_, _, drive_next.2 ⟨(mayDrive_sda s).2 (h4 _ hs.2), rfl⟩, rfl, ?_, ?_, ?_⟩
      · exact ⟨hs.1.1, h1.trans hs.1.2, h4 _ hs.2⟩
      · exact ⟨h1, h2, h3, h4⟩
      · simp
  | sample l =>
    cases l <;> simp at hs
    · refine ⟨_, _, sample_next.2 ⟨(maySample_sda s).2 (h4 _ hs.2), rfl⟩, rfl, ?_, ⟨h1, h2, h3, h4⟩, fun _ => rfl⟩
      exact ⟨hs.1.1, h1.trans hs.1.2, h4 _ hs.2⟩
    · exact ⟨_, _, sample_next.2 ⟨rfl, rfl⟩, rfl, by simp [lawfulEvent, h1, h2, h3, hs], ⟨h1, h2, h3, h4⟩, fun _ => rfl⟩
  | delayEdge => simp at hs; exact ⟨_, _, rfl, rfl, hs, ⟨h1, h2, h3, h4⟩, fun _ => rfl⟩
  | sleep n => simp at hs; exact ⟨_, _, rfl, rfl, by simp [lawfulEvent, h1, h2, hs], ⟨h1, h2, h3, h4⟩, fun _ => rfl⟩
  | xfer tx => simp at hs; exact ⟨_, _, rfl, rfl, hs, ⟨h1, h2, h3, h4⟩, fun _ => rfl⟩

set_option maxRecDepth 10000 in
theorem linear_safe (p : Params) (i : Instr) (hi : i ≠ .runResetSequence) :
    safeAll p.variant .rest (microProgram p i) = true ∧
      (∀ τ, Track.afterAll .rest (microProgram p i) = τ → τ.sck = false ∧ τ.csn = true ∧ τ.rstn = true) := by
  obtain ⟨v, a, b, c, d, e, f, g, h, j⟩ := p
  cases i <;> cases v <;> first | exact absurd rfl hi | exact ⟨rfl, by rintro τ rfl; exact ⟨rfl, rfl, rfl⟩⟩

theorem reset_safe (p : Params) :
    safeAll p.variant .rest (microProgram p .runResetSequence) = true ∧
      Track.afterAll .rest (microProgram p .runResetSequence) = .rest := ⟨rfl, rfl⟩

/-- Whether a micro-operation sets `RSTATE`. -/
def setsRState (m : MicroOp) : Bool :=
  (m.before ++ m.after).any fun w =>
    match w with
    | .setRState _ => true
    | _ => false

theorem linear_rstate (p : Params) (i : Instr) (hi : i ≠ .runResetSequence) : (microProgram p i).all (fun m => !setsRState m) = true := by
  obtain ⟨v, a, b, c, d, e, f, g, h, j⟩ := p
  cases i <;> cases v <;> first | exact absurd rfl hi | rfl

theorem perform_tracks {τ : Track} {s : State} {m : MicroOp} (h : Tracks τ s) (hs : safeOp s.params.variant τ m = true) :
    ∃ t e, m.perform s = .next t ∧ t.trace = s.trace ++ [e] ∧ lawfulEvent s e ∧ Tracks (τ.after m) t ∧
      (s.params.variant = .HW → t.sdaDir = s.sdaDir) := by
  have f := applyWrites_frame m.before s
  obtain ⟨t, e, h1, h2, h3, h4, h5⟩ := runPrim_tracks (s := applyWrites m.before s) (tracks_writes m.before h) (by rw [f.params]; exact hs)
  have g := applyWrites_frame m.after t
  refine ⟨applyWrites m.after t, e, by rw [MicroOp.perform, h1]; rfl, by rw [g.trace, h2, f.trace], ?_, tracks_writes _ h4, fun hv => ?_⟩
  · have : ∀ s' : State, s'.params = s.params → s'.sckOut = s.sckOut → s'.csnOut = s.csnOut → s'.rstnOut = s.rstnOut → s'.sdaDir = s.sdaDir →
        lawfulEvent s' e → lawfulEvent s e := by
      intro s' a1 a2 a3 a4 a5 hl
      unfold lawfulEvent at *
      rw [a1, a2, a3, a4, a5] at hl
      exact hl
    exact this _ f.params f.sckOut f.csnOut f.rstnOut f.sdaDir h3
  · rw [g.sdaDir, h5 (by rw [f.params]; exact hv), f.sdaDir]

/-- What the invariant says of a running operation, in terms of tracks. -/
theorem linesLawful_run {s : State} {i : Instr} {k : Nat} (hs : s.seq = .run i k) :
    linesLawful s ↔ k < (microProgram s.params i).length ∧ Tracks (Track.afterAll .rest ((microProgram s.params i).take k)) s ∧
      (if i = .runResetSequence then rstateAt k s.rstate = true else restingRState s.rstate = true) := by
  simp only [linesLawful, hs, afterAll_eq]
  exact ⟨fun ⟨a, b, c, d, e, f⟩ => ⟨a, ⟨b, c, d, e⟩, f⟩, fun ⟨a, ⟨b, c, d, e⟩, f⟩ => ⟨a, b, c, d, e, f⟩⟩

theorem afterAll_take_succ {τ : Track} {ms : List MicroOp} {k : Nat} {m : MicroOp} (hm : ms[k]? = some m) :
    τ.afterAll (ms.take (k + 1)) = (τ.afterAll (ms.take k)).after m := by
  obtain ⟨hk, rfl⟩ := List.getElem?_eq_some_iff.1 hm
  rw [List.take_succ_eq_append_getElem hk, Track.afterAll, List.foldl_append]
  rfl

/-- A running operation in a state that meets the invariant performs its micro-operation, and the event is lawful. -/
theorem running_performs {s : State} (h : Inv s) {i : Instr} {k : Nat} (hs : s.seq = .run i k) :
    ∃ m t e, (microProgram s.params i)[k]? = some m ∧ m.perform s = .next t ∧ t.trace = s.trace ++ [e] ∧ lawfulEvent s e ∧
      Tracks (Track.afterAll .rest ((microProgram s.params i).take (k + 1))) t ∧ (s.params.variant = .HW → t.sdaDir = s.sdaDir) := by
  obtain ⟨hk, ht, -⟩ := (linesLawful_run hs).1 h.lines
  have hm := List.getElem?_eq_getElem hk
  have hsafe : safeAll s.params.variant .rest (microProgram s.params i) = true := by
    by_cases hi : i = .runResetSequence
    · subst hi; exact (reset_safe _).1
    · exact (linear_safe _ _ hi).1
  obtain ⟨t, e, h1, h2, h3, h4, h5⟩ := perform_tracks ht (safeAll_get hsafe hm)
  exact ⟨_, t, e, hm, h1, h2, h3, by rw [afterAll_take_succ hm]; exact h4, h5⟩

theorem exec_runs {s : State} (h : Inv s) {i : Instr} {k : Nat} (hs : s.seq = .run i k) : ∃ t, exec i s = .next t := by
  obtain ⟨m, t, e, hm, hp, -⟩ := running_performs h hs
  exact ⟨_, by rw [exec_running hs hm, hp]; rfl⟩

theorem follow_trace (p : Params) (i : Instr) (k : Nat) (s : State) : (follow p i k s).trace = s.trace := by
  by_cases hi : i = .runResetSequence
  · subst hi
    simp only [follow, resetFollow, pollDecision, notReady, timeout, advance]
    split <;> (try split) <;> (try split) <;> (try split) <;> rfl
  · rw [follow_linear hi, advance]; split <;> rfl

theorem step_fetch (s : State) : ∃ h, (fetch s.clearRsp).2 = { s with rsp := none, host := h } := by
  unfold fetch
  split
  · exact ⟨s.host, rfl⟩
  · split
    · exact ⟨_, rfl⟩
    · exact ⟨s.host, rfl⟩
  all_goals exact ⟨_, rfl⟩

theorem Inv.congr {s t : State} (h : Inv s) (a : t.params = s.params) (b : t.seq = s.seq) (c : t.sckOut = s.sckOut) (d : t.csnOut = s.csnOut)
    (e : t.rstnOut = s.rstnOut) (f : t.sdaDir = s.sdaDir) (g : t.rstate = s.rstate) (i : t.pollcnt = s.pollcnt) : Inv t := by
  obtain ⟨h1, h2, h3, h4⟩ := h
  refine ⟨by rw [a]; exact h1, ?_, by rw [a, f]; exact h3, ?_⟩
  · unfold linesLawful at *; rw [a, b, c, d, e, f, g]; exact h2
  · unfold pollcntLawful at *; rw [a, b, i]; exact h4

theorem react_cases {s t : State} {a : Action} (h : react a s = .next t) :
    (a = .reset ∧ t = engineReset s) ∨ (∃ w r, s.seq = .idle ∧ a = .offer w ∧ decode w = .reserved r ∧ t = refuse .IllegalOperation s) ∨
    (∃ w i, s.seq = .idle ∧ a = .offer w ∧ decode w = .op i ∧ t = onAccept i s) ∨ (s.seq = .idle ∧ t = s ∧ a = .quiet) ∨
    (∃ i k, s.seq = .run i k ∧ exec i s = .next t ∧ a ≠ .reset) := by
  have pr : a ≠ .reset → proceed s = .next t → (s.seq = .idle ∧ t = s) ∨ (∃ i k, s.seq = .run i k ∧ exec i s = .next t ∧ a ≠ .reset) := by
    intro ha h
    unfold proceed at h
    split at h
    · next hs => exact .inl ⟨hs, by simpa [eq_comm] using h⟩
    · next hs => exact .inr ⟨_, _, hs, h, ha⟩
  unfold react at h
  split at h
  · exact .inl ⟨rfl, by simpa [eq_comm] using h⟩
  · split at h
    · next w hs =>
      unfold acceptWord at h
      split at h
      · next i hd => exact .inr (.inr (.inl ⟨w, i, hs, rfl, hd, by simpa [exec_idle hs, eq_comm] using h⟩))
      · next r hd => exact .inr (.inl ⟨w, r, hs, rfl, hd, by simpa [eq_comm] using h⟩)
    · next hs =>
      obtain ⟨h1, h2⟩ | h1 := pr (by simp) h
      · exact absurd h1 hs
      · exact .inr (.inr (.inr (.inr h1)))
  · obtain ⟨h1, h2⟩ | h1 := pr (by simp) h
    · exact .inr (.inr (.inr (.inl ⟨h1, h2, rfl⟩)))
    · exact .inr (.inr (.inr (.inr h1)))

theorem step_next {s t : State} (h : step s = .next t) :
    ∃ hh u, react (fetch s.clearRsp).1 { s with rsp := none, host := hh } = .next u ∧ t = observeDevice u := by
  obtain ⟨hh, e⟩ := step_fetch s
  rw [step, stepOnce, e] at h
  obtain ⟨u, hu, ht⟩ := andThen_eq_next.1 h
  exact ⟨hh, u, hu, by simpa [eq_comm] using ht⟩

theorem onAccept_trace (i s) : (onAccept i s).trace = s.trace := by
  cases i <;> simp only [onAccept, acceptRead] <;> (try split) <;> rfl

theorem Tracks.congr {τ : Track} {s t : State} (h : Tracks τ s) (c : t.sckOut = s.sckOut) (d : t.csnOut = s.csnOut)
    (e : t.rstnOut = s.rstnOut) (f : t.sdaDir = s.sdaDir) : Tracks τ t :=
  ⟨c.trans h.sck, d.trans h.csn, e.trans h.rstn, fun x hx => f.trans (h.dir x hx)⟩

theorem follow_lines (p : Params) (i : Instr) (k : Nat) (s : State) :
    (follow p i k s).sckOut = s.sckOut ∧ (follow p i k s).csnOut = s.csnOut ∧ (follow p i k s).rstnOut = s.rstnOut ∧
      (follow p i k s).sdaDir = s.sdaDir ∧ (follow p i k s).params = s.params := by
  by_cases hi : i = .runResetSequence
  · subst hi
    simp only [follow, resetFollow, pollDecision, notReady, timeout, advance]
    split <;> (try split) <;> (try split) <;> (try split) <;> exact ⟨rfl, rfl, rfl, rfl, rfl⟩
  · rw [follow_linear hi, advance]; split <;> exact ⟨rfl, rfl, rfl, rfl, rfl⟩

theorem perform_rstate {m : MicroOp} {s t : State} (h : m.perform s = .next t) (hm : setsRState m = false) : t.rstate = s.rstate := by
  obtain ⟨u, hu, rfl⟩ := perform_next h
  have hw : ∀ w ∈ m.before ++ m.after, ∀ r, w ≠ .setRState r := by
    rintro w hw r rfl
    simp only [setsRState, List.any_eq_false] at hm
    exact hm _ hw rfl
  have e : u.rstate = (applyWrites m.before s).rstate := by
    obtain ⟨d, -, rfl⟩ | ⟨l, b, -, -, rfl⟩ | ⟨l, -, -, rfl⟩ | ⟨-, rfl⟩ | ⟨n, -, rfl⟩ | ⟨tx, -, rfl⟩ := runPrim_next hu
    case inr.inr.inl => cases l <;> rfl
    case inr.inl => cases l <;> rfl
    all_goals rfl
  rw [applyWrites_rstate (fun w h => hw w (by simp [h])), e, applyWrites_rstate (fun w h => hw w (by simp [h]))]

/-- Acceptance, or refusal, keeps the invariant. -/
theorem onAccept_inv (s : State) (h : Inv s) (hs : s.seq = .idle) (i : Instr) : Inv (onAccept i s) := by
  obtain ⟨h1, h2, h3, h4⟩ := h
  simp only [linesLawful, hs] at h2
  obtain ⟨a, b, c, d⟩ := h2
  have tr : Tracks .rest s := ⟨a, b, c, by simp [Track.rest]⟩
  have pl : ∀ s' : State, s'.params = s.params → s'.pollcnt = s.pollcnt → i ≠ .runResetSequence → s'.seq = .run i 0 ∨ s'.seq = .idle → pollcntLawful s' := by
    intro s' e1 e2 hi e3
    unfold pollcntLawful at *
    rw [e1, e2]
    split <;> simp_all
    rcases e3 with e3 | e3 <;> simp_all
  have acc : i ≠ .runResetSequence → 0 < (microProgram s.params i).length → Inv (accept i s) := by
    intro hi hl
    refine ⟨h1, (linesLawful_run (i := i) (k := 0) rfl).2 ⟨hl, show Tracks .rest (accept i s) from tr.congr rfl rfl rfl rfl, by rw [if_neg hi]; exact d⟩, h3, pl _ rfl rfl hi (.inl rfl)⟩
  have len : ∀ j v, 0 < (writeByteProgram j v).length := by intro j v; cases j <;> simp [writeByteProgram]
  cases i with
  | writeByte v => exact acc (by simp) (len _ _)
  | sendCommand v => exact acc (by simp) (by simp [microProgram, sendCommandProgram, oneByteTransaction])
  | sendData v => exact acc (by simp) (by simp [microProgram, sendDataProgram, oneByteTransaction])
  | readByte =>
    simp only [onAccept, acceptRead]
    split
    · next hv => exact acc (by simp) (by simp [microProgram, readByteProgram, readFrame, hv])
    · exact Inv.congr ⟨h1, by simp only [linesLawful, hs]; exact ⟨a, b, c, d⟩, h3, h4⟩ rfl rfl rfl rfl rfl rfl rfl rfl
  | readChipId =>
    simp only [onAccept, acceptRead]
    split
    · next hv => exact acc (by simp) (by simp [microProgram, readChipIdProgram, hv])
    · exact Inv.congr ⟨h1, by simp only [linesLawful, hs]; exact ⟨a, b, c, d⟩, h3, h4⟩ rfl rfl rfl rfl rfl rfl rfl rfl
  | runResetSequence =>
    refine ⟨h1, (linesLawful_run (i := .runResetSequence) (k := 0) rfl).2 ⟨by simp [microProgram, resetProgram], ⟨a, b, c, by simp [Track.rest, Track.afterAll]⟩, rfl⟩, h3, ?_⟩
    unfold pollcntLawful at *
    simp only [onAccept, acceptReset, accept]
    simp [Params.wellFormed] at h1
    cases hb : s.params.busyPollLimit <;> cases hc : s.pollcnt <;> simp_all
    omega

/-! ## The step, by what stands on the port -/

/-- A word offered to an idle SPE is taken, whichever way the host holds it (R36, R193). -/
theorem step_offered {s : State} {w : Word} {rest : List HostMove} (hs : s.seq = .idle)
    (hh : s.host = .present w :: rest ∨ s.host = .strobe w :: rest) :
    step s = andThen (acceptWord w { s with rsp := none, host := rest }) fun t => .next (observeDevice t) := by
  rcases hh with hh | hh <;> simp [step, stepOnce, fetch, hh, hs, react, State.clearRsp]

/-- Short of engine reset, a busy SPE goes on whatever the host does (R36, R200). -/
theorem step_busy {s : State} {i : Instr} {k : Nat} (hs : s.seq = .run i k) (hh : s.host.head? ≠ some .ereset) :
    ∃ h, step s = andThen (exec i { s with rsp := none, host := h }) fun t => .next (observeDevice t) := by
  cases hc : s.host with
  | nil => exact ⟨[], by simp [step, stepOnce, fetch, hc, react, proceed, hs, State.clearRsp]⟩
  | cons m rest =>
    cases m with
    | present w => exact ⟨_, by simp [step, stepOnce, fetch, hc, react, proceed, hs, State.clearRsp]; rfl⟩
    | strobe w => exact ⟨_, by simp [step, stepOnce, fetch, hc, react, proceed, hs, State.clearRsp]; rfl⟩
    | wait => exact ⟨_, by simp [step, stepOnce, fetch, hc, react, proceed, hs, State.clearRsp]; rfl⟩
    | ereset => simp [hc] at hh

end Sys2Proof.Machine
end

