-- ==== Sys2Proof/Laws/PerInstr.lean ====
section
/-! SUPPORT. What holds of every operation as syntax, one lemma per constructor: the encoded word selects the operation's own row of the opcode
map (R88), and its operand stands in `ARG` as it is (R86). -/

/-- The word of an operation, masked, is its row's `match`, and what the mask leaves out is the operand. -/
def Sys2Proof.Laws.OpcodeRow.Statement (i : Sys2Proof.Instr) : Prop :=
  Sys2Proof.encode i &&& Sys2Proof.rowMask i = Sys2Proof.rowMatch i ∧
    Sys2Proof.encode i &&& ~~~ Sys2Proof.rowMask i = (Sys2Proof.arg i).setWidth 16

theorem Sys2Proof.Laws.OpcodeRow.writeByte (v : Sys2Proof.Byte) : Sys2Proof.Laws.OpcodeRow.Statement (.writeByte v) := by
  revert v; unfold Sys2Proof.Laws.OpcodeRow.Statement; decide

theorem Sys2Proof.Laws.OpcodeRow.readByte : Sys2Proof.Laws.OpcodeRow.Statement .readByte := by
  unfold Sys2Proof.Laws.OpcodeRow.Statement; decide

theorem Sys2Proof.Laws.OpcodeRow.sendCommand (c : Sys2Proof.Byte) : Sys2Proof.Laws.OpcodeRow.Statement (.sendCommand c) := by
  revert c; unfold Sys2Proof.Laws.OpcodeRow.Statement; decide

theorem Sys2Proof.Laws.OpcodeRow.sendData (v : Sys2Proof.Byte) : Sys2Proof.Laws.OpcodeRow.Statement (.sendData v) := by
  revert v; unfold Sys2Proof.Laws.OpcodeRow.Statement; decide

theorem Sys2Proof.Laws.OpcodeRow.readChipId : Sys2Proof.Laws.OpcodeRow.Statement .readChipId := by
  unfold Sys2Proof.Laws.OpcodeRow.Statement; decide

theorem Sys2Proof.Laws.OpcodeRow.runResetSequence : Sys2Proof.Laws.OpcodeRow.Statement .runResetSequence := by
  unfold Sys2Proof.Laws.OpcodeRow.Statement; decide
end

