-- ==== Sys2Proof/Tests/Slice0.lean ====
section
/-! SUPPORT. The model's own tests. Expected values come from the spec: the opcode map (`30_encoding.md` section 4), the worked examples of the
operation rules (`40_link_engine.md`, `41_transaction_framer.md`, `42_reset_sync.md`) and `95_test_vectors.md` section 3. Then, for every obligation with
hypotheses, one theorem `test_hypotheses_…` with concrete states and operands that meet them, clause by clause. -/

namespace Sys2Proof.Tests

open Sys2Proof Sys2Proof.Machine

/-! ## Well-formedness -/

/-- `HW` has no read (R161). -/
theorem test_wellFormed_refuses_readByte_in_hw : Instr.wellFormed .HW .readByte = false := by decide

theorem test_wellFormed_refuses_readChipId_in_hw : Instr.wellFormed .HW .readChipId = false := by decide

theorem test_wellFormed_accepts : Instr.wellFormed .SW .readChipId = true ∧ Instr.wellFormed .HW (.sendData 0xFF) = true := by decide

/-- One ill-formed set of parameters for each check (R8, R59). -/
theorem test_wellFormed_refuses_zero_low_hold : Params.wellFormed { Config.default with resetLowHold := 0 } = false := by decide

theorem test_wellFormed_refuses_zero_high_hold : Params.wellFormed { Config.default with resetHighHold := 0 } = false := by decide

theorem test_wellFormed_refuses_zero_interval : Params.wellFormed { Config.default with busyPollInterval := 0 } = false := by decide

theorem test_wellFormed_refuses_zero_settle : Params.wellFormed { Config.default with readySettle := 0 } = false := by decide

theorem test_wellFormed_refuses_zero_limit : Params.wellFormed { Config.default with busyPollLimit := some 0 } = false := by decide

theorem test_wellFormed_refuses_zero_edge : Params.wellFormed { Config.default with tEdge := 0 } = false := by decide

theorem test_wellFormed_refuses_zero_unit : Params.wellFormed { Config.default with tUnit := 0 } = false := by decide

theorem test_wellFormed_accepts_limit_one : Params.wellFormed { Config.default with busyPollLimit := some 1 } = true := by decide

/-! ## Decoding, from words written out bit by bit (R85, R88) -/

theorem test_decode_writeByte : decode 0b0000000110100101 = .op (.writeByte 0b10100101) := by decide

theorem test_decode_readByte : decode 0b0000001000000000 = .op .readByte := by decide

theorem test_decode_sendCommand : decode 0b0000001101110000 = .op (.sendCommand 0b01110000) := by decide

theorem test_decode_sendData : decode 0b0000010000000001 = .op (.sendData 0b00000001) := by decide

theorem test_decode_readChipId : decode 0b0000010100000000 = .op .readChipId := by decide

theorem test_decode_runResetSequence : decode 0b0000011000000000 = .op .runResetSequence := by decide

/-- Reserved words are refused by name (R89). -/
theorem test_decode_reserved :
    decode 0b0001000100000000 = .reserved .zField ∧ decode 0b0000011100000000 = .reserved .opField ∧
      decode 0b0000001000000001 = .reserved .argField := by decide

theorem test_encode :
    encode (.writeByte 0xA5) = 0b0000000110100101 ∧ encode .readByte = 0b0000001000000000 ∧
      encode (.sendCommand 0x70) = 0b0000001101110000 ∧ encode (.sendData 0x01) = 0b0000010000000001 ∧
      encode .readChipId = 0b0000010100000000 ∧ encode .runResetSequence = 0b0000011000000000 := by decide

/-- A table word with bits above the sixteen is no command word. -/
theorem test_decodeTableWord :
    decodeTableWord 16 0x01A5 = some (.writeByte 0xA5) ∧ decodeTableWord 16 0x0201 = none ∧ decodeTableWord 24 0x100200 = none := by decide

/-! ## States -/

/-- The `SW` SPE after reset. -/
abbrev sw : State := State.reset

/-- The `HW` SPE after reset. -/
def hw : State := State.resetWith { Config.default with variant := .HW } false false

/-- The `SW` SPE after reset with a poll limit. -/
def limited (n : Nat) : State := State.resetWith { Config.default with busyPollLimit := some n } false false

/-- A state with an operation at a micro-operation. -/
def running (i : Instr) (k : Nat) (s : State) : State := { s with seq := .run i k }

/-- A state with moves of the host. -/
def asked (moves : List HostMove) (s : State) : State := { s with host := moves }

/-- A state with the levels the next samples of `SDA` return. -/
def answering (bits : List Level) (s : State) : State := { s with device := { s.device with sda := bits } }

/-- A state with the levels the next samples of `BUSY` return. -/
def showing (bits : List Level) (s : State) : State := { s with device := { s.device with busy := bits } }

/-! ## One step of each operation -/

/-- R101, example: `SR` after the first slot of `writeByte(0xA5)` is 0x4A. -/
theorem test_writeByte_shift :
    (nextState (exec (.writeByte 0xA5) (running (.writeByte 0xA5) 5 { sw with sr := 0xA5, sdaDir := .OUT }))).map
      (fun t => (t.sr, t.seq, t.trace)) = some (0x4A, .run (.writeByte 0xA5) 6, [.delayEdge]) := by decide

/-- R103, example: `writeByte(0x3C)` in `HW`. -/
theorem test_writeByte_hw :
    (nextState (exec (.writeByte 0x3C) (running (.writeByte 0x3C) 0 hw))).map (fun t => (t.trace, t.seq, t.rsp)) =
      some ([.xfer [0x3C]], .idle, some ⟨.OK, []⟩) := by decide

/-- R105, example: after 0x09 the sample 0 of the last slot makes 0x12. -/
theorem test_readByte_sample :
    (nextState (exec .readByte (running .readByte 39 (answering [false] { sw with sr := 0x09, sckOut := true })))).map
      (fun t => (t.sr, t.sdaIn, t.trace)) = some (0x12, false, [.sample .SDA false]) := by decide

/-- R107, example. -/
theorem test_readByte_hw :
    (nextState (exec .readByte hw)).map (fun t => (t.trace, t.seq, t.rsp)) = some ([], .idle, some ⟨.UnsupportedOperation, []⟩) := by decide

/-- R121: the mode of a command is 0. -/
theorem test_sendCommand_mode :
    (nextState (exec (.sendCommand 0x70) (running (.sendCommand 0x70) 1 { sw with dcOut := true, csnOut := false }))).map
      (fun t => (t.dcOut, t.csnOut, t.trace)) = some (false, false, [.drive .DC false]) := by decide

/-- R121: select is released last. -/
theorem test_sendCommand_ends :
    (nextState (exec (.sendCommand 0x70) (running (.sendCommand 0x70) 44 { sw with csnOut := false }))).map
      (fun t => (t.csnOut, t.seq, t.rsp)) = some (true, .idle, some ⟨.OK, []⟩) := by decide

/-- R123: the mode of data is 1. -/
theorem test_sendData_mode :
    (nextState (exec (.sendData 0xFF) (running (.sendData 0xFF) 1 { hw with csnOut := false }))).map (fun t => (t.dcOut, t.trace)) =
      some (true, [.drive .DC true]) := by decide

set_option maxRecDepth 4000 in
/-- R126: the second byte goes to `RD1`. -/
theorem test_readChipId_second_byte :
    (nextState (exec .readChipId (running .readChipId 128 { sw with sr := 0x34, rd0 := 0x12, sckOut := true }))).map
      (fun t => (t.rd0, t.rd1, t.sckOut)) = some (0x12, 0x34, false) := rfl

set_option maxRecDepth 4000 in
/-- R126, R193: the response and the port. -/
theorem test_readChipId_ends :
    (nextState (exec .readChipId (running .readChipId 129 { sw with rd0 := 0x12, rd1 := 0x34, csnOut := false }))).map
      (fun t => (t.rsp, t.rspData, t.csnOut)) = some (some ⟨.OK, [0x12, 0x34]⟩, 0x3412, true) := rfl

/-- R146, R149: ready at the sample. -/
theorem test_runResetSequence_ready :
    (nextState (exec .runResetSequence (running .runResetSequence 8 (showing [true] { sw with rstate := .AwaitingBusy })))).map
      (fun t => (t.rstate, t.seq, t.busyIn)) = some (.Ready, .run .runResetSequence 10, true) := by decide

/-- R150: the timeout at the limit. -/
theorem test_runResetSequence_timeout :
    (nextState (exec .runResetSequence (running .runResetSequence 8 (showing [false] { limited 3 with rstate := .AwaitingBusy, pollcnt := some 2 })))).map
      (fun t => (t.rstate, t.seq, t.pollcnt, t.rsp)) = some (.Idle, .idle, some 3, some ⟨.Timeout, []⟩) := by decide

/-- A step from reset takes a placed word (R36). -/
theorem test_step_accepts :
    (nextState (step (State.reset.withFetchWord 16 0x01A5))).map (fun t => (t.seq, t.host)) = some (.run (.writeByte 0xA5) 0, []) := by decide

/-- A reserved word is refused (R163). -/
theorem test_step_refuses :
    (nextState (step (State.reset.withFetchWord 16 0x0000))).map (fun t => (t.seq, t.rsp)) = some (.idle, some ⟨.IllegalOperation, []⟩) := by decide

/-- Contention is recorded while the SPE drives `SDA` (R57), and only then. -/
theorem test_step_records_contention :
    (nextState (step { sw with sdaDir := .OUT, device := { sw.device with drives := [true] } })).map (·.contention) = some true ∧
      (nextState (step { sw with device := { sw.device with drives := [true] } })).map (·.contention) = some false := by decide

/-! ## Hypotheses of the obligations -/

theorem test_hypotheses_DecodeFollowsTheFields :
    (0x1000 : Word).extractLsb' 12 4 ≠ 0 ∧ (0xF100 : Word).extractLsb' 12 4 ≠ 0 ∧ (0x0FFF : Word).extractLsb' 12 4 = 0 ∧
    (0x01FF : Word).extractLsb' 8 4 = 0x1 ∧ (0x0300 : Word).extractLsb' 8 4 = 0x3 ∧ (0x04FF : Word).extractLsb' 8 4 = 0x4 ∧
    ((0x0200 : Word).extractLsb' 8 4 = 0x2 ∧ (0x0200 : Word).extractLsb' 0 8 = 0) ∧
    ((0x0201 : Word).extractLsb' 8 4 = 0x2 ∧ (0x0201 : Word).extractLsb' 0 8 ≠ 0) ∧
    ((0x0500 : Word).extractLsb' 8 4 = 0x5 ∧ (0x0500 : Word).extractLsb' 0 8 = 0) ∧
    ((0x0580 : Word).extractLsb' 8 4 = 0x5 ∧ (0x0580 : Word).extractLsb' 0 8 ≠ 0) ∧
    ((0x0600 : Word).extractLsb' 8 4 = 0x6 ∧ (0x0600 : Word).extractLsb' 0 8 = 0) ∧
    ((0x06FF : Word).extractLsb' 8 4 = 0x6 ∧ (0x06FF : Word).extractLsb' 0 8 ≠ 0) ∧
    (0x0000 : Word).extractLsb' 8 4 = 0x0 ∧ 0x7 ≤ (0x0700 : Word).extractLsb' 8 4 ∧ 0x7 ≤ (0x0F00 : Word).extractLsb' 8 4 := by decide

theorem test_hypotheses_StepRunsTheDecodedInstruction :
    (sw.seq = .idle ∧ decode 0x01A5 = .op (.writeByte 0xA5) ∧
      (asked [.present 0x01A5] sw).host = [.present 0x01A5] ∧ (asked [.strobe 0x01A5] sw).host = [.strobe 0x01A5]) ∧
    ((running .readByte 0 sw).seq = .run .readByte 0 ∧ (running .readByte 0 sw).host = [] ∧
      (asked [.present 0x0200] (running .readByte 41 sw)).host = [.present 0x0200] ∧
      (asked [.wait] (running .readByte 41 sw)).host = [.wait] ∧ (asked [.strobe 0x0200] (running .readByte 41 sw)).host = [.strobe 0x0200]) := by
  decide

theorem test_hypotheses_AcceptanceLatchesTheOperation : sw.seq = .idle ∧ sw.params.variant = .SW ∧ hw.seq = .idle ∧ hw.params.variant = .HW := by
  decide

theorem test_hypotheses_UnsupportedExactlyForReadsInHw :
    (hw.seq = .idle ∧ (asked [.present 0x0200] hw).host = [.present 0x0200] ∧ decode 0x0200 = .op .readByte ∧ hw.params.variant = .HW ∧
      decode 0x0500 = .op .readChipId) ∧
    ∃ t r, (running (.writeByte 0) 0 hw).seq = .run (.writeByte 0) 0 ∧ step (running (.writeByte 0) 0 hw) = .next t ∧ t.rsp = some r :=
  ⟨by decide, _, _, rfl, rfl, rfl⟩

theorem test_hypotheses_IllegalExactlyForReservedWords :
    (sw.seq = .idle ∧ (asked [.strobe 0x0000] sw).host = [.strobe 0x0000] ∧ ∃ r, decode 0x0000 = .reserved r) ∧
    ∃ t r, (running .runResetSequence 10 sw).seq = .run .runResetSequence 10 ∧ step (running .runResetSequence 10 sw) = .next t ∧ t.rsp = some r :=
  ⟨⟨rfl, rfl, .opField, by decide⟩, _, _, rfl, rfl, rfl⟩

theorem test_hypotheses_RefusalChangesNothing :
    (sw.seq = .idle ∧ (asked [.present 0xFFFF] sw).host = [.present 0xFFFF] ∧ ∃ r, decode 0xFFFF = .reserved r) ∧
    (hw.seq = .idle ∧ (asked [.strobe 0x0500] hw).host = [.strobe 0x0500] ∧ hw.params.variant = .HW ∧ decode 0x0500 = .op .readChipId) ∧
    ∃ t r, (running (.sendData 9) 3 hw).seq = .run (.sendData 9) 3 ∧ step (running (.sendData 9) 3 hw) = .next t ∧ t.rsp = some r :=
  ⟨⟨rfl, rfl, .zField, by decide⟩, by decide, _, _, rfl, rfl, rfl⟩

theorem test_hypotheses_HwReadsAreRefused : hw.params.variant = .HW ∧ hw.seq = .idle := by decide

theorem test_hypotheses_BusySpeDropsWords :
    (asked [.strobe 0x0600] (running (.sendData 1) 44 sw)).seq = .run (.sendData 1) 44 ∧
      (asked [.strobe 0x0600] (running (.sendData 1) 44 sw)).host = [.strobe 0x0600] ∧ Instr.runResetSequence ≠ .sendData 1 := by decide

theorem test_hypotheses_IdleSpeWaits : sw.seq = .idle ∧ sw.host = [] ∧ (asked [.wait] sw).host = [.wait] := by decide

theorem test_hypotheses_EngineResetFromAnyState :
    (asked [.ereset] (running .readChipId 60 sw)).host = [.ereset] ∧ sw.params.variant = .SW ∧ hw.params.variant = .HW ∧
      sw.params.busyPollLimit = none ∧ (limited 1).params.busyPollLimit = some 1 := by decide

theorem test_hypotheses_ResetStateHoldsTheResetValues :
    Config.default.busyPollLimit = none ∧ (limited 1).params.busyPollLimit = some 1 ∧ Config.default.variant = .SW ∧ hw.params.variant = .HW := by
  decide

theorem test_hypotheses_PrimitivesChangeOneAttribute :
    hw.sdaDir = .OUT ∧ (sw.sdaDir = .IN ∧ sw.device.sda = []) ∧ ((answering [true] sw).sdaDir = .IN ∧ (answering [true] sw).device.sda = [true]) ∧ (showing [false] sw).device.busy = [false] := by decide

theorem test_hypotheses_PrimitivePreconditionsFault :
    (∃ b, Prim.drive .SDA (.const true) = .drive .SDA b ∧ sw.sdaDir = .IN) ∧ (Prim.sample .SDA = .sample .SDA ∧ hw.sdaDir = .OUT) ∧
      ¬ ((∃ b, Prim.drive .SDA .srMsb = .drive .SDA b ∧ hw.sdaDir = .IN) ∨ (Prim.drive .SDA .srMsb = .sample .SDA ∧ hw.sdaDir = .OUT)) :=
  ⟨⟨_, rfl, rfl⟩, ⟨rfl, rfl⟩, by rintro (⟨b, -, h⟩ | ⟨h, -⟩) <;> cases h⟩

/-- Every clause, at the first and the last slot. -/
theorem test_hypotheses_WriteByteMicroOperations :
    sw.params.variant = .SW ∧ (running (.writeByte 1) 0 sw).seq = .run (.writeByte 1) 0 ∧
    (∀ j ∈ [1, 3, 4, 5, 36, 38, 39, 40, 41], (running (.writeByte 1) j sw).seq = .run (.writeByte 1) j) ∧
    (∀ j ∈ [2, 37], (running (.writeByte 1) j { sw with sdaDir := .OUT }).seq = .run (.writeByte 1) j ∧
      (running (.writeByte 1) j { sw with sdaDir := .OUT }).sdaDir = .OUT) := by decide

theorem test_hypotheses_WriteByteRunsToCompletion : sw.params.variant = .SW ∧ sw.seq = .idle := by decide

theorem test_hypotheses_WriteByteWireProperties : sw.params.variant = .SW ∧ sw.seq = .idle := by decide

theorem test_hypotheses_WriteByteInHwIsOneTransfer :
    hw.params.variant = .HW ∧ hw.seq = .idle ∧ (running (.writeByte 7) 0 hw).seq = .run (.writeByte 7) 0 ∧
      (running (.writeByte 7) 0 hw).params.variant = .HW := by decide

theorem test_hypotheses_ReadByteMicroOperations :
    sw.params.variant = .SW ∧ (∀ j ∈ [0, 1, 2, 3, 4, 5, 36, 37, 38, 39, 40, 41], (running .readByte j sw).seq = .run .readByte j) ∧
      sw.sdaDir = .IN := by decide

theorem test_hypotheses_ReadByteRunsToCompletion :
    (answering [true, false, true, false, false, true, false, true] sw).params.variant = .SW ∧
      (answering [true, false, true, false, false, true, false, true] sw).seq = .idle ∧
      sdaLevels 8 (answering [true, false, true, false, false, true, false, true] sw).device =
        [true, false, true, false, false, true, false, true] := by decide

theorem test_hypotheses_LoopBackReturnsTheByte : sw.params.variant = .SW ∧ sw.seq = .idle := by decide

theorem test_hypotheses_OneByteTransactionMicroOperations :
    (sw.params.variant = .SW ∧ hw.params.variant = .HW) ∧ (Instr.sendCommand 5 = .sendCommand 5 ∧ Instr.sendData 5 = .sendData 5) ∧
    (∀ j ∈ [0, 1, 2, 43, 44], (running (.sendCommand 5) j sw).seq = .run (.sendCommand 5) j) ∧
    (∀ j ∈ [0, 1, 2, 3], (running (.sendData 5) j hw).seq = .run (.sendData 5) j) := by decide

theorem test_hypotheses_OneByteTransactionRunsInSw : Instr.sendCommand 0 = .sendCommand 0 ∧ sw.params.variant = .SW ∧ sw.seq = .idle := by decide

theorem test_hypotheses_OneByteTransactionRunsInHw : Instr.sendData 0xFF = .sendData 0xFF ∧ hw.params.variant = .HW ∧ hw.seq = .idle := by decide

theorem test_hypotheses_ReadChipIdMicroOperations :
    sw.params.variant = .SW ∧
      (∀ j ∈ [0, 1, 2, 43, 44, 45, 86, 87, 127, 128, 129], (running .readChipId j sw).seq = .run .readChipId j) := by decide

theorem test_hypotheses_ReadChipIdRunsToCompletion :
    (answering (wireBits 0x12 ++ wireBits 0x34) sw).params.variant = .SW ∧ (answering (wireBits 0x12 ++ wireBits 0x34) sw).seq = .idle ∧
      sdaLevels 16 (answering (wireBits 0x12 ++ wireBits 0x34) sw).device = wireBits 0x12 ++ wireBits 0x34 := by decide

theorem test_hypotheses_ReadChipIdProperties :
    sw.params.variant = .SW ∧ sw.params.chipIdOpcode = 0x70 ∧ sw.seq = .idle ∧
      (answering [false, false, false, true, false, false, true, false, false, false, true, true, false, true, false, false] sw).device.sda =
        [false, false, false, true, false, false, true, false, false, false, true, true, false, true, false, false] ++ [] := by decide

theorem test_hypotheses_ChipIdTurnAround : sw.params.variant = .SW ∧ sw.seq = .idle := by decide

/-- Every clause of the reset sequence, with both outcomes of the sample and the last count below and at the limit. -/
theorem test_hypotheses_ResetSequenceMicroOperations :
    (∀ j ∈ [0, 1, 2, 3, 4, 5, 6, 7, 8, 9, 10], (running .runResetSequence j sw).seq = .run .runResetSequence j) ∧
    (showing [true] sw).device.busyLevel = true ∧ ((showing [false] sw).device.busyLevel = false ∧ sw.params.busyPollLimit = none) ∧
    ((showing [false] (limited 2)).device.busyLevel = false ∧ (limited 2).params.busyPollLimit = some 2 ∧ (limited 2).pollcnt = some 0 ∧ 0 + 1 ≠ 2) ∧
    ((limited 1).params.busyPollLimit = some (0 + 1) ∧ (limited 1).pollcnt = some 0) := by decide

theorem test_hypotheses_ResetSequenceCompletesWhenReady :
    (sw.seq = .idle ∧ busyLevels (0 + 1) (showing [true] sw).device = List.replicate 0 false ++ [true] ∧
      sw.params.busyPollLimit = none ∧ sw.pollcnt = none) ∧
    ((limited 3).seq = .idle ∧ busyLevels (2 + 1) (showing [false, false, true] (limited 3)).device = List.replicate 2 false ++ [true] ∧
      (limited 3).params.busyPollLimit = some 3 ∧ 2 < 3 ∧ (limited 3).pollcnt = some 0) := by decide

theorem test_hypotheses_BusyWaitIsUnbounded :
    sw.seq = .idle ∧ sw.params.busyPollLimit = none ∧ busyLevels (2 + 1) (showing [false, false, false] sw).device = List.replicate (2 + 1) false := by
  decide

theorem test_hypotheses_ResetSequenceTimesOut :
    (limited 1).seq = .idle ∧ (limited 1).params.busyPollLimit = some (0 + 1) ∧ (limited 1).pollcnt = some 0 ∧
      busyLevels (0 + 1) (showing [false] (limited 1)).device = List.replicate (0 + 1) false ∧
      sw.params.busyPollLimit = none ∧ ∃ t, step (running .runResetSequence 10 sw) = .next t :=
  ⟨rfl, rfl, rfl, rfl, rfl, _, rfl⟩

theorem test_hypotheses_ReadyComesBeforeTheSettleDelay :
    (showing [true] (running .runResetSequence 8 sw)).seq = .run .runResetSequence 8 ∧
      (showing [true] (running .runResetSequence 8 sw)).device.busyLevel = true := by decide

theorem test_hypotheses_FourResetTransitions :
    (sw.seq = .idle ∧ sw.rstnOut = true) ∧
    ∃ t, (running .runResetSequence 10 sw).seq = .run .runResetSequence 10 ∧ 8 ≤ 10 ∧ exec .runResetSequence (running .runResetSequence 10 sw) = .next t :=
  ⟨by decide, _, rfl, by decide, rfl⟩

theorem test_hypotheses_LinkEngineFrame :
    (∃ t, exec (.writeByte 1) (running (.writeByte 1) 41 sw) = .next t) ∧ (∃ t, exec (.writeByte 1) (running (.writeByte 1) 0 hw) = .next t) ∧
      (∃ t, exec .readByte (running .readByte 41 sw) = .next t) ∧ (∃ t, exec .readByte hw = .next t) ∧ hw.params.variant = .HW :=
  ⟨⟨_, rfl⟩, ⟨_, rfl⟩, ⟨_, rfl⟩, ⟨_, rfl⟩, rfl⟩

theorem test_hypotheses_FramerFrame :
    (∃ t, exec (.sendCommand 1) (running (.sendCommand 1) 44 sw) = .next t) ∧ (∃ t, exec (.sendData 1) (running (.sendData 1) 2 hw) = .next t) ∧
      (∃ t, exec .readChipId (running .readChipId 128 sw) = .next t) ∧ (∃ t, exec .readChipId hw = .next t) ∧ hw.params.variant = .HW :=
  ⟨⟨_, rfl⟩, ⟨_, rfl⟩, ⟨_, rfl⟩, ⟨_, rfl⟩, rfl⟩

theorem test_hypotheses_ResetSequenceFrame : ∃ t, exec .runResetSequence (running .runResetSequence 8 (showing [false] sw)) = .next t := ⟨_, rfl⟩

theorem test_hypotheses_OneEventPerMicroOperation :
    (∃ t, exec .readChipId (running .readChipId 44 sw) = .next t ∧ (running .readChipId 44 sw).seq = .run .readChipId 44) ∧
      ∃ t, exec .readChipId sw = .next t ∧ sw.seq = .idle := ⟨⟨_, rfl, rfl⟩, _, rfl, rfl⟩

/-- A step that drives the line, a step with no event, a step with another event. -/
theorem test_hypotheses_OutputsHoldTheirLevel :
    (∃ t, step (running (.sendData 1) 0 sw) = .next t ∧ (running (.sendData 1) 0 sw).host.head? ≠ some .ereset ∧
      t.trace = (running (.sendData 1) 0 sw).trace ++ [.drive .CSN false] ∧ drives .DC (.drive .CSN false) = false) ∧
    (∃ t, step sw = .next t ∧ sw.host.head? ≠ some .ereset ∧ t.trace = sw.trace) :=
  ⟨⟨_, rfl, by decide, rfl, rfl⟩, _, rfl, by decide, rfl⟩

/-! ## States that meet the invariant -/

theorem test_hypotheses_ResetMeetsTheInvariant : Params.wellFormed (limited 1).params = true := by decide

/-- The idle `HW` SPE. -/
theorem test_inv_hw : Inv hw := ⟨by decide, ⟨rfl, rfl, rfl, rfl⟩, fun _ => rfl, trivial⟩

/-- The last micro-operation of a `writeByte` in `SW`. -/
theorem test_inv_writing : Inv (running (.writeByte 0xA5) 41 { sw with sdaDir := .OUT, sckOut := true, sdaOut := true }) :=
  ⟨by decide, ⟨by decide, rfl, rfl, rfl, fun _ h => Option.some.inj h, rfl⟩, fun h => (nomatch h), trivial⟩

/-- The poll of a reset cycle one below its limit. -/
theorem test_inv_polling : Inv (showing [false] (running .runResetSequence 8 { limited 3 with rstate := .AwaitingBusy, pollcnt := some 2 })) :=
  ⟨by decide, ⟨by decide, rfl, rfl, rfl, fun _ h => (nomatch h), rfl⟩, fun h => (nomatch h), ⟨by decide, fun _ _ => by decide⟩⟩

theorem test_hypotheses_SelectBracketsAndModeLeads :
    (Instr.sendCommand 0xFF = .sendCommand 0xFF ∧ sw.seq = .idle) ∧ ∃ t, Inv hw ∧ core.run 1 hw = .next t ∧ t.seq = .idle :=
  ⟨by decide, _, test_inv_hw, rfl, rfl⟩

theorem test_hypotheses_StepKeepsTheInvariant :
    ∃ s t, Inv s ∧ step s = .next t ∧ t.rsp = some ⟨.Timeout, []⟩ := ⟨_, _, test_inv_polling, rfl, rfl⟩

theorem test_hypotheses_NoStepStops : ∃ s, Inv s ∧ s.seq = .run (.writeByte 0xA5) 41 := ⟨_, test_inv_writing, rfl⟩

theorem test_hypotheses_EveryEventIsLawful :
    ∃ s t, Inv s ∧ step s = .next t ∧ t.trace = s.trace ++ [.drive .SCK false] := ⟨_, _, test_inv_writing, rfl, rfl⟩

theorem test_hypotheses_LinearOperationsEnd :
    ∃ s, Inv s ∧ s.seq = .run (.writeByte 0xA5) 41 ∧ Instr.writeByte 0xA5 ≠ .runResetSequence := ⟨_, test_inv_writing, rfl, by decide⟩

theorem test_hypotheses_ContentionIsRecordedAndKept :
    ∃ t, step { sw with contention := true, device := { sw.device with drives := [true, false] } } = .next t ∧
      ({ sw with contention := true, device := { sw.device with drives := [true, false] } } : State).contention = true ∧
      ({ sw with contention := true, device := { sw.device with drives := [true, false] } } : State).device.drives = true :: [false] :=
  ⟨_, rfl, rfl, rfl⟩

theorem test_hypotheses_OperationsAreIndependent :
    sw.seq = .idle ∧ ({ sw with sr := 0xFF, rd0 := 1, sckOut := true, csnOut := false, rstate := .Ready } : State).seq = .idle ∧
      sw.params = ({ sw with sr := 0xFF, rd0 := 1, sckOut := true, csnOut := false, rstate := .Ready } : State).params ∧
      sw.device = ({ sw with sr := 0xFF, rd0 := 1, sckOut := true, csnOut := false, rstate := .Ready } : State).device ∧
      sw.pollcnt.isSome = sw.params.busyPollLimit.isSome ∧ ∃ t, operate .readChipId 1 sw = .next t :=
  ⟨rfl, rfl, rfl, rfl, rfl, _, rfl⟩

/-- Each variant, a reserved word, a ready device at once and below a limit, a device that is never ready, and the default hold times. -/
theorem test_hypotheses_MinimumDurations :
    (sw.seq = .idle ∧ sw.params.variant = .SW ∧ hw.seq = .idle ∧ hw.params.variant = .HW) ∧
    ((asked [.strobe 0x0F00] sw).seq = .idle ∧ (asked [.strobe 0x0F00] sw).host = [.strobe 0x0F00] ∧ decode 0x0F00 = .reserved .opField) ∧
    (busyLevels (0 + 1) (showing [true] sw).device = List.replicate 0 false ++ [true] ∧ sw.params.busyPollLimit = none ∧ sw.pollcnt = none) ∧
    ((limited 3).seq = .idle ∧ busyLevels (2 + 1) (showing [false, false, true] (limited 3)).device = List.replicate 2 false ++ [true] ∧
      (limited 3).params.busyPollLimit = some 3 ∧ 2 < 3 ∧ (limited 3).pollcnt = some 0) ∧
    ((limited 1).seq = .idle ∧ (limited 1).params.busyPollLimit = some (0 + 1) ∧ (limited 1).pollcnt = some 0 ∧
      busyLevels (0 + 1) (showing [false] (limited 1)).device = List.replicate (0 + 1) false) ∧
    sw.params.resetLowHold = 20 ∧ sw.params.resetHighHold = 10 ∧ sw.params.busyPollInterval = 1 ∧ sw.params.readySettle = 10 := by decide

/-- Each clause: a reserved word, a refused read, an accepted word in each variant, nothing offered, each way to an `OK`, and the timeout. -/
theorem test_hypotheses_StatusCodesAndResponsePort :
    (sw.seq = .idle ∧ (asked [.present 0x0000] sw).host = [.present 0x0000] ∧ decode 0x0000 = .reserved .opField) ∧
    (hw.seq = .idle ∧ hw.params.variant = .HW ∧ decode 0x0200 = .op .readByte ∧ decode 0x0500 = .op .readChipId) ∧
    (sw.params.variant = .SW ∧ decode 0x0600 = .op .runResetSequence ∧ Instr.runResetSequence ≠ .readByte ∧ Instr.runResetSequence ≠ .readChipId) ∧
    (sw.host = [] ∧ sw.host.head? ≠ some .ereset ∧ hw.host.head? ≠ some .ereset) ∧
    (running (.writeByte 0) 0 hw).seq = .run (.writeByte 0) 0 ∧ (running .readByte 41 sw).seq = .run .readByte 41 ∧
    (running .readChipId 129 sw).seq = .run .readChipId 129 ∧ (running .runResetSequence 10 sw).seq = .run .runResetSequence 10 ∧
    ((showing [false] (running .runResetSequence 8 (limited 1))).seq = .run .runResetSequence 8 ∧
      (showing [false] (running .runResetSequence 8 (limited 1))).device.busyLevel = false ∧
      (limited 1).params.busyPollLimit = some (0 + 1) ∧ (limited 1).pollcnt = some 0) := by decide

end Sys2Proof.Tests
end

section
/-! The decoder, read off the three fields of a word (R86, R87, R89). -/

namespace Sys2Proof

variable {w : Word}

/-- The decoder's positive half: a word with the fields of the encoding of `i` is read as `i`. -/
theorem decode_eq_op_of_fields {i : Instr} (hz : zField w = 0) (ho : opField w = opCode i) (ha : argField w = arg i) :
    decode w = .op i := by
  cases i <;> simp only [opCode, arg] at ho ha <;> simp [decode, formatA, formatN, hz, ho, ha]

theorem decode_of_zField_ne_zero (hz : zField w ≠ 0) : decode w = .reserved .zField := if_pos hz

theorem decode_of_opField_unknown (hz : zField w = 0) (ho : ∀ i, opField w ≠ opCode i) :
    decode w = .reserved .opField := by
  have h1 : opField w ≠ 0x1 := ho (.writeByte 0)
  have h2 : opField w ≠ 0x2 := ho .readByte
  have h3 : opField w ≠ 0x3 := ho (.sendCommand 0)
  have h4 : opField w ≠ 0x4 := ho (.sendData 0)
  have h5 : opField w ≠ 0x5 := ho .readChipId
  have h6 : opField w ≠ 0x6 := ho .runResetSequence
  rw [decode, if_neg (not_not.mpr hz), if_neg h1, if_neg h2, if_neg h3, if_neg h4, if_neg h5, if_neg h6]

/-- The operations of format `N` (R85) leave no room for an operand. -/
theorem decode_of_argField_ne_zero (hz : zField w = 0) (ho : opField w = 0x2 ∨ opField w = 0x5 ∨ opField w = 0x6)
    (ha : argField w ≠ 0) : decode w = .reserved .argField := by
  have hN (i : Instr) : formatN i w = .reserved .argField := if_neg ha
  rcases ho with ho | ho | ho <;> simp [decode, hz, ho, hN]

/-- The operation codes are 1 to 6 (R88). -/
theorem opCode_range (i : Instr) : opCode i ≠ 0x0 ∧ opCode i < 0x7 := by
  cases i <;> simp [opCode]

theorem ne_opCode_of_outside {o : BitVec 4} (ho : o = 0x0 ∨ 0x7 ≤ o) (i : Instr) : o ≠ opCode i := by
  obtain ⟨hpos, hlt⟩ := opCode_range i
  rintro rfl
  rcases ho with ho | ho
  · exact hpos ho
  · exact absurd hlt (BitVec.not_lt.mpr ho)

/-- Settles O2, from the decoder's answer for the fields of an operation and its three reasons to call a word reserved. -/
theorem decodeFollowsTheFields : Obligations.DecodeFollowsTheFields := by
  intro w
  refine ⟨fun hz => ⟨_, decode_of_zField_ne_zero hz⟩, fun hz => ⟨?_, ?_, ?_, ?_, ?_, ?_, ?_, ?_, ?_, ?_⟩⟩
  · exact fun ho => decode_eq_op_of_fields (i := .writeByte _) hz ho rfl
  · exact fun ho => decode_eq_op_of_fields (i := .sendCommand _) hz ho rfl
  · exact fun ho => decode_eq_op_of_fields (i := .sendData _) hz ho rfl
  · exact decode_eq_op_of_fields (i := .readByte) hz
  · exact fun ho ha => ⟨_, decode_of_argField_ne_zero hz (.inl ho) ha⟩
  · exact decode_eq_op_of_fields (i := .readChipId) hz
  · exact fun ho ha => ⟨_, decode_of_argField_ne_zero hz (.inr (.inl ho)) ha⟩
  · exact decode_eq_op_of_fields (i := .runResetSequence) hz
  · exact fun ho ha => ⟨_, decode_of_argField_ne_zero hz (.inr (.inr ho)) ha⟩
  · exact fun ho => ⟨_, decode_of_opField_unknown hz (ne_opCode_of_outside ho)⟩

end Sys2Proof
end

section
/-! `writeByte`, run from acceptance, and the wire properties of its frame, by induction over the bits sent (R101 to R103). -/

namespace Sys2Proof.Machine

/-! ## Running `writeByte` -/

/-- An idle SPE accepts `writeByte(v)`, performs its micro-program and completes with `OK` (R36, R101, R103). -/
theorem operate_writeByte {v : Byte} {s : State} {n : Nat} (hn : (writeByteProgram s.params.variant v).length + 1 = n) (hs : s.seq = .idle) :
    operate (.writeByte v) n s =
      andThen (performAll (writeByteProgram s.params.variant v) s) fun t => .next (complete .OK [] t) :=
  have hne : writeByteProgram s.params.variant v ≠ [] := by cases s.params.variant <;> simp [writeByteProgram]
  operate_linear (i := .writeByte v) nofun hn hne hs rfl

/-- In `SW` the whole run adds the trace of R101. -/
theorem operate_writeByte_sw_trace (v : Byte) {s : State} (hv : s.params.variant = .SW) (hs : s.seq = .idle) :
    ∃ t, operate (.writeByte v) 43 s = .next t ∧ t.trace = s.trace ++ writeByteTrace v := by
  rw [operate_writeByte (by simp [hv]) hs, hv, perform_writeByteProgram, andThen_next]
  exact ⟨_, rfl, by simp⟩

/-! ## The write slots on the wire (R102)

Each property is stated for any list of bits, closed by the falling edge that ends the frame, so that the induction is over the slots. -/

/-- At each rising edge the receiver sees the bit of that slot. -/
theorem atRisingEdges_writeSlots (bits : List Level) (known : Option Level) :
    atRisingEdges speLevel known (bits.flatMap writeSlotTrace ++ [.drive .SCK false]) = bits.map some := by
  induction bits generalizing known with
  | nil => simp [atRisingEdges]
  | cons b bits ih => simp [writeSlotTrace, atRisingEdges, speLevel, ih]

/-- One rising edge per slot. -/
theorem count_rise_writeSlots (bits : List Level) :
    (bits.flatMap writeSlotTrace ++ [Event.drive .SCK false]).count (.drive .SCK true) = bits.length := by
  induction bits with
  | nil => simp
  | cons b bits ih => simpa [writeSlotTrace] using ih

/-- A slot makes the clock low before it drives the data line, so the level of the clock before the slots does not matter. -/
theorem dataOnlyWhileLow_writeSlots (bits : List Level) (low : Bool) :
    dataOnlyWhileLow low (bits.flatMap writeSlotTrace ++ [.drive .SCK false]) = true := by
  induction bits generalizing low with
  | nil => simp [dataOnlyWhileLow, drives]
  | cons b bits ih => simp [writeSlotTrace, dataOnlyWhileLow, drives, ih]

/-- One edge delay from the data drive to the rising edge of each slot. -/
theorem delays_data_to_rise_writeSlots (bits : List Level) :
    delaysBetween (drives .SDA) (fun e => decide (e = .drive .SCK true)) none (bits.flatMap writeSlotTrace ++ [.drive .SCK false]) =
      List.replicate bits.length 1 := by
  induction bits with
  | nil => simp [delaysBetween]
  | cons b bits ih => cases b <;> simp [writeSlotTrace, delaysBetween, drives, List.replicate_succ, ih]

/-- One edge delay from each rising edge to the next falling edge, which is the first event of the next slot: a count `pending` from before the slots
is closed by the first of them. -/
theorem delays_rise_to_fall_writeSlots (bits : List Level) (pending : Option Nat) :
    delaysBetween (fun e => decide (e = .drive .SCK true)) (fun e => decide (e = .drive .SCK false)) pending
        (bits.flatMap writeSlotTrace ++ [.drive .SCK false]) =
      pending.toList ++ List.replicate bits.length 1 := by
  induction bits generalizing pending with
  | nil => cases pending <;> simp [delaysBetween]
  | cons b bits ih => cases pending <;> simp [writeSlotTrace, delaysBetween, List.replicate_succ, ih]

/-! ## The obligations -/

/-- Settles O21: the run adds the trace of R101, which is `Dir(OUT)`, the slots of the eight bits and a falling edge. -/
theorem writeByteWireProperties : Obligations.WriteByteWireProperties := by
  intro v s hv hs
  obtain ⟨t, hrun, htrace⟩ := operate_writeByte_sw_trace v hv hs
  refine ⟨t, writeByteTrace v, hrun, htrace, ?_, ?_, ?_, ?_, ?_, ?_, rfl⟩
  · exact atRisingEdges_writeSlots (wireBits v) none
  · rw [writeByteTrace, List.count_cons_of_ne (by simp)]
    exact count_rise_writeSlots (wireBits v)
  · exact dataOnlyWhileLow_writeSlots (wireBits v) false
  · exact delays_data_to_rise_writeSlots (wireBits v)
  · exact delays_rise_to_fall_writeSlots (wireBits v) none
  · rw [writeByteTrace, ← List.cons_append, List.getLast?_concat]

/-- Settles O22: in `HW` the micro-program of `writeByte` is one transfer, and its word has the same fields in either variant. -/
theorem writeByteInHwIsOneTransfer : Obligations.WriteByteInHwIsOneTransfer := by
  intro v s hv
  refine ⟨?_, fun hs => ?_, fun hs => ?_⟩
  · have hword : (0x01#8 ++ v : Word) = encode (.writeByte v) := by simp [encode, opCode, arg]
    rw [hword]
    exact decode_eq_op_of_fields (zField_encode _) (opField_encode _) (argField_encode _)
  · have hprogram : microProgram s.params (.writeByte v) = [plain (.xfer [v])] := by simp [microProgram, hv, writeByteProgram]
    rw [exec_running hs (by rw [hprogram]; rfl), perform_xfer, andThen_next, follow_linear (i := .writeByte v) nofun, hprogram]
    rfl
  · rw [operate_writeByte (by simp [hv]) hs, hv,
      show performAll (writeByteProgram .HW v) s = .next (xfer [v] s) from rfl, andThen_next, hs]
    rfl

end Sys2Proof.Machine
end

section
/-! `runResetSequence`: the pulses, what follows a sample of `BUSY`, and the two ways the poll ends (R142 to R150). -/

namespace Sys2Proof.Machine

/-! ## The pulses (R142) -/

/-- `RSTATE` after `k` micro-operations of a Reset Cycle, up to the poll (R30, R142). -/
def pulseRState : Nat → RState
  | 0 => .Idle
  | 1 | 2 => .AssertingReset
  | 3 | 4 => .Released1
  | 5 | 6 => .AssertingReset2
  | _ => .Released2

/-- The state `k` micro-operations after an idle SPE in `s` accepted `runResetSequence`. -/
def State.pulsed (k : Nat) (s : State) : State :=
  { s with
    seq := .run .runResetSequence k
    rstate := pulseRState k
    rstnOut := levelAfter .RSTN s.rstnOut ((resetProgram s.params).take k)
    pollcnt := s.pollcnt.map fun _ => 0
    trace := s.trace ++ (pulseTrace s.params).take k }

theorem State.pulsed_trace_succ {k : Nat} (s : State) (hk : k < (pulseTrace s.params).length) :
    (s.pulsed (k + 1)).trace = (s.pulsed k).trace ++ [(pulseTrace s.params)[k]] := by
  simp only [State.pulsed, List.take_succ_eq_append_getElem hk, List.append_assoc]

/-- Each of the eight micro-operations of the pulses goes on to the next, whatever the state; it adds the next event of the pulse trace. -/
theorem exec_pulsed {k : Nat} (hk : k < 8) (s : State) : exec .runResetSequence (s.pulsed k) = .next (s.pulsed (k + 1)) := by
  have hk' : k < (pulseTrace s.params).length := hk
  have hnext : { s.pulsed (k + 1) with trace := (s.pulsed k).trace ++ [(pulseTrace s.params)[k]] } = s.pulsed (k + 1) := by
    rw [← s.pulsed_trace_succ hk']
  refine Eq.trans ?_ (congrArg _ hnext)
  interval_cases k <;> rfl

/-- After the pulses the reset line is released, and the trace has gained the eight pulse events (R144). -/
theorem State.pulsed_eight (s : State) :
    s.pulsed 8 = { s with
      seq := .run .runResetSequence 8, rstate := .Released2, rstnOut := true, pollcnt := s.pollcnt.map fun _ => 0,
      trace := s.trace ++ pulseTrace s.params } := rfl

theorem operate_pulses {k : Nat} (hk : k ≤ 8) {s : State} (hs : s.seq = .idle) :
    operate .runResetSequence (k + 1) s = .next (s.pulsed k) := by
  induction k with
  | zero => simp [operate, exec_idle hs, onAccept, acceptReset, accept, State.pulsed, pulseRState, levelAfter]
  | succ k ih =>
    rw [operate_add, ih (by omega), andThen_next, operate, exec_pulsed (by omega)]
    rfl

/-! ## The poll (R146, R149, R150) -/

/-- The state just after micro-operation 8 has sampled `BUSY`, before the poll decision. -/
def State.polled (s : State) : State :=
  { s with
    rstate := .AwaitingBusy
    busyIn := s.device.busyLevel
    device := s.device.afterBusy
    trace := s.trace ++ [.sample .BUSY s.device.busyLevel] }

theorem exec_sampleBusy {s : State} (hs : s.seq = .run .runResetSequence 8) :
    exec .runResetSequence s = .next (pollDecision s.polled) := by
  rw [exec_running hs (show (microProgram s.params .runResetSequence)[8]? = some _ from rfl)]
  rfl

theorem exec_pollInterval {s : State} (hs : s.seq = .run .runResetSequence 9) :
    exec .runResetSequence s = .next ((sleep s.params.busyPollInterval s).withSeq (.run .runResetSequence 8)) := by
  rw [exec_running hs (show (microProgram s.params .runResetSequence)[9]? = some _ from rfl)]
  rfl

theorem exec_readySettle {s : State} (hs : s.seq = .run .runResetSequence 10) :
    exec .runResetSequence s = .next (complete .OK [] (sleep s.params.readySettle s)) := by
  rw [exec_running hs (show (microProgram s.params .runResetSequence)[10]? = some _ from rfl)]
  rfl

theorem pollDecision_ready {s : State} (hb : s.busyIn = true) :
    pollDecision s = { s with rstate := .Ready, seq := .run .runResetSequence 10 } := if_pos hb

theorem pollDecision_below_limit {s : State} {n c : Nat} (hb : s.busyIn = false) (hl : s.params.busyPollLimit = some n)
    (hc : s.pollcnt = some c) (hn : c + 1 ≠ n) :
    pollDecision s = { s with pollcnt := some (c + 1), seq := .run .runResetSequence 9 } := by
  simp [pollDecision, notReady, hb, hl, hc, hn]

theorem pollDecision_at_limit {s : State} {c : Nat} (hb : s.busyIn = false) (hl : s.params.busyPollLimit = some (c + 1))
    (hc : s.pollcnt = some c) : pollDecision s = timeout { s with pollcnt := some (c + 1) } := by
  simp [pollDecision, notReady, hb, hl, hc]

theorem pollTrace_length (interval n : Nat) : (pollTrace interval n).length = 2 * n := by
  induction n with
  | zero => rfl
  | succ n ih => simp only [pollTrace, List.length_cons, ih]; omega

/-- A poll round below the limit: a sample that reads 0 and is counted, then the poll interval. -/
theorem operate_pollRound {s : State} {n c : Nat} (hs : s.seq = .run .runResetSequence 8) (hb : s.device.busyLevel = false)
    (hl : s.params.busyPollLimit = some n) (hc : s.pollcnt = some c) (hn : c + 1 ≠ n) :
    operate .runResetSequence 2 s =
      .next { s with
        rstate := .AwaitingBusy, busyIn := false, pollcnt := some (c + 1), device := s.device.afterBusy,
        trace := s.trace ++ pollTrace s.params.busyPollInterval 1 } := by
  rw [operate, exec_sampleBusy hs, andThen_next, pollDecision_below_limit (s := s.polled) hb hl hc hn, operate, exec_pollInterval rfl]
  simp [operate, State.withSeq, sleep, State.emit, State.polled, pollTrace, hb, hs]

/-- From a count of `c`, `n + 1` samples that read 0 reach the limit `c + n + 1` and end the operation. -/
theorem operate_poll_timeout {n c : Nat} {s : State} (hs : s.seq = .run .runResetSequence 8)
    (hl : s.params.busyPollLimit = some (c + n + 1)) (hc : s.pollcnt = some c)
    (hb : busyLevels (n + 1) s.device = List.replicate (n + 1) false) :
    operate .runResetSequence (2 * n + 1) s =
      .next (complete .Timeout [] { s with
        rstate := .Idle, busyIn := false, pollcnt := some (c + n + 1), device := afterBusyLevels (n + 1) s.device,
        trace := s.trace ++ (pollTrace s.params.busyPollInterval n ++ [.sample .BUSY false]) }) := by
  induction n generalizing c s with
  | zero =>
    obtain ⟨hnow, -⟩ := List.cons.inj hb
    rw [operate, exec_sampleBusy hs, andThen_next, pollDecision_at_limit (s := s.polled) hnow hl hc]
    simp [operate, timeout, State.polled, pollTrace, afterBusyLevels, hnow]
  | succ n ih =>
    obtain ⟨hnow, hlater⟩ := List.cons.inj hb
    have hlimit : s.params.busyPollLimit = some (c + 1 + n + 1) := by rw [hl]; congr 1; omega
    rw [show 2 * (n + 1) + 1 = 2 + (2 * n + 1) by omega, operate_add, operate_pollRound hs hnow hl hc (by omega), andThen_next,
      ih (by exact hs) (by exact hlimit) rfl (by exact hlater)]
    simp [pollTrace, afterBusyLevels, Nat.add_assoc, Nat.add_comm 1]

/-! ## What a step can answer and drive -/

/-- Acceptance presents no response, or refuses a read (R36, R161). -/
theorem onAccept_rsp (i : Instr) (s : State) :
    (onAccept i s).rsp = s.rsp ∨ (onAccept i s).rsp = some ⟨.UnsupportedOperation, []⟩ := by
  have hread (j : Instr) : (acceptRead j s).rsp = s.rsp ∨ (acceptRead j s).rsp = some ⟨.UnsupportedOperation, []⟩ := by
    unfold acceptRead
    split
    · exact .inl rfl
    · exact .inr rfl
  cases i with
  | readByte => exact hread _
  | readChipId => exact hread _
  | _ => exact .inl rfl

theorem advance_rsp (i : Instr) (len k : Nat) (s : State) :
    (advance i len k s).rsp = s.rsp ∨ ∃ d, (advance i len k s).rsp = some ⟨.OK, d⟩ := by
  unfold advance
  split
  · exact .inr ⟨_, rfl⟩
  · exact .inl rfl

/-- Where no limit is configured, a sample of `BUSY` presents no response (R146). -/
theorem pollDecision_rsp_unbounded {s : State} (hl : s.params.busyPollLimit = none) : (pollDecision s).rsp = s.rsp := by
  unfold pollDecision notReady
  split
  · rfl
  · simp [hl]

theorem resetFollow_rsp_unbounded {s : State} (len k : Nat) (hl : s.params.busyPollLimit = none) :
    (resetFollow len k s).rsp = s.rsp ∨ ∃ d, (resetFollow len k s).rsp = some ⟨.OK, d⟩ := by
  unfold resetFollow
  split
  · exact .inl (pollDecision_rsp_unbounded hl)
  · split
    · exact .inl rfl
    · exact advance_rsp _ _ _ _

theorem follow_rsp_unbounded {s : State} (p : Params) (i : Instr) (k : Nat) (hl : s.params.busyPollLimit = none) :
    (follow p i k s).rsp = s.rsp ∨ ∃ d, (follow p i k s).rsp = some ⟨.OK, d⟩ := by
  by_cases hi : i = .runResetSequence
  · subst hi
    exact resetFollow_rsp_unbounded _ k hl
  · rw [follow_linear hi]
    exact advance_rsp _ _ _ _

/-- Where no limit is configured, a step of a running operation presents no response or completes it with `OK`. -/
theorem exec_rsp_unbounded {i : Instr} {k : Nat} {s t : State} (hs : s.seq = .run i k) (hl : s.params.busyPollLimit = none)
    (h : exec i s = .next t) : t.rsp = s.rsp ∨ ∃ d, t.rsp = some ⟨.OK, d⟩ := by
  obtain ⟨hidle, -⟩ | ⟨k', m, u, -, -, hu, rfl⟩ | ⟨-, -, -, -, rfl⟩ := exec_next h
  · simp [hs] at hidle
  · have f := perform_frame hu
    rw [← f.rsp]
    exact follow_rsp_unbounded _ _ _ (f.params ▸ hl)
  · exact .inl rfl

theorem applyWrites_out (ws : List RegWrite) (l : OutLine) (s : State) : (applyWrites ws s).out l = s.out l := by
  have f := applyWrites_frame ws s
  cases l with
  | SCK => exact f.sckOut
  | SDA => exact f.sdaOut
  | CSN => exact f.csnOut
  | DC => exact f.dcOut
  | RSTN => exact f.rstnOut

/-- A line keeps its level over a primitive that does not drive it, and the event is no drive of it (R53). -/
theorem runPrim_not_drives {p : Prim} {l : OutLine} {s t : State} (hp : ∀ b, p ≠ .drive l b) (h : runPrim p s = .next t) :
    t.out l = s.out l ∧ ∃ e, t.trace = s.trace ++ [e] ∧ drives l e = false := by
  obtain ⟨d, -, rfl⟩ | ⟨l', b, rfl, -, rfl⟩ | ⟨l', -, -, rfl⟩ | ⟨-, rfl⟩ | ⟨n, -, rfl⟩ | ⟨tx, -, rfl⟩ := runPrim_next h
  case inr.inl =>
    have hl : l ≠ l' := fun e => hp b (e ▸ rfl)
    exact ⟨by rw [State.out_emit, State.out_setOut_other hl], _, by rw [State.emit_trace, State.setOut_trace], by simp [drives, hl.symm]⟩
  case inr.inr.inl => cases l' <;> exact ⟨by rw [sampled, State.out_emit]; cases l <;> rfl, _, rfl, by simp [drives]⟩
  all_goals exact ⟨by cases l <;> rfl, _, rfl, by simp [drives]⟩

/-- A line keeps its level over a micro-operation that does not drive it, and the event is no drive of it. -/
theorem perform_not_drives {m : MicroOp} {l : OutLine} {s t : State} (hm : ∀ b, m.prim ≠ .drive l b) (h : m.perform s = .next t) :
    t.out l = s.out l ∧ ∃ e, t.trace = s.trace ++ [e] ∧ drives l e = false := by
  obtain ⟨u, hu, rfl⟩ := perform_next h
  obtain ⟨hout, e, he, hd⟩ := runPrim_not_drives hm hu
  refine ⟨by rw [applyWrites_out, hout, applyWrites_out], e, ?_, hd⟩
  rw [(applyWrites_frame m.after u).trace, he, (applyWrites_frame m.before s).trace]

/-- From micro-operation 8 on, a Reset Cycle only samples `BUSY` and sleeps (R142). -/
theorem resetProgram_not_drives_after_pulses {p : Params} {k : Nat} {m : MicroOp} (hk : 8 ≤ k) (hm : (resetProgram p)[k]? = some m)
    (l : OutLine) (b : DriveLevel) : m.prim ≠ .drive l b := by
  obtain ⟨hlt, rfl⟩ := List.getElem?_eq_some_iff.1 hm
  rw [resetProgram_length] at hlt
  interval_cases k <;> exact nofun

/-! ## The obligations -/

/-- Settles O37: the pulses lead to the poll with a count of 0, and the poll reaches its limit; with no limit every response a step can present has
another status. -/
theorem resetSequenceTimesOut : Obligations.ResetSequenceTimesOut := by
  refine ⟨fun n c s hs hl hc hb => ⟨?_, ?_⟩, fun s t d hl h ht => ?_⟩
  · simp [pulseTrace, pollTrace_length]
    omega
  · rw [show 10 + 2 * n = (8 + 1) + (2 * n + 1) by omega, operate_add, operate_pulses le_rfl hs, andThen_next, State.pulsed_eight,
      operate_poll_timeout (c := 0) rfl (by simpa using hl) (by simp [hc]) (by exact hb)]
    simp [complete, State.respond, hs]
  · obtain ⟨hh, u, hu, rfl⟩ := step_next h
    rw [observeDevice_rsp] at ht
    obtain ⟨-, rfl⟩ | ⟨w, r, -, -, -, rfl⟩ | ⟨w, i, -, -, -, rfl⟩ | ⟨-, rfl, -⟩ | ⟨i, k, hs, hx, -⟩ := react_cases hu
    · cases ht
    · cases ht
    · rcases onAccept_rsp i { s with rsp := none, host := hh } with e | e <;> cases e.symm.trans ht
    · cases ht
    · obtain e | ⟨d', e⟩ := exec_rsp_unbounded hs hl hx <;> cases e.symm.trans ht

/-- Settles O38: the sample that reads 1 makes the synchronizer ready, and the settle delay that completes the operation does not look at the device. -/
theorem readyComesBeforeTheSettleDelay : Obligations.ReadyComesBeforeTheSettleDelay := by
  intro s hs hb
  refine ⟨_, (exec_sampleBusy hs).trans (congrArg _ (pollDecision_ready hb)), rfl, rfl, rfl, rfl, fun shown => ?_⟩
  exact ⟨_, exec_readySettle rfl, rfl, rfl, hb, rfl, rfl, rfl⟩

/-- Settles O39: the states after each pulse edge are those of `operate_pulses`, and no micro-operation after the pulses drives a line. -/
theorem fourResetTransitions : Obligations.FourResetTransitions := by
  refine ⟨fun s hs _ => ?_, fun s t k hs hk h => ?_⟩
  · exact ⟨s.pulsed 1, s.pulsed 3, s.pulsed 5, s.pulsed 7, s.pulsed 8, operate_pulses (by decide) hs, operate_pulses (by decide) hs,
      operate_pulses (by decide) hs, operate_pulses (by decide) hs, operate_pulses le_rfl hs, rfl, rfl, rfl, rfl, rfl, rfl, rfl⟩
  · obtain ⟨hidle, -⟩ | ⟨k', m, u, hs', hm, hu, rfl⟩ | ⟨j, k', hs', hj, -⟩ := exec_next h
    · simp [hs] at hidle
    · obtain rfl : k = k' := by simpa [hs] using hs'
      obtain ⟨hout, e, he, hd⟩ := perform_not_drives (resetProgram_not_drives_after_pulses hk hm .RSTN) hu
      obtain ⟨-, -, hrstn, -, -⟩ := follow_lines s.params .runResetSequence k u
      exact ⟨hrstn.trans hout, e, (follow_trace _ _ _ _).trans he, hd⟩
    · simp [hs, hj.symm] at hs'

end Sys2Proof.Machine
end

section
/-! Refusals: a word taken by an idle SPE is refused for one of two reasons, and a running operation only completes (R161, R162, R163). -/

namespace Sys2Proof.Machine

/-! ## A word taken by an idle SPE -/

/-- In `HW` acceptance of either read is the refusal (R161). -/
theorem onAccept_read_hw {i : Instr} {s : State} (hv : s.params.variant = .HW) (hi : i = .readByte ∨ i = .readChipId) :
    onAccept i s = refuse .UnsupportedOperation s := by
  rcases hi with rfl | rfl <;> simp [onAccept, acceptRead, hv]

/-- An operation that the variant provides is accepted with no response (R36). -/
theorem onAccept_rsp_provided {i : Instr} {s : State} (h : ¬ (s.params.variant = .HW ∧ (i = .readByte ∨ i = .readChipId))) :
    (onAccept i s).rsp = s.rsp := by
  have hread (j : Instr) (hv : s.params.variant ≠ .HW) : (acceptRead j s).rsp = s.rsp := by
    unfold acceptRead
    split
    · rfl
    · next hw => exact absurd hw hv
  cases i with
  | readByte => exact hread _ fun hv => h ⟨hv, .inl rfl⟩
  | readChipId => exact hread _ fun hv => h ⟨hv, .inr rfl⟩
  | _ => rfl

theorem acceptWord_op {w : Word} {i : Instr} {s : State} (hs : s.seq = .idle) (hw : decode w = .op i) :
    acceptWord w s = .next (onAccept i s) := by
  simp only [acceptWord, hw, exec_idle hs]

theorem acceptWord_reserved {w : Word} {r : Reserved} (hw : decode w = .reserved r) (s : State) :
    acceptWord w s = .next (refuse .IllegalOperation s) := by
  simp only [acceptWord, hw]

section Offered

variable {s : State} {w : Word} {rest : List HostMove}

theorem step_offered_op {i : Instr} (hs : s.seq = .idle) (hh : s.host = .present w :: rest ∨ s.host = .strobe w :: rest)
    (hw : decode w = .op i) : step s = .next (observeDevice (onAccept i { s with rsp := none, host := rest })) := by
  rw [step_offered hs hh, acceptWord_op (by exact hs) hw, andThen_next]

theorem step_offered_reserved {r : Reserved} (hs : s.seq = .idle) (hh : s.host = .present w :: rest ∨ s.host = .strobe w :: rest)
    (hw : decode w = .reserved r) :
    step s = .next (observeDevice (refuse .IllegalOperation { s with rsp := none, host := rest })) := by
  rw [step_offered hs hh, acceptWord_reserved hw, andThen_next]

/-- A read offered to an idle `HW` SPE: the step is the refusal (R161). -/
theorem step_offered_read_hw {i : Instr} (hs : s.seq = .idle) (hh : s.host = .present w :: rest ∨ s.host = .strobe w :: rest)
    (hw : decode w = .op i) (hv : s.params.variant = .HW) (hi : i = .readByte ∨ i = .readChipId) :
    step s = .next (observeDevice (refuse .UnsupportedOperation { s with rsp := none, host := rest })) := by
  rw [step_offered_op hs hh hw, onAccept_read_hw (by exact hv) hi]

end Offered

/-! ## A running operation -/

theorem advance_status {i : Instr} {len k : Nat} {s : State} {r : Response} (hs : s.rsp = none) (h : (advance i len k s).rsp = some r) :
    r.status = .OK := by
  obtain e | ⟨d, e⟩ := advance_rsp i len k s
  · simp [e, hs] at h
  · obtain rfl : ⟨.OK, d⟩ = r := Option.some.inj (e.symm.trans h)
    rfl

/-- A sample of `BUSY` presents no response, or ends the operation with `Timeout` (R146, R150). -/
theorem pollDecision_rsp (s : State) : (pollDecision s).rsp = s.rsp ∨ (pollDecision s).rsp = some ⟨.Timeout, []⟩ := by
  unfold pollDecision
  split
  · exact .inl rfl
  · unfold notReady
    split
    · exact .inl rfl
    · split
      · exact .inr rfl
      · exact .inl rfl

theorem resetFollow_status {len k : Nat} {s : State} {r : Response} (hs : s.rsp = none) (h : (resetFollow len k s).rsp = some r) :
    r.status = .OK ∨ r.status = .Timeout := by
  unfold resetFollow at h
  split at h
  · obtain e | e := pollDecision_rsp s
    · simp [e, hs] at h
    · obtain rfl : ⟨.Timeout, []⟩ = r := Option.some.inj (e.symm.trans h)
      exact .inr rfl
  · split at h
    · simp [hs] at h
    · exact .inl (advance_status hs h)

/-- What follows a micro-operation presents a response only by completing the operation. -/
theorem follow_status {p : Params} {i : Instr} {k : Nat} {s : State} {r : Response} (hs : s.rsp = none)
    (h : (follow p i k s).rsp = some r) : r.status = .OK ∨ r.status = .Timeout := by
  by_cases hi : i = .runResetSequence
  · subst hi
    exact resetFollow_status hs h
  · rw [follow_linear hi] at h
    exact .inl (advance_status hs h)

theorem exec_running_status {i : Instr} {k : Nat} {s t : State} {r : Response} (hs : s.seq = .run i k) (hn : s.rsp = none)
    (h : exec i s = .next t) (hr : t.rsp = some r) : r.status = .OK ∨ r.status = .Timeout := by
  obtain ⟨hidle, -⟩ | ⟨k', m, u, -, -, hu, rfl⟩ | ⟨-, -, -, -, rfl⟩ := exec_next h
  · simp [hs] at hidle
  · exact follow_status ((perform_frame hu).rsp.trans hn) hr
  · simp [hn] at hr

/-- A step of a running operation answers nothing, or the status of a completion: engine reset answers nothing, and a word offered is dropped. -/
theorem step_running_status {s t : State} {i : Instr} {k : Nat} {r : Response} (hs : s.seq = .run i k) (h : step s = .next t)
    (hr : t.rsp = some r) : r.status = .OK ∨ r.status = .Timeout := by
  obtain ⟨hh, u, hu, rfl⟩ := step_next h
  rw [observeDevice_rsp] at hr
  obtain ⟨-, rfl⟩ | ⟨w, r', hidle, -⟩ | ⟨w, j, hidle, -⟩ | ⟨hidle, -⟩ | ⟨j, k', hj, hx, -⟩ := react_cases hu
  · cases hr
  · simp [hs] at hidle
  · simp [hs] at hidle
  · simp [hs] at hidle
  · exact exec_running_status hj rfl hx hr

/-! ## The obligations -/

/-- Settles O8: an offered read is refused in `HW`, and every other offered operation is accepted with no response. -/
theorem unsupportedExactlyForReadsInHw : Obligations.UnsupportedExactlyForReadsInHw := by
  refine ⟨fun s w i rest hs hh hw => ?_, fun s t i k r hs h hr hst => ?_⟩
  · by_cases hi : s.params.variant = .HW ∧ (i = .readByte ∨ i = .readChipId)
    · exact ⟨_, step_offered_read_hw hs hh hw hi.1 hi.2, iff_of_true ⟨[], rfl⟩ hi, fun _ _ => ⟨rfl, rfl⟩⟩
    · refine ⟨_, step_offered_op hs hh hw, iff_of_false ?_ hi, fun hv hread => absurd ⟨hv, hread⟩ hi⟩
      rintro ⟨d, hd⟩
      rw [observeDevice_rsp, onAccept_rsp_provided (by exact hi)] at hd
      cases hd
  · rcases step_running_status hs h hr with e | e <;> cases hst.symm.trans e

/-- Settles O9: a reserved word is refused, and acceptance of an operation presents no response or `UnsupportedOperation`. -/
theorem illegalExactlyForReservedWords : Obligations.IllegalExactlyForReservedWords := by
  refine ⟨fun s w rest hs hh => ⟨fun ⟨_, hw⟩ => step_offered_reserved hs hh hw, ?_⟩, fun s t i k r hs h hr hst => ?_⟩
  · cases hw : decode w with
    | reserved r => exact ⟨_, step_offered_reserved hs hh hw, iff_of_true ⟨[], rfl⟩ ⟨r, rfl⟩⟩
    | op i =>
      refine ⟨_, step_offered_op hs hh hw, iff_of_false ?_ nofun⟩
      rintro ⟨d, hd⟩
      rcases onAccept_rsp i { s with rsp := none, host := rest } with e | e <;> cases e.symm.trans hd
  · rcases step_running_status hs h hr with e | e <;> cases hst.symm.trans e

/-- Settles O10: for either reason the step is the refusal `refuse`, whose fields are those of the state before but for the response. -/
theorem refusalChangesNothing : Obligations.RefusalChangesNothing := by
  refine ⟨fun s w rest hs hh st hst => ?_, fun _ _ _ _ _ => step_running_status⟩
  have hstep : step s = .next (observeDevice (refuse st { s with rsp := none, host := rest })) := by
    obtain ⟨rfl, r, hw⟩ | ⟨rfl, hv, hw | hw⟩ := hst
    · exact step_offered_reserved hs hh hw
    · exact step_offered_read_hw hs hh hw hv (.inl rfl)
    · exact step_offered_read_hw hs hh hw hv (.inr rfl)
  exact ⟨_, hstep, by simp [State.cmdReady, hs]⟩

end Sys2Proof.Machine
end

section
/-! The encoder as the inverse of the decoder, the rows of the opcode map, and the count of the legal words (R85 to R89). -/

namespace Sys2Proof

/-! ## Decode and encode -/

/-- The fields of a legal word are those of the operation it is read as. -/
theorem fields_of_decode_eq_op {w : Word} {i : Instr} (h : decode w = .op i) :
    zField w = 0 ∧ opField w = opCode i ∧ argField w = arg i := by
  have hN {j : Instr} (hj : arg j = 0) (hd : formatN j w = .op i) : opCode i = opCode j ∧ argField w = arg i := by
    unfold formatN at hd
    split at hd
    · next ha =>
      obtain rfl : j = i := Decoded.op.inj hd
      exact ⟨rfl, ha.trans hj.symm⟩
    · cases hd
  unfold decode at h
  split_ifs at h with hz h1 h2 h3 h4 h5 h6
  all_goals refine ⟨not_not.mp hz, ?_⟩
  · obtain rfl := Decoded.op.inj h
    exact ⟨h1, rfl⟩
  · obtain ⟨ho, ha⟩ := hN rfl h
    exact ⟨h2.trans ho.symm, ha⟩
  · obtain rfl := Decoded.op.inj h
    exact ⟨h3, rfl⟩
  · obtain rfl := Decoded.op.inj h
    exact ⟨h4, rfl⟩
  · obtain ⟨ho, ha⟩ := hN rfl h
    exact ⟨h5.trans ho.symm, ha⟩
  · obtain ⟨ho, ha⟩ := hN rfl h
    exact ⟨h6.trans ho.symm, ha⟩

theorem decode_eq_op_iff_fields {w : Word} {i : Instr} :
    decode w = .op i ↔ zField w = 0 ∧ opField w = opCode i ∧ argField w = arg i :=
  ⟨fields_of_decode_eq_op, fun ⟨hz, ho, ha⟩ => decode_eq_op_of_fields hz ho ha⟩

theorem decode_encode (i : Instr) : decode (encode i) = .op i :=
  decode_eq_op_of_fields (zField_encode i) (opField_encode i) (argField_encode i)

/-- Settles O3: an operation and the word it is read from have the same three fields, and a word is its fields. -/
theorem decodeAndEncodeAgree : Obligations.DecodeAndEncodeAgree := by
  intro w i
  refine ⟨fun h => ?_, fun h => h ▸ decode_encode i⟩
  obtain ⟨hz, ho, ha⟩ := fields_of_decode_eq_op h
  rw [← word_of_fields w, hz, ho, ha]
  rfl

theorem encode_injective : Function.Injective encode := fun i j h =>
  Decoded.op.inj ((decode_encode i).symm.trans ((congrArg decode h).trans (decode_encode j)))

/-! ## The opcode map (R88) -/

/-- The mask of a row of format `A` keeps the fields `Z` and `OP`. -/
theorem and_mask_eq_iff_fields (w : Word) (o : BitVec 4) :
    w &&& 0xFF00 = (0#4 ++ o) ++ 0#8 ↔ zField w = 0 ∧ opField w = o := by
  have hmask : w &&& 0xFF00 = (zField w ++ opField w) ++ 0#8 :=
    calc w &&& 0xFF00
      _ = ((zField w ++ opField w) ++ argField w) &&& ((BitVec.allOnes 4 ++ BitVec.allOnes 4) ++ 0#8) := by rw [word_of_fields]; rfl
      _ = _ := by simp only [BitVec.and_append, BitVec.and_allOnes, BitVec.and_zero]
  rw [hmask, BitVec.append_left_inj]
  refine ⟨fun h => ?_, fun ⟨hz, ho⟩ => by rw [hz, ho]; rfl⟩
  have hz := congrArg (BitVec.extractLsb' 4 4) h
  have ho := congrArg (BitVec.extractLsb' 0 4) h
  simp only [BitVec.extractLsb'_append_eq_left, BitVec.extractLsb'_append_eq_right] at hz ho
  exact ⟨hz, ho⟩

/-- A row of format `A` is selected exactly when the word decodes to its operation, with some operand. -/
theorem row_selected_iff_decode {f : Byte → Instr} {o : BitVec 4} (hcode : ∀ v, opCode (f v) = o) (harg : ∀ v, arg (f v) = v) (w : Word) :
    w &&& 0xFF00 = (0#4 ++ o) ++ 0#8 ↔ ∃ v, decode w = .op (f v) := by
  simp only [and_mask_eq_iff_fields, decode_eq_op_iff_fields, hcode, harg]
  exact ⟨fun ⟨hz, ho⟩ => ⟨_, hz, ho, rfl⟩, fun ⟨_, hz, ho, _⟩ => ⟨hz, ho⟩⟩

/-- A row of format `N` is one word. -/
theorem word_selected_iff_decode (i : Instr) (w : Word) : w &&& 0xFFFF = encode i ↔ decode w = .op i := by
  rw [show w &&& 0xFFFF = w from BitVec.and_allOnes, decodeAndEncodeAgree]

/-- Settles O4: a row of format `A` asks for two fields of the word, a row of format `N` for all three. -/
theorem decodeAgreesWithTheOpcodeMap : Obligations.DecodeAgreesWithTheOpcodeMap := fun w =>
  ⟨row_selected_iff_decode (f := .writeByte) (fun _ => rfl) (fun _ => rfl) w, word_selected_iff_decode .readByte w,
    row_selected_iff_decode (f := .sendCommand) (fun _ => rfl) (fun _ => rfl) w,
    row_selected_iff_decode (f := .sendData) (fun _ => rfl) (fun _ => rfl) w, word_selected_iff_decode .readChipId w,
    word_selected_iff_decode .runResetSequence w⟩

/-! ## The vectors and the count (30_encoding.md section 5) -/

/-- Settles O1: each word is one case of the decoder. -/
theorem decodesTheSpecsWords : Obligations.DecodesTheSpecsWords := by
  unfold Obligations.DecodesTheSpecsWords
  decide

/-- Every value of a byte. -/
def allBytes : List Byte := (List.finRange (2 ^ 8)).map BitVec.ofFin

theorem allBytes_nodup : allBytes.Nodup :=
  have hinj : Function.Injective (BitVec.ofFin : Fin (2 ^ 8) → Byte) := fun _ _ h => BitVec.ofFin.inj h
  List.Nodup.map hinj (List.nodup_finRange _)

theorem mem_allBytes (v : Byte) : v ∈ allBytes := by
  rw [allBytes, List.mem_map]
  exact ⟨v.toFin, List.mem_finRange _, rfl⟩

/-- Every operation with every operand, each once. -/
def allInstrs : List Instr :=
  allBytes.map Instr.writeByte ++ allBytes.map Instr.sendCommand ++ allBytes.map Instr.sendData ++ [.readByte, .readChipId, .runResetSequence]

theorem allInstrs_length : allInstrs.length = 771 := by simp [allInstrs, allBytes]

theorem mem_allInstrs (i : Instr) : i ∈ allInstrs := by cases i <;> simp [allInstrs, mem_allBytes]

theorem allInstrs_nodup : allInstrs.Nodup := by
  have hwrite : (allBytes.map Instr.writeByte).Nodup := allBytes_nodup.map fun _ _ => Instr.writeByte.inj
  have hcommand : (allBytes.map Instr.sendCommand).Nodup := allBytes_nodup.map fun _ _ => Instr.sendCommand.inj
  have hdata : (allBytes.map Instr.sendData).Nodup := allBytes_nodup.map fun _ _ => Instr.sendData.inj
  simp only [allInstrs, List.nodup_append, hwrite, hcommand, hdata, List.mem_append, List.mem_map, true_and]
  refine ⟨⟨?_, ?_⟩, by decide, ?_⟩
  · rintro _ ⟨a, -, rfl⟩ _ ⟨b, -, rfl⟩
    exact nofun
  · rintro _ (⟨a, -, rfl⟩ | ⟨a, -, rfl⟩) _ ⟨b, -, rfl⟩ <;> exact nofun
  · rintro _ ((⟨a, -, rfl⟩ | ⟨a, -, rfl⟩) | ⟨a, -, rfl⟩) i hi rfl <;> simp at hi

/-- Whether a number, cut to 16 bits, is a legal word. -/
def isLegal (n : Nat) : Bool := (decode (BitVec.ofNat 16 n)).instr?.isSome

theorem isLegal_iff (n : Nat) : isLegal n = true ↔ ∃ i, encode i = BitVec.ofNat 16 n := by
  simp only [isLegal, Option.isSome_iff_exists, eq_comm (b := BitVec.ofNat 16 n), ← decodeAndEncodeAgree _ _]
  cases decode (BitVec.ofNat 16 n) <;> simp [Decoded.instr?]

/-- The legal words, as numbers, are the encodings of the operations. -/
theorem legalWords_perm {n : Nat} (hn : n = 2 ^ 16) : ((List.range n).filter isLegal).Perm (allInstrs.map fun i => (encode i).toNat) := by
  refine (List.perm_ext_iff_of_nodup (List.nodup_range.filter _) (allInstrs_nodup.map fun i j h => encode_injective (BitVec.eq_of_toNat_eq h))).2
    fun k => ?_
  simp only [List.mem_filter, List.mem_range, List.mem_map, mem_allInstrs, true_and, isLegal_iff, hn]
  constructor
  · rintro ⟨hk, i, hi⟩
    exact ⟨i, by rw [hi, BitVec.toNat_ofNat, Nat.mod_eq_of_lt hk]⟩
  · rintro ⟨i, rfl⟩
    exact ⟨(encode i).isLt, i, by rw [BitVec.ofNat_toNat, BitVec.setWidth_eq]⟩

theorem countP_isLegal {n : Nat} (hn : n = 2 ^ 16) : (List.range n).countP isLegal = 771 := by
  rw [List.countP_eq_length_filter, (legalWords_perm hn).length_eq, List.length_map, allInstrs_length]

theorem countP_reserved {n : Nat} (hn : n = 2 ^ 16) :
    ((List.range n).countP fun k => (decode (BitVec.ofNat 16 k)).instr?.isNone) = 64765 := by
  have hnone : (fun k => (decode (BitVec.ofNat 16 k)).instr?.isNone) = fun k => !isLegal k := by funext k; simp [isLegal]
  have hall := List.length_eq_countP_add_countP (l := List.range n) isLegal
  simp only [List.length_range, countP_isLegal hn, Bool.not_eq_true, Bool.decide_eq_false] at hall
  rw [hnone]
  omega

/-- Settles O5: encoding is a bijection from the operations to the legal words, and there are three times 256 operations with an operand and three
without; the other words are reserved. -/
theorem legalWordsAreCounted : Obligations.LegalWordsAreCounted := ⟨countP_isLegal rfl, countP_reserved rfl⟩

end Sys2Proof
end

section
/-! What no operation touches, and the invariant: it is kept, no step stops, and every event is lawful (R24, R25, R29, R151, R179). -/

namespace Sys2Proof.Machine

/-! ## What acceptance and the sequencer leave unchanged -/

/-- The fields that only a micro-operation, an engine reset or the device changes: everything but `SEQ`, `RSTATE`, `POLLCNT` and the responses. -/
structure ControlFrame (s t : State) : Prop where
  params : t.params = s.params
  sr : t.sr = s.sr
  rd0 : t.rd0 = s.rd0
  rd1 : t.rd1 = s.rd1
  sckOut : t.sckOut = s.sckOut
  sdaDir : t.sdaDir = s.sdaDir
  sdaOut : t.sdaOut = s.sdaOut
  sdaIn : t.sdaIn = s.sdaIn
  csnOut : t.csnOut = s.csnOut
  dcOut : t.dcOut = s.dcOut
  rstnOut : t.rstnOut = s.rstnOut
  busyIn : t.busyIn = s.busyIn
  host : t.host = s.host
  device : t.device = s.device
  trace : t.trace = s.trace
  contention : t.contention = s.contention

theorem advance_control (i : Instr) (len k : Nat) (s : State) : ControlFrame s (advance i len k s) := by
  unfold advance
  split <;> constructor <;> rfl

theorem notReady_control (s : State) : ControlFrame s (notReady s) := by
  unfold notReady
  split
  · constructor <;> rfl
  · split <;> constructor <;> rfl

theorem pollDecision_control (s : State) : ControlFrame s (pollDecision s) := by
  unfold pollDecision
  split
  · constructor <;> rfl
  · exact notReady_control s

theorem follow_control (p : Params) (i : Instr) (k : Nat) (s : State) : ControlFrame s (follow p i k s) := by
  by_cases hi : i = .runResetSequence
  · subst hi
    show ControlFrame s (resetFollow _ k s)
    unfold resetFollow
    split
    · exact pollDecision_control s
    · split
      · constructor <;> rfl
      · exact advance_control _ _ _ s
  · rw [follow_linear hi]
    exact advance_control _ _ _ s

theorem acceptRead_control (i : Instr) (s : State) : ControlFrame s (acceptRead i s) := by
  unfold acceptRead
  split <;> constructor <;> rfl

theorem onAccept_control (i : Instr) (s : State) : ControlFrame s (onAccept i s) := by
  cases i with
  | readByte => exact acceptRead_control _ s
  | readChipId => exact acceptRead_control _ s
  | _ => constructor <;> rfl

/-! ## A step of a running operation, from a state that meets the invariant -/

theorem exec_next_running {s t : State} {i : Instr} {k : Nat} (hs : s.seq = .run i k) (hx : exec i s = .next t) :
    ∃ m u, (microProgram s.params i)[k]? = some m ∧ m.perform s = .next u ∧ t = follow s.params i k u := by
  obtain ⟨hidle, -⟩ | ⟨k', m, u, hs', hm, hu, ht⟩ | ⟨j, k', hs', hj, -⟩ := exec_next hx
  · simp [hs] at hidle
  · obtain rfl : k = k' := by simpa [hs] using hs'
    exact ⟨m, u, hm, hu, ht⟩
  · simp [hs, hj.symm] at hs'

/-- The lines a running operation leaves are those of the next place in its micro-program, and `DIR` keeps to `OUT` in `HW`. -/
theorem perform_lines {s u : State} {i : Instr} {k : Nat} {m : MicroOp} (h : Inv s) (hs : s.seq = .run i k)
    (hm : (microProgram s.params i)[k]? = some m) (hu : m.perform s = .next u) :
    Tracks (Track.afterAll .rest ((microProgram s.params i).take (k + 1))) u ∧ (s.params.variant = .HW → u.sdaDir = .OUT) := by
  obtain ⟨m', u', e, hm', hu', -, -, htracks, hdir⟩ := running_performs h hs
  obtain rfl : m' = m := by simpa [hm] using hm'.symm
  obtain rfl : u' = u := by simpa [hu] using hu'.symm
  exact ⟨htracks, fun hv => (hdir hv).trans (h.hwDir hv)⟩

/-- A lawful poll count stays lawful where the sequencer does not enter a Reset Cycle. -/
theorem pollcntLawful_congr {s t : State} (h : pollcntLawful s) (hp : t.params = s.params) (hc : t.pollcnt = s.pollcnt)
    (hq : ∀ k, t.seq = .run .runResetSequence k → ∃ k', s.seq = .run .runResetSequence k') : pollcntLawful t := by
  unfold pollcntLawful at *
  rw [hp, hc]
  split at h
  · trivial
  · exact ⟨h.1, fun k hk => (hq k hk).elim h.2⟩
  · exact h
  · exact h

theorem advance_params (i : Instr) (len k : Nat) (s : State) : (advance i len k s).params = s.params := (advance_control i len k s).params

theorem advance_rstate (i : Instr) (len k : Nat) (s : State) : (advance i len k s).rstate = s.rstate := by
  unfold advance
  split <;> rfl

theorem advance_pollcnt (i : Instr) (len k : Nat) (s : State) : (advance i len k s).pollcnt = s.pollcnt := by
  unfold advance
  split <;> rfl

/-- The plain advance keeps the invariant, given the lines after the micro-operation: at rest after the last one. -/
theorem advance_inv {s u : State} {i : Instr} {k : Nat} (h : Inv s) (hs : s.seq = .run i k) (hk : k < (microProgram s.params i).length)
    (hp : u.params = s.params) (hc : u.pollcnt = s.pollcnt)
    (hlines : Tracks (Track.afterAll .rest ((microProgram s.params i).take (k + 1))) u) (hdir : s.params.variant = .HW → u.sdaDir = .OUT)
    (hrest : ∀ τ, Track.afterAll .rest (microProgram s.params i) = τ → τ.sck = false ∧ τ.csn = true ∧ τ.rstn = true)
    (hr : if k + 1 < (microProgram s.params i).length ∧ i = .runResetSequence then rstateAt (k + 1) u.rstate = true
      else restingRState u.rstate = true) : Inv (advance i (microProgram s.params i).length k u) := by
  by_cases hlast : k + 1 = (microProgram s.params i).length
  · obtain ⟨hsck, hcsn, hrstn⟩ := hrest _ rfl
    rw [hlast, List.take_length] at hlines
    have hseq : (advance i (microProgram s.params i).length k u) = complete .OK (responseData i u) u := if_pos hlast
    rw [hseq]
    refine ⟨hp ▸ h.params, ⟨hlines.sck.trans hsck, hlines.csn.trans hcsn, hlines.rstn.trans hrstn, ?_⟩, hp ▸ hdir, ?_⟩
    · rw [if_neg (by omega)] at hr
      exact hr
    · exact pollcntLawful_congr h.pollcnt hp hc nofun
  · have hseq : (advance i (microProgram s.params i).length k u) = { u with seq := .run i (k + 1) } := if_neg hlast
    rw [hseq]
    refine ⟨hp ▸ h.params, (linesLawful_run rfl).2 ⟨?_, ?_, ?_⟩, hp ▸ hdir, ?_⟩
    · rw [hp]; omega
    · rw [hp]; exact hlines.congr rfl rfl rfl rfl
    · split
      · next hi => rw [if_pos ⟨by omega, hi⟩] at hr; exact hr
      · next hi => rw [if_neg (by tauto)] at hr; exact hr
    · refine pollcntLawful_congr h.pollcnt hp hc fun k' hk' => ⟨k, ?_⟩
      simp only [Seq.run.injEq] at hk'
      rw [hs, hk'.1]

/-- A step of a linear operation keeps the invariant. -/
theorem exec_linear_inv {s t : State} {i : Instr} {k : Nat} (h : Inv s) (hs : s.seq = .run i k) (hi : i ≠ .runResetSequence)
    (hx : exec i s = .next t) : Inv t := by
  obtain ⟨m, u, hm, hu, rfl⟩ := exec_next_running hs hx
  obtain ⟨hlines, hdir⟩ := perform_lines h hs hm hu
  obtain ⟨hk, -, hr⟩ := (linesLawful_run hs).1 h.lines
  have f := perform_frame hu
  rw [follow_linear hi]
  refine advance_inv h hs hk f.params f.pollcnt hlines hdir (linear_safe _ _ hi).2 ?_
  have hwrites : setsRState m = false := by
    have := List.all_eq_true.1 (linear_rstate s.params i hi) m (List.mem_of_getElem? hm)
    simpa using this
  rw [if_neg (fun hc => hi hc.2), perform_rstate hu hwrites]
  rwa [if_neg hi] at hr

/-! ## The Reset Cycle -/

/-- A micro-operation with no register write after its primitive leaves `RSTATE` where its first writes put it. -/
theorem perform_rstate_before {m : MicroOp} {s t : State} (h : m.perform s = .next t) (hm : m.after = []) :
    t.rstate = (applyWrites m.before s).rstate := by
  have h' : (⟨[], m.prim, []⟩ : MicroOp).perform (applyWrites m.before s) = .next t := by
    simpa [MicroOp.perform, hm] using h
  exact perform_rstate h' rfl

/-- `RSTATE` follows its chain (R30, R142): after each micro-operation but the sample of `BUSY` it may hold what the next place asks for. -/
theorem resetProgram_rstate {p : Params} {k : Nat} {m : MicroOp} {s t : State} (hm : (resetProgram p)[k]? = some m) (h8 : k < 8)
    (hr : rstateAt k s.rstate = true) (h : m.perform s = .next t) : rstateAt (k + 1) t.rstate = true := by
  obtain ⟨hk, rfl⟩ := List.getElem?_eq_some_iff.1 hm
  have hbefore := perform_rstate_before h (by interval_cases k <;> rfl)
  rw [hbefore]
  interval_cases k
  · rfl
  · exact hr
  · rfl
  · exact hr
  · rfl
  · exact hr
  · rfl
  · have h7 : s.rstate = .Released2 := of_decide_eq_true hr
    show rstateAt 8 s.rstate = true
    rw [h7]
    rfl

/-- Micro-operations 8 to 10 of a Reset Cycle find the lines at rest. -/
theorem resetProgram_tracks_poll (p : Params) {k : Nat} (hk : 8 ≤ k) (hk' : k ≤ 11) :
    Track.afterAll .rest ((microProgram p .runResetSequence).take k) = .rest := by
  interval_cases k <;> rfl

/-- A state on its way through the poll meets the invariant at any of the three places, with the `RSTATE` of that place. -/
theorem Inv.to_poll {s : State} (h : Inv s) (hs : s.seq = .run .runResetSequence 8) {k : Nat} (hk : 8 ≤ k) (hk' : k ≤ 10) {r : RState}
    (hr : rstateAt k r = true) {c : Option Nat} (hc : pollcntLawful { s with pollcnt := c }) :
    Inv { s with seq := .run .runResetSequence k, rstate := r, pollcnt := c } := by
  obtain ⟨-, htracks, -⟩ := (linesLawful_run hs).1 h.lines
  rw [resetProgram_tracks_poll _ le_rfl (by omega)] at htracks
  refine ⟨h.params, (linesLawful_run rfl).2 ⟨?_, ?_, by simpa using hr⟩, h.hwDir, ?_⟩
  · exact (show k < 11 by omega)
  · rw [resetProgram_tracks_poll _ hk (by omega)]
    exact htracks.congr rfl rfl rfl rfl
  · exact pollcntLawful_congr hc rfl rfl fun _ _ => ⟨8, hs⟩

/-- The decision after a sample of `BUSY` keeps the invariant: on to the settle delay, on to the poll interval with the count below the limit, or to
rest when the count reaches it (R146, R150). -/
theorem pollDecision_inv {s : State} (h : Inv s) (hs : s.seq = .run .runResetSequence 8) (hr : s.rstate = .AwaitingBusy) :
    Inv (pollDecision s) := by
  have hpoll {c : Option Nat} (hc : pollcntLawful { s with pollcnt := c }) :
      Inv { s with seq := .run .runResetSequence 9, rstate := s.rstate, pollcnt := c } :=
    h.to_poll hs (by decide) (by decide) (by rw [hr]; rfl) hc
  unfold pollDecision
  split
  · exact h.to_poll hs (by decide) le_rfl rfl h.pollcnt
  · have hc := h.pollcnt
    unfold notReady
    cases hl : s.params.busyPollLimit with
    | none => exact hpoll h.pollcnt
    | some n =>
      cases hcnt : s.pollcnt with
      | none => simp [pollcntLawful, hl, hcnt] at hc
      | some c =>
        have hlt : c < n := by
          simp only [pollcntLawful, hl, hcnt] at hc
          exact hc.2 8 hs
        simp only [Option.getD_some]
        split
        · next hn =>
          obtain ⟨-, htracks, -⟩ := (linesLawful_run hs).1 h.lines
          rw [resetProgram_tracks_poll _ le_rfl (by decide)] at htracks
          refine ⟨h.params, ⟨htracks.sck, htracks.csn, htracks.rstn, rfl⟩, h.hwDir, ?_⟩
          simp only [pollcntLawful, timeout, complete, State.respond, hl]
          exact ⟨hn.le, nofun⟩
        · next hn =>
          refine hpoll ?_
          simp only [pollcntLawful, hl]
          exact ⟨by omega, fun _ _ => by omega⟩

/-- A step of a Reset Cycle keeps the invariant. -/
theorem exec_reset_inv {s t : State} {k : Nat} (h : Inv s) (hs : s.seq = .run .runResetSequence k) (hx : exec .runResetSequence s = .next t) :
    Inv t := by
  obtain ⟨m, u, hm, hu, rfl⟩ := exec_next_running hs hx
  obtain ⟨hlines, hdir⟩ := perform_lines h hs hm hu
  obtain ⟨hk, -, hr⟩ := (linesLawful_run hs).1 h.lines
  rw [if_pos rfl] at hr
  have f := perform_frame hu
  have hcnt : pollcntLawful u := pollcntLawful_congr h.pollcnt f.params f.pollcnt fun k' hk' => ⟨k', f.seq ▸ hk'⟩
  have hk11 : k < 11 := hk
  have hplain (h8 : k ≠ 8) (h9 : k ≠ 9) (hnext : if k + 1 < 11 then rstateAt (k + 1) u.rstate = true else restingRState u.rstate = true) :
      Inv (follow s.params .runResetSequence k u) := by
    rw [show follow s.params .runResetSequence k u = advance .runResetSequence (microProgram s.params .runResetSequence).length k u by
      simp [follow, resetFollow, h8, h9]]
    exact advance_inv h hs hk f.params f.pollcnt hlines hdir (by rintro τ rfl; exact ⟨rfl, rfl, rfl⟩)
      (by simpa [show (microProgram s.params .runResetSequence).length = 11 from rfl] using hnext)
  obtain h8 | rfl | rfl | rfl : k < 8 ∨ k = 8 ∨ k = 9 ∨ k = 10 := by omega
  · exact hplain (by omega) (by omega) (by rw [if_pos (by omega)]; exact resetProgram_rstate hm h8 hr hu)
  · obtain rfl : _ = m := Option.some.inj hm
    have hrst : u.rstate = .AwaitingBusy := perform_rstate_before hu rfl
    have hu8 : Inv u := by
      rw [resetProgram_tracks_poll _ (by decide) (by decide)] at hlines
      refine ⟨f.params ▸ h.params, (linesLawful_run (f.seq.trans hs)).2 ⟨?_, ?_, by simp [hrst, rstateAt]⟩, f.params ▸ hdir, hcnt⟩
      · rw [f.params]; exact hk
      · rw [resetProgram_tracks_poll _ (by decide) (by decide)]; exact hlines
    exact pollDecision_inv hu8 (f.seq.trans hs) hrst
  · obtain rfl : _ = m := Option.some.inj hm
    have hrst : u.rstate = s.rstate := perform_rstate_before hu rfl
    rw [resetProgram_tracks_poll _ (by decide) (by decide)] at hlines
    have h9 : u.rstate = .AwaitingBusy := hrst.trans (of_decide_eq_true hr)
    show Inv { u with seq := .run .runResetSequence 8 }
    refine ⟨f.params ▸ h.params, (linesLawful_run (k := 8) rfl).2 ⟨?_, ?_, ?_⟩, f.params ▸ hdir, ?_⟩
    · exact (by decide : 8 < 11)
    · rw [resetProgram_tracks_poll _ (by decide) (by decide)]
      exact hlines.congr rfl rfl rfl rfl
    · simp [h9, rstateAt]
    · exact pollcntLawful_congr hcnt rfl rfl fun _ _ => ⟨9, f.seq.trans hs⟩
  · obtain rfl : _ = m := Option.some.inj hm
    have hrst : u.rstate = s.rstate := perform_rstate_before hu rfl
    refine hplain (by decide) (by decide) ?_
    rw [if_neg (by decide), hrst, show s.rstate = .Ready from of_decide_eq_true hr]
    rfl

/-! ## A step of the machine -/

/-- A step of any operation keeps the invariant. -/
theorem exec_inv {s t : State} {i : Instr} {k : Nat} (h : Inv s) (hs : s.seq = .run i k) (hx : exec i s = .next t) : Inv t := by
  by_cases hi : i = .runResetSequence
  · subst hi
    exact exec_reset_inv h hs hx
  · exact exec_linear_inv h hs hi hx

theorem pollcntLawful_idle_zero {s : State} (hs : s.seq = .idle) (hc : s.pollcnt = s.params.busyPollLimit.map fun _ => 0) :
    pollcntLawful s := by
  unfold pollcntLawful
  rw [hc]
  cases s.params.busyPollLimit <;> simp [hs]

theorem engineReset_inv {s : State} (h : Inv s) : Inv (engineReset s) := by
  refine ⟨h.params, ⟨rfl, rfl, rfl, rfl⟩, fun hv => ?_, pollcntLawful_idle_zero rfl rfl⟩
  rw [show (engineReset s).sdaDir = resetDir s.params.variant from rfl, show s.params.variant = .HW from hv]
  rfl

theorem Inv.of_host {s : State} (h : Inv s) (host : List HostMove) : Inv { s with rsp := none, host := host } :=
  h.congr rfl rfl rfl rfl rfl rfl rfl rfl

/-- Settles O46: each way the machine can react keeps the invariant, and noting the shared wire touches none of its fields. -/
theorem stepKeepsTheInvariant : Obligations.StepKeepsTheInvariant := by
  intro s t h hstep
  obtain ⟨hh, u, hu, rfl⟩ := step_next hstep
  have hs := h.of_host hh
  suffices hu' : Inv u from hu'.congr rfl rfl rfl rfl rfl rfl rfl rfl
  obtain ⟨-, rfl⟩ | ⟨w, r, -, -, -, rfl⟩ | ⟨w, i, hidle, -, -, rfl⟩ | ⟨-, rfl, -⟩ | ⟨i, k, hrun, hx, -⟩ := react_cases hu
  · exact engineReset_inv hs
  · exact hs.congr rfl rfl rfl rfl rfl rfl rfl rfl
  · exact onAccept_inv _ hs hidle i
  · exact hs
  · exact exec_inv hs hrun hx

theorem acceptWord_answers {w : Word} {s : State} (hs : s.seq = .idle) : ∃ t, acceptWord w s = .next t := by
  cases hw : decode w with
  | op i => exact ⟨_, acceptWord_op hs hw⟩
  | reserved r => exact ⟨_, acceptWord_reserved hw s⟩

/-- Settles O47: engine reset, acceptance and refusal always answer, and a running operation performs its micro-operation. -/
theorem noStepStops : Obligations.NoStepStops := by
  intro s h
  obtain ⟨hh, he⟩ := step_fetch s
  have hproceed : ∃ t, proceed { s with rsp := none, host := hh } = .next t := by
    unfold proceed
    split
    · exact ⟨_, rfl⟩
    · next hrun => exact exec_runs (h.of_host hh) hrun
  have hreact : ∃ t, react (fetch s.clearRsp).1 { s with rsp := none, host := hh } = .next t := by
    unfold react
    split
    · exact ⟨_, rfl⟩
    · split
      · next hidle =>
        exact acceptWord_answers hidle
      · exact hproceed
    · exact hproceed
  obtain ⟨t, ht⟩ := hreact
  exact ⟨observeDevice t, by rw [step, stepOnce, he, ht]; rfl⟩

/-- Settles O48: only a running operation emits an event, and that event is lawful at its place in the micro-program. -/
theorem everyEventIsLawful : Obligations.EveryEventIsLawful := by
  intro s t e h hstep htrace
  obtain ⟨hh, u, hu, rfl⟩ := step_next hstep
  rw [observeDevice_trace] at htrace
  obtain ⟨-, rfl⟩ | ⟨w, r, -, -, -, rfl⟩ | ⟨w, i, -, -, -, rfl⟩ | ⟨-, rfl, -⟩ | ⟨i, k, hrun, hx, -⟩ := react_cases hu
  · simp [engineReset] at htrace
  · simp at htrace
  · simp [onAccept_trace] at htrace
  · simp at htrace
  · obtain ⟨m, v, hm, hv, rfl⟩ := exec_next_running hrun hx
    obtain ⟨m', v', e', hm', hv', he', hlawful, -⟩ := running_performs (h.of_host hh) hrun
    obtain rfl : m' = m := by simpa [hm] using hm'.symm
    obtain rfl : v' = v := by simpa [hv] using hv'.symm
    rw [follow_trace, he'] at htrace
    obtain rfl : e' = e := by simpa using htrace
    exact hlawful

/-- Settles O45: engine reset leaves the lines at rest and the count at 0. -/
theorem resetMeetsTheInvariant : Obligations.ResetMeetsTheInvariant := by
  have hreset (p : Params) (a b : Level) (hp : p.wellFormed = true) : Inv (State.resetWith p a b) := by
    refine ⟨hp, ⟨rfl, rfl, rfl, rfl⟩, fun hv => ?_, pollcntLawful_idle_zero rfl rfl⟩
    simp only [State.resetWith, show p.variant = .HW from hv, resetDir]
  exact ⟨hreset, hreset _ _ _ (by simp [Params.wellFormed, Config.default, Config.T_EDGE])⟩

end Sys2Proof.Machine
end

section
/-! What each operation leaves unchanged, read off what its micro-operations touch; one event per micro-operation; output lines hold their level
(`10_state.md` sections 1 and 3, R25, R29, R66). -/

namespace Sys2Proof.Machine

/-! ## What a micro-operation touches -/

/-- The places of the state that micro-operations write: registers, `DIR`, lines, and the device's side. -/
inductive Place where
  | sr | rd0 | rd1 | rstate | dir | out (l : OutLine) | inp (l : InLine) | device
deriving DecidableEq

/-- What a place holds is the same in both states; a line that is sampled counts with the device's script of its levels. -/
def Place.Kept (q : Place) (s t : State) : Prop :=
  match q with
  | .sr => t.sr = s.sr
  | .rd0 => t.rd0 = s.rd0
  | .rd1 => t.rd1 = s.rd1
  | .rstate => t.rstate = s.rstate
  | .dir => t.sdaDir = s.sdaDir
  | .out l => t.out l = s.out l
  | .inp .SDA => t.sdaIn = s.sdaIn ∧ t.device.sda = s.device.sda
  | .inp .BUSY => t.busyIn = s.busyIn ∧ t.device.busy = s.device.busy
  | .device => t.device = s.device

/-- The place a register write changes. -/
def RegWrite.place : RegWrite → Place
  | .loadSr _ => .sr
  | .shiftSr => .sr
  | .insertSr => .sr
  | .rd0FromSr => .rd0
  | .rd1FromSr => .rd1
  | .setRState _ => .rstate

/-- The places a line primitive changes (R51 to R60). -/
def Prim.places : Prim → List Place
  | .setdir _ => [.dir]
  | .drive l _ => [.out l]
  | .sample l => [.inp l, .device]
  | .delayEdge => []
  | .sleep _ => []
  | .xfer _ => []

def MicroOp.places (m : MicroOp) : List Place := m.before.map RegWrite.place ++ m.prim.places ++ m.after.map RegWrite.place

theorem Place.Kept.refl (q : Place) (s : State) : q.Kept s s := by
  cases q with
  | inp l => cases l <;> exact ⟨rfl, rfl⟩
  | _ => rfl

theorem Place.Kept.trans {q : Place} {s t u : State} (h : q.Kept s t) (h' : q.Kept t u) : q.Kept s u := by
  cases q with
  | inp l => cases l <;> exact ⟨h'.1.trans h.1, h'.2.trans h.2⟩
  | _ => exact Eq.trans h' h

theorem RegWrite.apply_kept {w : RegWrite} {q : Place} (h : q ≠ w.place) (s : State) : q.Kept s (w.apply s) := by
  have f := w.apply_frame s
  cases q with
  | sr =>
    cases w with
    | loadSr v => exact absurd rfl h
    | shiftSr => exact absurd rfl h
    | insertSr => exact absurd rfl h
    | _ => rfl
  | rd0 =>
    cases w with
    | rd0FromSr => exact absurd rfl h
    | _ => rfl
  | rd1 =>
    cases w with
    | rd1FromSr => exact absurd rfl h
    | _ => rfl
  | rstate =>
    cases w with
    | setRState r => exact absurd rfl h
    | _ => rfl
  | dir => exact f.sdaDir
  | out l => exact applyWrites_out [w] l s
  | inp l =>
    cases l with
    | SDA => exact ⟨f.sdaIn, congrArg _ f.device⟩
    | BUSY => exact ⟨f.busyIn, congrArg _ f.device⟩
  | device => exact f.device

theorem applyWrites_kept {ws : List RegWrite} {q : Place} (h : q ∉ ws.map RegWrite.place) (s : State) : q.Kept s (applyWrites ws s) := by
  induction ws generalizing s with
  | nil => exact .refl q s
  | cons w ws ih =>
    simp only [List.map_cons, List.mem_cons, not_or] at h
    exact (RegWrite.apply_kept h.1 s).trans (ih h.2 _)

theorem emit_kept (q : Place) (e : Event) (s : State) : q.Kept s (s.emit e) := by
  cases q with
  | inp l => cases l <;> exact ⟨rfl, rfl⟩
  | out l => exact State.out_emit l e s
  | _ => rfl

theorem setOut_kept {q : Place} {l : OutLine} (h : q ≠ .out l) (b : Level) (s : State) : q.Kept s (s.setOut l b) := by
  cases q with
  | inp l' => cases l' <;> simp [Place.Kept]
  | out l' => exact State.out_setOut_other (fun e => h (congrArg Place.out e)) b s
  | _ => simp [Place.Kept]

theorem setdir_kept {q : Place} (h : q ≠ .dir) (d : Dir) (s : State) : q.Kept s (setdir d s) := by
  cases q with
  | dir => exact absurd rfl h
  | inp l => cases l <;> exact ⟨rfl, rfl⟩
  | out l => cases l <;> rfl
  | _ => rfl

theorem sampled_kept {q : Place} {l : InLine} (h : q ≠ .inp l) (h' : q ≠ .device) (s : State) : q.Kept s (sampled l s) := by
  cases q with
  | device => exact absurd rfl h'
  | inp l' =>
    cases l <;> cases l'
    · exact absurd rfl h
    · exact ⟨rfl, Device.afterSda_busy _⟩
    · exact ⟨rfl, Device.afterBusy_sda _⟩
    · exact absurd rfl h
  | out l' => cases l <;> cases l' <;> rfl
  | _ => cases l <;> rfl

theorem runPrim_kept {p : Prim} {q : Place} {s t : State} (h : q ∉ p.places) (hp : runPrim p s = .next t) : q.Kept s t := by
  obtain ⟨d, rfl, rfl⟩ | ⟨l, b, rfl, -, rfl⟩ | ⟨l, rfl, -, rfl⟩ | ⟨-, rfl⟩ | ⟨n, -, rfl⟩ | ⟨tx, -, rfl⟩ := runPrim_next hp
  · exact setdir_kept (by simpa [Prim.places] using h) d s
  · exact (setOut_kept (by simpa [Prim.places] using h) _ s).trans (emit_kept _ _ _)
  · simp only [Prim.places, List.mem_cons, List.not_mem_nil, or_false, not_or] at h
    exact sampled_kept h.1 h.2 s
  · exact emit_kept _ _ s
  · exact emit_kept _ _ s
  · exact emit_kept _ _ s

theorem perform_kept {m : MicroOp} {q : Place} {s t : State} (h : q ∉ m.places) (hp : m.perform s = .next t) : q.Kept s t := by
  obtain ⟨u, hu, rfl⟩ := perform_next hp
  simp only [MicroOp.places, List.mem_append, not_or] at h
  obtain ⟨⟨hbefore, hprim⟩, hafter⟩ := h
  exact ((applyWrites_kept hbefore s).trans (runPrim_kept hprim hu)).trans (applyWrites_kept hafter u)

theorem ControlFrame.kept {q : Place} {s t : State} (f : ControlFrame s t) (h : q ≠ .rstate) : q.Kept s t := by
  cases q with
  | sr => exact f.sr
  | rd0 => exact f.rd0
  | rd1 => exact f.rd1
  | rstate => exact absurd rfl h
  | dir => exact f.sdaDir
  | out l =>
    cases l with
    | SCK => exact f.sckOut
    | SDA => exact f.sdaOut
    | CSN => exact f.csnOut
    | DC => exact f.dcOut
    | RSTN => exact f.rstnOut
  | inp l =>
    cases l with
    | SDA => exact ⟨f.sdaIn, congrArg _ f.device⟩
    | BUSY => exact ⟨f.busyIn, congrArg _ f.device⟩
  | device => exact f.device

/-! ## What an operation touches -/

/-- The places a write frame changes: in `HW` the transfer is one event and changes none (R101, R103). -/
def writePlaces : Variant → List Place
  | .SW => [.sr, .dir, .out .SCK, .out .SDA]
  | .HW => []

/-- The places each operation changes (R101 to R142), but for `SEQ`, `POLLCNT` and the responses. -/
def operationPlaces (v : Variant) (i : Instr) : List Place :=
  match i, v with
  | .writeByte _, _ => writePlaces v
  | .sendCommand _, _ => [.out .CSN, .out .DC] ++ writePlaces v
  | .sendData _, _ => [.out .CSN, .out .DC] ++ writePlaces v
  | .readByte, .SW => [.sr, .rd0, .dir, .out .SCK, .inp .SDA, .device]
  | .readChipId, .SW => [.sr, .rd0, .rd1, .dir, .out .SCK, .out .SDA, .out .CSN, .out .DC, .inp .SDA, .device]
  | .readByte, .HW => []
  | .readChipId, .HW => []
  | .runResetSequence, _ => [.rstate, .out .RSTN, .inp .BUSY, .device]

/-- Every micro-operation of an operation keeps to the operation's places. -/
theorem microProgram_places (p : Params) (i : Instr) :
    (microProgram p i).all (fun m => m.places.all fun q => decide (q ∈ operationPlaces p.variant i)) = true := by
  obtain ⟨v, a, b, c, d, e, f, g, h, j⟩ := p
  cases v <;> cases i <;> rfl

theorem places_of_microProgram {p : Params} {i : Instr} {k : Nat} {m : MicroOp} (hm : (microProgram p i)[k]? = some m) {q : Place}
    (hq : q ∉ operationPlaces p.variant i) : q ∉ m.places := fun hmem =>
  hq (of_decide_eq_true (List.all_eq_true.1 (List.all_eq_true.1 (microProgram_places p i) m (List.mem_of_getElem? hm)) q hmem))

theorem ne_runResetSequence_of_rstate {v : Variant} {i : Instr} (h : Place.rstate ∉ operationPlaces v i) : i ≠ .runResetSequence := by
  rintro rfl
  exact h (.head _)

/-- Only a Reset Cycle's sequencer writes `RSTATE`. -/
theorem follow_kept {p : Params} {q : Place} {i : Instr} (h : q ∉ operationPlaces p.variant i) (k : Nat) (s : State) :
    q.Kept s (follow p i k s) := by
  by_cases hq : q = .rstate
  · subst hq
    rw [follow_linear (ne_runResetSequence_of_rstate h)]
    exact advance_rstate _ _ _ s
  · exact (follow_control p i k s).kept hq

theorem acceptRead_rstate (i : Instr) (s : State) : (acceptRead i s).rstate = s.rstate ∧ (acceptRead i s).pollcnt = s.pollcnt := by
  unfold acceptRead
  split <;> exact ⟨rfl, rfl⟩

/-- Acceptance of an operation other than `runResetSequence` leaves the synchronizer (R36, R142). -/
theorem onAccept_synchronizer {i : Instr} (hi : i ≠ .runResetSequence) (s : State) :
    (onAccept i s).rstate = s.rstate ∧ (onAccept i s).pollcnt = s.pollcnt := by
  cases i with
  | runResetSequence => exact absurd rfl hi
  | readByte => exact acceptRead_rstate _ s
  | readChipId => exact acceptRead_rstate _ s
  | _ => exact ⟨rfl, rfl⟩

theorem onAccept_kept {v : Variant} {q : Place} {i : Instr} (h : q ∉ operationPlaces v i) (s : State) : q.Kept s (onAccept i s) := by
  by_cases hq : q = .rstate
  · subst hq
    exact (onAccept_synchronizer (ne_runResetSequence_of_rstate h) s).1
  · exact (onAccept_control i s).kept hq

/-- A step of an operation, in any state, changes no place but the operation's own. -/
theorem exec_kept {i : Instr} {q : Place} {s t : State} (h : q ∉ operationPlaces s.params.variant i) (hx : exec i s = .next t) :
    q.Kept s t := by
  obtain ⟨-, rfl⟩ | ⟨k, m, u, -, hm, hu, rfl⟩ | ⟨-, -, -, -, rfl⟩ := exec_next hx
  · exact onAccept_kept h s
  · exact (perform_kept (places_of_microProgram hm h) hu).trans (follow_kept h k u)
  · exact .refl q _

/-- No step of an operation changes a parameter, the host's list, the device's record of driving, or the record of contention. -/
theorem exec_environment {i : Instr} {s t : State} (hx : exec i s = .next t) :
    t.params = s.params ∧ t.host = s.host ∧ t.device.drives = s.device.drives ∧ t.contention = s.contention := by
  obtain ⟨-, rfl⟩ | ⟨k, m, u, -, -, hu, rfl⟩ | ⟨-, -, -, -, rfl⟩ := exec_next hx
  · have f := onAccept_control i s
    exact ⟨f.params, f.host, congrArg _ f.device, f.contention⟩
  · have f := follow_control s.params i k u
    have g := perform_frame hu
    exact ⟨f.params.trans g.params, f.host.trans g.host, (congrArg _ f.device).trans g.drives, f.contention.trans g.contention⟩
  · exact ⟨rfl, rfl, rfl, rfl⟩

/-- Only `runResetSequence` counts polls. -/
theorem exec_pollcnt {i : Instr} {s t : State} (hx : exec i s = .next t) (hi : i ≠ .runResetSequence) : t.pollcnt = s.pollcnt := by
  obtain ⟨-, rfl⟩ | ⟨k, m, u, -, -, hu, rfl⟩ | ⟨-, -, -, -, rfl⟩ := exec_next hx
  · exact (onAccept_synchronizer hi s).2
  · rw [follow_linear hi, advance_pollcnt]
    exact (perform_frame hu).pollcnt
  · rfl

/-- In `HW` a read has no micro-operation, so no step of it emits an event (R107, R128). -/
theorem exec_read_hw_trace {i : Instr} (hi : i = .readByte ∨ i = .readChipId) {s t : State} (hv : s.params.variant = .HW)
    (hx : exec i s = .next t) : t.trace = s.trace := by
  obtain ⟨-, rfl⟩ | ⟨k, m, u, -, hm, -, -⟩ | ⟨-, -, -, -, rfl⟩ := exec_next hx
  · exact onAccept_trace i s
  · rcases hi with rfl | rfl <;> simp [microProgram, readByteProgram, readFrame, readChipIdProgram, hv] at hm
  · rfl

/-! ## The frames -/

theorem operationPlaces_hw_subset {v : Variant} {i : Instr} {q : Place} (h : q ∉ operationPlaces .SW i) : q ∉ operationPlaces v i := by
  cases v with
  | SW => exact h
  | HW => cases i <;> simp_all [operationPlaces, writePlaces]

/-- In either variant a step keeps what the operation leaves alone in `SW`. -/
theorem exec_kept_sw {i : Instr} {s t : State} (hx : exec i s = .next t) (q : Place) (h : q ∉ operationPlaces .SW i) : q.Kept s t :=
  exec_kept (operationPlaces_hw_subset h) hx

theorem exec_kept_hw {i : Instr} {s t : State} (hx : exec i s = .next t) (hv : s.params.variant = .HW) (q : Place)
    (h : q ∉ operationPlaces .HW i) : q.Kept s t :=
  exec_kept (hv ▸ h) hx

/-- Settles O40: the places the two operations do not list are kept. -/
theorem linkEngineFrame : Obligations.LinkEngineFrame := by
  refine ⟨fun v s t hx => ?_, fun s t hx => ?_⟩
  · obtain ⟨hparams, hhost, -, hcontention⟩ := exec_environment hx
    have kept (q : Place) (h : q ∉ operationPlaces .SW (.writeByte 0)) : q.Kept s t := exec_kept_sw hx q h
    refine ⟨kept .rd0 (by decide), kept .rd1 (by decide), (kept (.inp .SDA) (by decide)).1, kept (.out .CSN) (by decide),
      kept (.out .DC) (by decide), kept (.out .RSTN) (by decide), (kept (.inp .BUSY) (by decide)).1, kept .rstate (by decide),
      exec_pollcnt hx nofun, hparams, hhost, kept .device (by decide), hcontention, fun hv => ?_⟩
    have keptHw (q : Place) : q.Kept s t := exec_kept_hw hx hv q (by simp [operationPlaces, writePlaces])
    exact ⟨keptHw .sr, keptHw (.out .SCK), keptHw (.out .SDA), keptHw .dir⟩
  · obtain ⟨hparams, hhost, hdrives, hcontention⟩ := exec_environment hx
    have kept := exec_kept_sw hx
    refine ⟨kept .rd1 (by decide), kept (.out .SDA) (by decide), kept (.out .CSN) (by decide), kept (.out .DC) (by decide),
      kept (.out .RSTN) (by decide), (kept (.inp .BUSY) (by decide)).1, kept .rstate (by decide), exec_pollcnt hx nofun, hparams, hhost,
      (kept (.inp .BUSY) (by decide)).2, hdrives, hcontention, fun hv => ?_⟩
    have keptHw := exec_kept_hw hx hv
    exact ⟨keptHw .sr (by decide), keptHw .rd0 (by decide), keptHw (.out .SCK) (by decide), (keptHw (.inp .SDA) (by decide)).1,
      keptHw .dir (by decide), exec_read_hw_trace (.inl rfl) hv hx⟩

/-- Settles O41: the places the three operations do not list are kept. -/
theorem framerFrame : Obligations.FramerFrame := by
  refine ⟨fun i v s t hi hx => ?_, fun s t hx => ?_⟩
  · obtain ⟨hparams, hhost, -, hcontention⟩ := exec_environment hx
    have hreset : i ≠ .runResetSequence := by rcases hi with rfl | rfl <;> exact nofun
    have hplaces (v' : Variant) : operationPlaces v' i = [.out .CSN, .out .DC] ++ writePlaces v' := by rcases hi with rfl | rfl <;> rfl
    have kept (q : Place) (h : q ∉ [.out .CSN, .out .DC] ++ writePlaces .SW) : q.Kept s t := exec_kept_sw hx q (hplaces .SW ▸ h)
    refine ⟨kept .rd0 (by decide), kept .rd1 (by decide), (kept (.inp .SDA) (by decide)).1, kept (.out .RSTN) (by decide),
      (kept (.inp .BUSY) (by decide)).1, kept .rstate (by decide), exec_pollcnt hx hreset, hparams, hhost, kept .device (by decide),
      hcontention, fun hv => ?_⟩
    have keptHw (q : Place) (h : q ∉ [.out .CSN, .out .DC] ++ writePlaces .HW) : q.Kept s t := exec_kept_hw hx hv q (hplaces .HW ▸ h)
    exact ⟨keptHw .sr (by decide), keptHw (.out .SCK) (by decide), keptHw (.out .SDA) (by decide), keptHw .dir (by decide)⟩
  · obtain ⟨hparams, hhost, hdrives, hcontention⟩ := exec_environment hx
    have kept := exec_kept_sw hx
    refine ⟨kept (.out .RSTN) (by decide), (kept (.inp .BUSY) (by decide)).1, kept .rstate (by decide), exec_pollcnt hx nofun, hparams,
      hhost, (kept (.inp .BUSY) (by decide)).2, hdrives, hcontention, fun hv => ?_⟩
    have keptHw (q : Place) : q.Kept s t := exec_kept_hw hx hv q (by simp [operationPlaces])
    exact ⟨keptHw .sr, keptHw .rd0, keptHw .rd1, keptHw (.out .SCK), keptHw (.out .SDA), (keptHw (.inp .SDA)).1, keptHw .dir,
      keptHw (.out .CSN), keptHw (.out .DC), exec_read_hw_trace (.inr rfl) hv hx⟩

/-- Settles O42: a Reset Cycle changes the reset line, `BUSY` and `RSTATE` only. -/
theorem resetSequenceFrame : Obligations.ResetSequenceFrame := by
  intro s t hx
  obtain ⟨hparams, hhost, hdrives, hcontention⟩ := exec_environment hx
  have kept := exec_kept_sw hx
  exact ⟨kept .sr (by decide), kept .rd0 (by decide), kept .rd1 (by decide), kept (.out .SCK) (by decide), kept .dir (by decide),
    kept (.out .SDA) (by decide), (kept (.inp .SDA) (by decide)).1, kept (.out .CSN) (by decide), kept (.out .DC) (by decide), hparams, hhost,
    (kept (.inp .SDA) (by decide)).2, hdrives, hcontention⟩

/-! ## Events and output lines -/

/-- Settles O43: a running operation performs one micro-operation, which emits one event; acceptance and refusal emit none. -/
theorem oneEventPerMicroOperation : Obligations.OneEventPerMicroOperation := by
  refine fun i s t hx => ⟨fun k hs => ?_, fun hs => ?_⟩
  · obtain ⟨m, u, -, hu, rfl⟩ := exec_next_running hs hx
    rw [follow_trace]
    exact perform_emits hu
  · rw [exec_idle hs] at hx
    obtain rfl : onAccept i s = t := by simpa using hx
    exact onAccept_trace i s

/-- A step in which a line is at the level of the event that drives it, or at its level before when the event does not drive it. -/
def LineFollows (l : OutLine) (s t : State) : Prop :=
  (t.trace = s.trace ∧ t.out l = s.out l) ∨
  (∃ b, t.trace = s.trace ++ [.drive l b] ∧ t.out l = b) ∨
  (∃ e, t.trace = s.trace ++ [e] ∧ drives l e = false ∧ t.out l = s.out l)

theorem drives_drive (l : OutLine) (b : Level) : drives l (.drive l b) = true := by cases b <;> simp [drives]

theorem perform_lineFollows {m : MicroOp} {s t : State} (l : OutLine) (h : m.perform s = .next t) : LineFollows l s t := by
  by_cases hm : ∃ b, m.prim = .drive l b
  · obtain ⟨b, hb⟩ := hm
    obtain ⟨u, hu, rfl⟩ := perform_next h
    have f := applyWrites_frame m.before s
    have g := applyWrites_frame m.after u
    rw [hb] at hu
    obtain ⟨-, rfl⟩ := drive_next.1 hu
    refine .inr (.inl ⟨_, by rw [g.trace, State.emit_trace, State.setOut_trace, f.trace], ?_⟩)
    rw [applyWrites_out, State.out_emit, State.out_setOut_same]
  · obtain ⟨hout, e, he, hd⟩ := perform_not_drives (fun b hb => hm ⟨b, hb⟩) h
    exact .inr (.inr ⟨e, he, hd, hout⟩)

/-- The sequencer and acceptance neither emit an event nor move a line. -/
theorem ControlFrame.out {s t : State} (f : ControlFrame s t) (l : OutLine) : t.out l = s.out l :=
  f.kept (q := .out l) nofun

theorem exec_lineFollows {i : Instr} {s t : State} (l : OutLine) (hx : exec i s = .next t) : LineFollows l s t := by
  obtain ⟨-, rfl⟩ | ⟨k, m, u, -, -, hu, rfl⟩ | ⟨-, -, -, -, rfl⟩ := exec_next hx
  · exact .inl ⟨onAccept_trace i s, (onAccept_control i s).out l⟩
  · have h := perform_lineFollows l hu
    have f := follow_control s.params i k u
    unfold LineFollows at *
    rwa [f.trace, f.out]
  · exact .inl ⟨rfl, rfl⟩

/-- The host's move is an engine reset only when it stands first in the host's list. -/
theorem fetch_reset {s : State} (h : (fetch s).1 = .reset) : s.host.head? = some .ereset := by
  unfold fetch at h
  split at h
  · cases h
  · split at h <;> cases h
  · cases h
  · next hh => rw [hh]; rfl
  · cases h

/-- Settles O44: whatever the machine does short of engine reset, each line follows the step's event. -/
theorem outputsHoldTheirLevel : Obligations.OutputsHoldTheirLevel := by
  intro s t l hstep hhost
  have hfollows : LineFollows l s t := by
    obtain ⟨hh, u, hu, rfl⟩ := step_next hstep
    suffices LineFollows l { s with rsp := none, host := hh } u by
      unfold LineFollows at *
      cases l <;> exact this
    obtain ⟨hreset, -⟩ | ⟨w, r, -, -, -, rfl⟩ | ⟨w, i, -, -, -, rfl⟩ | ⟨-, rfl, -⟩ | ⟨i, k, -, hx, -⟩ := react_cases hu
    · exact absurd (fetch_reset hreset) hhost
    · exact .inl ⟨rfl, by cases l <;> rfl⟩
    · exact .inl ⟨onAccept_trace i _, (onAccept_control i _).out l⟩
    · exact .inl ⟨rfl, rfl⟩
    · exact exec_lineFollows l hx
  obtain ⟨htrace, hout⟩ | ⟨b, htrace, hout⟩ | ⟨e, htrace, hd, hout⟩ := hfollows
  · simp [htrace, hout]
  · refine ⟨fun b' hb => ?_, fun h => ?_, fun e he hd => ?_⟩
    · obtain rfl : b = b' := by simpa using htrace.symm.trans hb
      exact hout
    · simp [htrace] at h
    · obtain rfl : .drive l b = e := by simpa using htrace.symm.trans he
      simp [drives_drive] at hd
  · refine ⟨fun b hb => ?_, fun h => ?_, fun _ _ _ => hout⟩
    · obtain rfl : e = .drive l b := by simpa using htrace.symm.trans hb
      simp [drives_drive] at hd
    · simp [htrace] at h

end Sys2Proof.Machine
end

section
/-! A step of the machine by what the host does: acceptance, refusal, waiting, engine reset, contention (R36, R57, R162, R163, R190, R200). -/

namespace Sys2Proof.Machine

/-! ## An idle SPE -/

theorem onAccept_read_sw {i : Instr} {s : State} (hv : s.params.variant = .SW) (hi : i = .readByte ∨ i = .readChipId) :
    onAccept i s = accept i s := by
  rcases hi with rfl | rfl <;> simp [onAccept, acceptRead, hv]

/-- Settles O7: an idle SPE answers `onAccept`, which latches every operation the variant provides. -/
theorem acceptanceLatchesTheOperation : Obligations.AcceptanceLatchesTheOperation := by
  intro s hs
  refine ⟨fun v => exec_idle hs, fun c => exec_idle hs, fun v => exec_idle hs, fun hv => ?_, fun hv => ?_, exec_idle hs⟩
  · rw [exec_idle hs, onAccept_read_sw hv (.inl rfl)]
    rfl
  · rw [exec_idle hs, onAccept_read_sw hv (.inr rfl)]
    rfl

/-- Settles O11: both words decode, and acceptance of a read in `HW` is the refusal. -/
theorem hwReadsAreRefused : Obligations.HwReadsAreRefused := by
  refine ⟨decode_encode .readByte, decode_encode .readChipId, fun s hv hs => ⟨?_, ?_⟩⟩
  · rw [exec_idle hs, onAccept_read_hw hv (.inl rfl)]
    rfl
  · rw [exec_idle hs, onAccept_read_hw hv (.inr rfl)]
    rfl

theorem step_idle_quiet {s : State} {rest : List HostMove} (hs : s.seq = .idle)
    (hh : s.host = [] ∧ rest = [] ∨ s.host = .wait :: rest) : step s = .next (observeDevice { s with rsp := none, host := rest }) := by
  obtain ⟨hh, rfl⟩ | hh := hh <;> simp [step, stepOnce, fetch, hh, hs, react, proceed, State.clearRsp]

/-- Settles O13: with nothing on the input ports an idle SPE stays as it is. -/
theorem idleSpeWaits : Obligations.IdleSpeWaits := by
  intro s hs
  refine ⟨fun hh => ?_, fun rest hh => step_idle_quiet hs (.inr hh)⟩
  rw [step_idle_quiet hs (.inl ⟨hh, rfl⟩)]
  simp only [hh]

/-! ## A busy SPE -/

/-- A busy SPE goes on with its operation; a `present`ed word stays on the port, any other move is used up (R36, R193, R200). -/
theorem step_busy_keeps_host {s : State} {i : Instr} {k : Nat} (hs : s.seq = .run i k)
    (hh : s.host = [] ∨ ∃ w rest, s.host = .present w :: rest) :
    step s = andThen (exec i { s with rsp := none }) fun t => .next (observeDevice t) := by
  obtain hh | ⟨w, rest, hh⟩ := hh <;> simp [step, stepOnce, fetch, hh, react, proceed, hs, State.clearRsp]

theorem step_busy_takes_move {s : State} {i : Instr} {k : Nat} {m : HostMove} {rest : List HostMove} (hs : s.seq = .run i k)
    (hh : s.host = m :: rest) (hm : m = .wait ∨ ∃ w, m = .strobe w) :
    step s = andThen (exec i { s with rsp := none, host := rest }) fun t => .next (observeDevice t) := by
  obtain rfl | ⟨w, rfl⟩ := hm <;> simp [step, stepOnce, fetch, hh, react, proceed, hs, State.clearRsp]

/-- The low 16 bits of the encoding are the word itself. -/
theorem withFetchWord_encode (s : State) (i : Instr) :
    s.withFetchWord 16 (encode i).toNat = { s with seq := .idle, host := .present (encode i) :: s.host } := by
  rw [State.withFetchWord, placeWord, tableNumber, Nat.mod_eq_of_lt (encode i).isLt, BitVec.ofNat_toNat, BitVec.setWidth_eq]

/-- Settles O6: an offered word is decoded and run, a running operation goes on, and a placed word is the one offered next. -/
theorem stepRunsTheDecodedInstruction : Obligations.StepRunsTheDecodedInstruction := by
  have hoffered (s : State) (w : Word) (i : Instr) (rest : List HostMove) (hs : s.seq = .idle) (hw : decode w = .op i)
      (hh : s.host = .present w :: rest ∨ s.host = .strobe w :: rest) :
      step s = andThen (exec i { s with rsp := none, host := rest }) fun t => .next (observeDevice t) := by
    rw [step_offered hs hh, acceptWord, hw]
  refine ⟨hoffered, fun s i k hs => ⟨step_busy_keeps_host hs, fun m rest => step_busy_takes_move hs⟩, fun s i => ?_⟩
  rw [withFetchWord_encode]
  exact hoffered _ _ i s.host rfl (decode_encode i) (.inl rfl)

/-- Settles O12: a strobed word and a waiting move are used up alike, and no operation but the running one is performed. -/
theorem busySpeDropsWords : Obligations.BusySpeDropsWords := by
  refine fun s i k hs => ⟨by simp [State.cmdReady, hs], fun w rest hh => ?_, fun j hj => exec_other hs hj.symm⟩
  rw [step_busy_takes_move hs hh (.inr ⟨w, rfl⟩), step_busy_takes_move (s := { s with host := .wait :: rest }) hs rfl (.inl rfl)]

/-! ## Engine reset -/

theorem step_engineReset {s : State} {rest : List HostMove} (hh : s.host = .ereset :: rest) :
    step s = .next (observeDevice (engineReset { s with rsp := none, host := rest })) := by
  simp [step, stepOnce, fetch, hh, react, State.clearRsp]

/-- Settles O14: the step is `engineReset`, whose fields are the table of R37. -/
theorem engineResetFromAnyState : Obligations.EngineResetFromAnyState := by
  intro s rest hh
  have hdir (v : Variant) (hv : s.params.variant = v) : (engineReset { s with rsp := none, host := rest }).sdaDir = resetDir v :=
    congrArg resetDir hv
  have hcnt (o : Option Nat) (ho : s.params.busyPollLimit = o) :
      (engineReset { s with rsp := none, host := rest }).pollcnt = o.map fun _ => 0 := congrArg (Option.map fun _ => 0) ho
  exact ⟨_, step_engineReset hh, rfl, rfl, rfl, rfl, rfl, rfl, hdir .SW, hdir .HW, rfl, rfl, rfl, rfl, hcnt none, fun n => hcnt (some n), rfl,
    rfl, rfl, rfl, rfl⟩

/-- Settles O15: the fields of `State.resetWith`, and the default parameters. -/
theorem resetStateHoldsTheResetValues : Obligations.ResetStateHoldsTheResetValues := by
  refine ⟨?_, Config.default, false, false, rfl, rfl, rfl, rfl, rfl, rfl, rfl, rfl⟩
  rintro p a b s rfl
  refine ⟨rfl, rfl, rfl, rfl, rfl, rfl, fun h => ?_, fun n h => ?_, rfl, congrArg resetDir, congrArg resetDir, rfl, rfl, rfl⟩
  · exact congrArg (Option.map fun _ => 0) h
  · exact congrArg (Option.map fun _ => 0) h

/-! ## Contention -/

/-- However the machine reacts, it keeps the parameters, the record of contention, and the device's record of driving. -/
theorem react_environment {a : Action} {s t : State} (h : react a s = .next t) :
    t.params = s.params ∧ t.contention = s.contention ∧ t.device.drives = s.device.drives := by
  obtain ⟨-, rfl⟩ | ⟨w, r, -, -, -, rfl⟩ | ⟨w, i, -, -, -, rfl⟩ | ⟨-, rfl, -⟩ | ⟨i, k, -, hx, -⟩ := react_cases h
  · exact ⟨rfl, rfl, rfl⟩
  · exact ⟨rfl, rfl, rfl⟩
  · have f := onAccept_control i s
    exact ⟨f.params, f.contention, congrArg _ f.device⟩
  · exact ⟨rfl, rfl, rfl⟩
  · obtain ⟨hparams, -, hdrives, hcontention⟩ := exec_environment hx
    exact ⟨hparams, hcontention, hdrives⟩

/-- Settles O50: only the last part of a step, `observeDevice`, writes the record, from the direction after the reaction and the device's next entry. -/
theorem contentionIsRecordedAndKept : Obligations.ContentionIsRecordedAndKept := by
  intro s t hstep
  obtain ⟨hh, u, hu, rfl⟩ := step_next hstep
  obtain ⟨hparams, hcontention, hdrives⟩ := react_environment hu
  refine ⟨hparams, fun hc => ?_, fun b rest hb => ⟨?_, ?_⟩⟩
  · rw [observeDevice_contention, hcontention, hc, Bool.true_or]
  · have hnow : u.device.drivesNow = b := by simp [Device.drivesNow, hdrives, hb]
    simp [hnow, hcontention]
  · simp [Device.afterStep, hdrives, hb]

/-! ## Runs from states that meet the invariant -/

theorem run_next {M : Host.Core} {n : Nat} {s t : M.State} (h : M.run (n + 1) s = .next t) :
    ∃ u, M.step s = .next u ∧ M.run n u = .next t := by
  rw [Host.Core.run] at h
  split at h
  · next u hu => exact ⟨u, hu, h⟩
  · cases h
  · cases h

theorem run_keeps_inv {n : Nat} {s t : State} (h : Inv s) (hrun : core.run n s = .next t) : Inv t := by
  induction n generalizing s with
  | zero =>
    obtain rfl : s = t := Host.Outcome.next.inj hrun
    exact h
  | succ n ih =>
    obtain ⟨u, hu, hrest⟩ := run_next hrun
    exact ih (stepKeepsTheInvariant s u h hu) hrest

/-- From any place of a linear operation, its remaining micro-operations complete it. -/
theorem operate_remaining {i : Instr} (hi : i ≠ .runResetSequence) {n k : Nat} {s : State} (h : Inv s) (hs : s.seq = .run i k)
    (hn : k + n + 1 = (microProgram s.params i).length) :
    ∃ t d, operate i (n + 1) s = .next t ∧ t.seq = .idle ∧ t.rsp = some ⟨.OK, d⟩ ∧ t.responses = s.responses ++ [⟨.OK, d⟩] := by
  obtain ⟨t, ht⟩ := exec_runs h hs
  obtain ⟨m, u, -, hu, hfollow⟩ := exec_next_running hs ht
  have f := perform_frame hu
  rw [follow_linear hi, advance] at hfollow
  simp only [operate, ht, andThen_next]
  cases n with
  | zero =>
    rw [if_pos hn] at hfollow
    subst hfollow
    exact ⟨_, _, rfl, rfl, rfl, by rw [complete_responses, f.responses]⟩
  | succ n =>
    rw [if_neg (by omega)] at hfollow
    subst hfollow
    obtain ⟨t', d, hrun, hseq, hrsp, hresponses⟩ :=
      operate_remaining hi (n := n) (exec_inv h hs ht) rfl (by simp only [f.params]; omega)
    exact ⟨t', d, hrun, hseq, hrsp, by rw [hresponses, f.responses]⟩

/-- Settles O49: the remaining micro-operations are at least one, since the sequencer stands inside the micro-program. -/
theorem linearOperationsEnd : Obligations.LinearOperationsEnd := by
  intro s i k h hs hi
  obtain ⟨hk, -, -⟩ := (linesLawful_run hs).1 h.lines
  rw [show (microProgram s.params i).length - k = ((microProgram s.params i).length - k - 1) + 1 by omega]
  exact operate_remaining hi h hs (by omega)

end Sys2Proof.Machine
end

section
/-! The line primitives and the shift register (R51 to R60, R70, R179). -/

namespace Sys2Proof.Machine

/-! ## The line primitives -/

theorem perform_plain (p : Prim) (s : State) : (plain p).perform s = runPrim p s := by
  rw [MicroOp.perform]
  cases h : runPrim p s <;> simp [plain, h]

theorem perform_drive_sda {s : State} (h : s.sdaDir = .OUT) (b : DriveLevel) :
    (plain (.drive .SDA b)).perform s = .next ((s.setOut .SDA (b.value s)).emit (.drive .SDA (b.value s))) := by
  rw [perform_plain]
  exact drive_next.2 ⟨(mayDrive_sda s).2 h, rfl⟩

theorem perform_sample_sda {s : State} (h : s.sdaDir = .IN) : (plain (.sample .SDA)).perform s = .next (sampled .SDA s) := by
  rw [perform_plain]
  exact sample_next.2 ⟨(maySample_sda s).2 h, rfl⟩

theorem Device.sda_script {d : Device} {b : Level} {rest : List Level} (h : d.sda = b :: rest) :
    d.sdaLevel = b ∧ d.afterSda = { d with sda := rest } := by
  simp [Device.sdaLevel, Device.afterSda, h]

theorem Device.busy_script {d : Device} {b : Level} {rest : List Level} (h : d.busy = b :: rest) :
    d.busyLevel = b ∧ d.afterBusy = { d with busy := rest } := by
  simp [Device.busyLevel, Device.afterBusy, h]

/-- Settles O16: each primitive alone is its operation on the state. -/
theorem primitivesChangeOneAttribute : Obligations.PrimitivesChangeOneAttribute := by
  intro s
  refine ⟨fun d => rfl, fun b => rfl, fun b h => perform_drive_sda h _, fun b => rfl, fun b => rfl, fun b => rfl, perform_sample_sda, rfl,
    fun b rest h hd => ?_, fun b rest hd => ?_, rfl, fun n => rfl, fun tx => rfl⟩
  · obtain ⟨hlevel, hafter⟩ := Device.sda_script hd
    rw [perform_sample_sda h, ← hafter, ← hlevel]
    rfl
  · obtain ⟨hlevel, hafter⟩ := Device.busy_script hd
    rw [← hafter, ← hlevel]
    rfl

/-- Settles O17: a primitive stops in its two bad cases only, and in each of them. -/
theorem primitivePreconditionsFault : Obligations.PrimitivePreconditionsFault := by
  intro s p
  rw [perform_plain]
  refine ⟨?_, fun h => ?_⟩
  · rintro (⟨b, rfl, hd⟩ | ⟨rfl, hd⟩)
    · simp [runPrim, drive, mayDrive, hd]
    · simp [runPrim, sample, maySample, hd]
  · by_contra hstop
    exact h (runPrim_stops fun t ht => hstop ⟨t, ht⟩).2

/-! ## The shift register (R70) -/

theorem shiftLeftOne_getLsbD_zero (v : Byte) : (shiftLeftOne v).getLsbD 0 = false := by simp [shiftLeftOne]

theorem shiftLeftOne_getLsbD_succ (v : Byte) {i : Nat} (hi : i < 7) : (shiftLeftOne v).getLsbD (i + 1) = v.getLsbD i := by
  simp only [shiftLeftOne, BitVec.getLsbD_shiftLeft, show i + 1 < 8 by omega, decide_true, Bool.true_and, Nat.add_sub_cancel]
  simp

theorem insertLow_getLsbD_zero (v : Byte) (b : Level) : (insertLow v b).getLsbD 0 = (v.getLsbD 0 || b) := by
  simp [insertLow]

theorem insertLow_getLsbD_pos (v : Byte) (b : Level) {i : Nat} (hi : 1 ≤ i) : (insertLow v b).getLsbD i = v.getLsbD i := by
  simp [insertLow, BitVec.getLsbD_setWidth, BitVec.getLsbD_of_ge (BitVec.ofBool b) i hi]

/-- A bit shifted in stands lowest, and the bits there before move up one place. -/
theorem shiftIn_getLsbD (v : Byte) (b : Level) :
    (insertLow (shiftLeftOne v) b).getLsbD 0 = b ∧
      ∀ i, i < 7 → (insertLow (shiftLeftOne v) b).getLsbD (i + 1) = v.getLsbD i := by
  refine ⟨?_, fun i hi => ?_⟩
  · rw [insertLow_getLsbD_zero, shiftLeftOne_getLsbD_zero, Bool.false_or]
  · rw [insertLow_getLsbD_pos _ _ (by omega), shiftLeftOne_getLsbD_succ v hi]

/-- After bits have been shifted in, bit `j` of the register is the `j`-th bit from the last. -/
theorem foldl_shiftIn_getLsbD (bits : List Level) (v : Byte) {j : Nat} (hj : j < bits.length) (h8 : j < 8) :
    (bits.foldl (fun u x => insertLow (shiftLeftOne u) x) v).getLsbD j = bits[bits.length - 1 - j] := by
  induction bits using List.reverseRecOn generalizing j with
  | nil => simp at hj
  | append_singleton bits b ih =>
    rw [List.foldl_append]
    obtain ⟨hzero, hsucc⟩ := shiftIn_getLsbD (bits.foldl (fun u x => insertLow (shiftLeftOne u) x) v) b
    cases j with
    | zero => simpa using hzero
    | succ j =>
      simp only [List.length_append, List.length_singleton] at hj ⊢
      rw [List.getElem_append_left (by omega), List.foldl_cons, List.foldl_nil, hsucc j (by omega), ih (by omega) (by omega)]
      congr 1
      omega

/-- Settles O18: the shift and the insertion bit by bit; a bit shifted in finds the lowest place free, so that it may as well be added. -/
theorem shiftRegisterArithmetic : Obligations.ShiftRegisterArithmetic := by
  refine ⟨fun v => ⟨shiftLeftOne_getLsbD_zero v, fun i => shiftLeftOne_getLsbD_succ v⟩,
    fun v b => ⟨insertLow_getLsbD_zero v b, fun i => insertLow_getLsbD_pos v b⟩, shiftLeftOne_eight, fun v b k => ?_, fun v b => ?_⟩
  · rw [foldl_shiftIn_getLsbD _ v (by simp; omega) (by omega)]
    simp only [List.getElem_ofFn, List.length_ofFn]
    exact congrArg b (Fin.ext (show 8 - 1 - (7 - k.val) = k.val by omega))
  · have hdisjoint : shiftLeftOne v &&& (BitVec.ofBool b).setWidth 8 = 0#8 := by
      apply BitVec.eq_of_getLsbD_eq
      intro i hi
      cases i with
      | zero => simp [shiftLeftOne]
      | succ i => simp [BitVec.getLsbD_setWidth]
    exact (BitVec.add_eq_or_of_and_eq_zero _ _ hdisjoint).symm

end Sys2Proof.Machine
end

section
/-! The operations micro-operation by micro-operation: where each stands in its micro-program, and what its step changes (R25, R81, R101 to R142). -/

namespace Sys2Proof.Machine

/-! ## One step of a linear operation -/

theorem exec_linear_step {i : Instr} (hi : i ≠ .runResetSequence) {s : State} {k : Nat} {m : MicroOp} (hs : s.seq = .run i k)
    (hm : (microProgram s.params i)[k]? = some m) (hk : k + 1 ≠ (microProgram s.params i).length) :
    exec i s = andThen (m.perform s) fun t => .next (t.withSeq (.run i (k + 1))) := by
  rw [exec_running hs hm, follow_linear hi]
  exact congrArg _ (funext fun t => congrArg _ (if_neg hk))

theorem exec_linear_last {i : Instr} (hi : i ≠ .runResetSequence) {s : State} {k : Nat} {m : MicroOp} (hs : s.seq = .run i k)
    (hm : (microProgram s.params i)[k]? = some m) (hk : k + 1 = (microProgram s.params i).length) :
    exec i s = andThen (m.perform s) fun t => .next (complete .OK (responseData i t) t) := by
  rw [exec_running hs hm, follow_linear hi]
  exact congrArg _ (funext fun t => congrArg _ (if_pos hk))

/-- Where operation `i` at place `k'` has the micro-operation of operation `j` at `k`, the step of `i` is the step of `j`, but for the sequencer and the
completion of `j`. -/
theorem exec_embedded {i j : Instr} (hi : i ≠ .runResetSequence) (hj : j ≠ .runResetSequence) {s : State} {k k' next : Nat}
    (hk : k < (microProgram s.params j).length) (hm : (microProgram s.params i)[k']? = (microProgram s.params j)[k]?)
    (hnext : next = k' + 1) (hlast : next ≠ (microProgram s.params i).length) (hs : s.seq = .run i k') :
    exec i s = andThen (exec j (s.withSeq (.run j k))) fun t =>
      .next { t with seq := .run i next, rsp := s.rsp, responses := s.responses } := by
  subst hnext
  have hmj := List.getElem?_eq_getElem hk
  rw [exec_linear_step hi hs (hm.trans hmj) hlast, exec_running (s := s.withSeq (.run j k)) rfl hmj, follow_linear hj, perform_withSeq,
    andThen_assoc, andThen_assoc]
  cases hp : (microProgram s.params j)[k].perform s with
  | fault e => rfl
  | refused e => rfl
  | next u =>
    have f := perform_frame hp
    simp only [andThen_next, advance, ← f.rsp, ← f.responses]
    split <;> rfl

/-- The same short of the last micro-operation of `j`, where `j` gives no response. -/
theorem exec_embedded_inside {i j : Instr} (hi : i ≠ .runResetSequence) (hj : j ≠ .runResetSequence) {s : State} {k k' next : Nat}
    (hk : k + 1 < (microProgram s.params j).length) (hm : (microProgram s.params i)[k']? = (microProgram s.params j)[k]?)
    (hnext : next = k' + 1) (hlast : next ≠ (microProgram s.params i).length) (hs : s.seq = .run i k') :
    exec i s = andThen (exec j (s.withSeq (.run j k))) fun t => .next (t.withSeq (.run i next)) := by
  subst hnext
  have hmj := List.getElem?_eq_getElem (show k < (microProgram s.params j).length by omega)
  rw [exec_linear_step hi hs (hm.trans hmj) hlast, exec_linear_step hj (s := s.withSeq (.run j k)) rfl hmj hk.ne, perform_withSeq,
    andThen_assoc, andThen_assoc]
  rfl

/-! ## Places in a micro-program -/

theorem getElem?_of_eq_append {α : Type} {l before seg after : List α} (h : l = before ++ (seg ++ after)) {n j : Nat}
    (hn : before.length = n) (hj : j < seg.length) : l[n + j]? = seg[j]? := by
  rw [h, ← hn, List.getElem?_append_right (by omega), Nat.add_sub_cancel_left, List.getElem?_append_left hj]

/-- Place `j` of slot `i` of `n`. -/
theorem slots_getElem? {slot : List MicroOp} {n i j : Nat} (hi : i < n) (hj : j < slot.length) :
    (slots n slot)[slot.length * i + j]? = slot[j]? := by
  induction n generalizing i with
  | zero => omega
  | succ n ih =>
    rw [slots]
    cases i with
    | zero => rw [Nat.mul_zero, Nat.zero_add, List.getElem?_append_left hj]
    | succ i =>
      rw [Nat.mul_succ, List.getElem?_append_right (by omega), ← ih (i := i) (by omega)]
      congr 1
      omega

/-- Place `j` of slot `i` in a Byte Frame, which has one micro-operation before its eight slots of five (R81). -/
theorem frame_getElem? {first last : MicroOp} {slot : List MicroOp} (hslot : slot.length = 5) {i j k : Nat} (hi : i < 8) (hj : j < 5)
    (hk : k = 1 + 5 * i + j) : (first :: (slots Config.FRAME_BITS slot ++ [last]))[k]? = slot[j]? := by
  have hlen : 5 * i + j < (slots Config.FRAME_BITS slot).length := by
    rw [slots_length, hslot]
    show 5 * i + j < 8 * 5
    omega
  have hplace := getElem?_of_eq_append (l := first :: (slots Config.FRAME_BITS slot ++ [last])) (before := [first]) (n := 1) rfl rfl hlen
  rw [hk, Nat.add_assoc, hplace, ← hslot, slots_getElem? hi (by omega)]

/-! ## writeByte and readByte -/

section LinkEngine

variable {s : State}

theorem microProgram_writeByte_sw (hv : s.params.variant = .SW) (v : Byte) :
    microProgram s.params (.writeByte v) = writeByteProgram .SW v := by simp only [microProgram, hv]

theorem microProgram_readByte_sw (hv : s.params.variant = .SW) : microProgram s.params .readByte = readByteProgram .SW := by
  simp only [microProgram, hv]

/-- The step at place `j` of write slot `i`. -/
theorem exec_writeByte_slot {v : Byte} {i j k k' : Nat} {m : MicroOp} (hv : s.params.variant = .SW) (hi : i < 8) (hj : j < 5)
    (hm : writeSlot[j]? = some m) (hk : k = 1 + 5 * i + j) (hk' : k' = k + 1) (hs : s.seq = .run (.writeByte v) k) :
    exec (.writeByte v) s = andThen (m.perform s) fun t => .next (t.withSeq (.run (.writeByte v) k')) := by
  subst hk'
  refine exec_linear_step (i := .writeByte v) nofun hs ?_ ?_ <;> rw [microProgram_writeByte_sw hv]
  · exact (frame_getElem? rfl hi hj hk).trans hm
  · rw [writeByteProgram_length_sw]
    omega

/-- Settles O19: the first micro-operation, the five of each slot, and the last. -/
theorem writeByteMicroOperations : Obligations.WriteByteMicroOperations := by
  intro v s hv
  have hp := microProgram_writeByte_sw hv v
  refine ⟨fun hs => ?_, fun i hi => ⟨fun hs => ?_, fun hs hd => ?_, fun hs => ?_, fun hs => ?_, fun hs => ?_⟩, fun hs => ?_⟩
  · rw [exec_linear_step (i := .writeByte v) nofun hs (by rw [hp]; rfl) (by rw [hp, writeByteProgram_length_sw]; decide)]
    rfl
  · exact exec_writeByte_slot hv hi (j := 0) (by decide) rfl (by omega) (by omega) hs
  · rw [exec_writeByte_slot hv hi (j := 1) (by decide) rfl (by omega) (k' := 3 + 5 * i) (by omega) hs, perform_drive_sda hd]
    rfl
  · exact exec_writeByte_slot hv hi (j := 2) (by decide) rfl (by omega) (by omega) hs
  · exact exec_writeByte_slot hv hi (j := 3) (by decide) rfl (by omega) (by omega) hs
  · exact exec_writeByte_slot hv hi (j := 4) (by decide) rfl (by omega) (by omega) hs
  · rw [exec_linear_last (i := .writeByte v) nofun hs (by rw [hp]; rfl) (by rw [hp, writeByteProgram_length_sw])]
    rfl

/-- The step at place `j` of read slot `i`. -/
theorem exec_readByte_slot {i j k k' : Nat} {m : MicroOp} (hv : s.params.variant = .SW) (hi : i < 8) (hj : j < 5)
    (hm : readSlot[j]? = some m) (hk : k = 1 + 5 * i + j) (hk' : k' = k + 1) (hs : s.seq = .run .readByte k) :
    exec .readByte s = andThen (m.perform s) fun t => .next (t.withSeq (.run .readByte k')) := by
  subst hk'
  refine exec_linear_step (i := .readByte) nofun hs ?_ ?_ <;> rw [microProgram_readByte_sw hv, readByteProgram]
  · exact (frame_getElem? rfl hi hj hk).trans hm
  · rw [readFrame_length_sw]
    omega

theorem insertLow_eq_or_ite (v : Byte) (b : Level) : insertLow v b = v ||| (if b then 0x01 else 0x00) := by cases b <;> rfl

/-- The sampling micro-operation of a read slot: the shift, the sample and the insertion are one (R105). -/
theorem perform_shiftSampleInsert (h : s.sdaDir = .IN) :
    (⟨[.shiftSr], .sample .SDA, [.insertSr]⟩ : MicroOp).perform s = .next { s with
      sr := insertLow (shiftLeftOne s.sr) s.device.sdaLevel, sdaIn := s.device.sdaLevel, device := s.device.afterSda,
      trace := s.trace ++ [.sample .SDA s.device.sdaLevel] } := by
  simp [MicroOp.perform, runPrim, sample, maySample, sampled, RegWrite.apply, State.emit, h]

/-- Settles O23: the first micro-operation, the five of each slot, and the last. -/
theorem readByteMicroOperations : Obligations.ReadByteMicroOperations := by
  intro s hv
  have hp := microProgram_readByte_sw hv
  refine ⟨fun hs => ?_, fun i hi => ⟨fun hs => ?_, fun hs => ?_, fun hs => ?_, fun hs hd => ?_, fun hs => ?_⟩, fun hs => ?_⟩
  · rw [exec_linear_step (i := .readByte) nofun hs (by rw [hp]; rfl) (by rw [hp, readByteProgram, readFrame_length_sw]; decide)]
    rfl
  · exact exec_readByte_slot hv hi (j := 0) (by decide) rfl (by omega) (by omega) hs
  · exact exec_readByte_slot hv hi (j := 1) (by decide) rfl (by omega) (by omega) hs
  · exact exec_readByte_slot hv hi (j := 2) (by decide) rfl (by omega) (by omega) hs
  · rw [exec_readByte_slot hv hi (j := 3) (by decide) rfl (by omega) (k' := 5 + 5 * i) (by omega) hs, perform_shiftSampleInsert hd,
      ← insertLow_eq_or_ite]
    rfl
  · exact exec_readByte_slot hv hi (j := 4) (by decide) rfl (by omega) (by omega) hs
  · rw [exec_linear_last (i := .readByte) nofun hs (by rw [hp]; rfl) (by rw [hp, readByteProgram, readFrame_length_sw])]
    rfl

end LinkEngine

/-! ## The framed operations -/

theorem oneByteTransaction_length (variant : Variant) (mode : Level) (v : Byte) :
    (oneByteTransaction variant mode v).length = (writeByteProgram variant v).length + 3 := by simp [oneByteTransaction]

/-- Settles O26: select, mode, the micro-operations of `writeByte` at offset 2, de-select. -/
theorem oneByteTransactionMicroOperations : Obligations.OneByteTransactionMicroOperations := by
  intro i mode v n s hi hn
  obtain ⟨hlinear, -, hprogram, hdata⟩ := oneByteTransaction_operation hi
  have hp := hprogram s.params
  have hwrite : (writeByteProgram s.params.variant v).length = n := by
    obtain ⟨hv, rfl⟩ | ⟨hv, rfl⟩ := hn <;> rw [hv]
    · exact writeByteProgram_length_sw v
    · exact writeByteProgram_length_hw v
  have hlen : (microProgram s.params i).length = n + 3 := by rw [hp, oneByteTransaction_length, hwrite]
  have hsplit : microProgram s.params i = [plain (.drive .CSN (.const false)), plain (.drive .DC (.const mode))] ++
      (writeByteProgram s.params.variant v ++ [plain (.drive .CSN (.const true))]) := hp
  refine ⟨fun hs => ?_, fun hs => ?_, fun j hj hs => ?_, fun hs => ?_⟩
  · rw [exec_linear_step hlinear hs (by rw [hp]; rfl) (by omega)]
    rfl
  · rw [exec_linear_step hlinear hs (by rw [hp]; rfl) (by omega)]
    rfl
  · have hplace := getElem?_of_eq_append (n := 2) hsplit rfl (hwrite.symm ▸ hj)
    exact exec_embedded (j := .writeByte v) hlinear nofun (hwrite.symm ▸ hj) hplace (by omega) (by omega) hs
  · have hlast : (microProgram s.params i)[2 + n]? = some (plain (.drive .CSN (.const true))) := by
      rw [hsplit, List.getElem?_append_right (by simp), List.getElem?_append_right (by simp [hwrite])]
      simp [hwrite]
    rw [exec_linear_last hlinear hs hlast (by omega), perform_drive (by decide), andThen_next, hdata]
    rfl

/-- The two read frames of a chip-ID transaction differ in their last micro-operation only (R126). -/
theorem readFrame_getElem?_inside (w w' : RegWrite) {j : Nat} (hj : j < 41) : (readFrame .SW w)[j]? = (readFrame .SW w')[j]? := by
  have hinside (u : RegWrite) : (readFrame .SW u)[j]? = (⟨[.loadSr 0x00#8], .setdir .IN, []⟩ :: slots Config.FRAME_BITS readSlot)[j]? :=
    List.getElem?_append_left (l₁ := ⟨[.loadSr 0x00#8], .setdir .IN, []⟩ :: slots Config.FRAME_BITS readSlot) (by simp [readSlot, Config.FRAME_BITS]; omega)
  rw [hinside, hinside]

/-- The three frames of a chip-ID transaction stand at the places 2, 45 and 87 of its micro-program (R126). -/
theorem readChipIdProgram_getElem? (opcode : Byte) {j : Nat} (hj : j < 42) :
    (readChipIdProgram .SW opcode)[2 + j]? = (writeByteProgram .SW opcode)[j]? ∧
    (readChipIdProgram .SW opcode)[45 + j]? = (readFrame .SW .rd0FromSr)[j]? ∧
    (readChipIdProgram .SW opcode)[87 + j]? = (readFrame .SW .rd1FromSr)[j]? := by
  have hw : j < (writeByteProgram .SW opcode).length := by simpa using hj
  have hr (w : RegWrite) : j < (readFrame .SW w).length := by simpa using hj
  refine ⟨?_, ?_, ?_⟩
  · exact getElem?_of_eq_append (before := [plain (.drive .CSN (.const false)), plain (.drive .DC (.const false))]) rfl rfl hw
  · refine getElem?_of_eq_append (before := plain (.drive .CSN (.const false)) :: plain (.drive .DC (.const false)) ::
      (writeByteProgram .SW opcode ++ [plain (.drive .DC (.const true))])) (after := readFrame .SW .rd1FromSr ++
      [plain (.drive .CSN (.const true))]) ?_ ?_ (hr _) <;> simp [readChipIdProgram]
  · refine getElem?_of_eq_append (before := plain (.drive .CSN (.const false)) :: plain (.drive .DC (.const false)) ::
      (writeByteProgram .SW opcode ++ plain (.drive .DC (.const true)) :: readFrame .SW .rd0FromSr)) (after :=
      [plain (.drive .CSN (.const true))]) ?_ ?_ (hr _) <;> simp [readChipIdProgram]

/-- Settles O30: select, mode, the micro-programs of `writeByte` and twice of `readByte` at their offsets, mode between them, de-select. -/
theorem readChipIdMicroOperations : Obligations.ReadChipIdMicroOperations := by
  intro s hv
  have hp : microProgram s.params .readChipId = readChipIdProgram .SW s.params.chipIdOpcode := by simp only [microProgram, hv]
  have hlen : (microProgram s.params .readChipId).length = 130 := by rw [hp, readChipIdProgram_length_sw]
  have hpw := microProgram_writeByte_sw hv s.params.chipIdOpcode
  have hpr := microProgram_readByte_sw hv
  have hlw : (microProgram s.params (.writeByte s.params.chipIdOpcode)).length = 42 := by rw [hpw, writeByteProgram_length_sw]
  have hlr : (microProgram s.params .readByte).length = 42 := by rw [hpr, readByteProgram, readFrame_length_sw]
  have step {k : Nat} {m : MicroOp} (hs : s.seq = .run .readChipId k) (hk : k + 1 < 130)
      (hm : (readChipIdProgram .SW s.params.chipIdOpcode)[k]? = some m) : exec .readChipId s = andThen (m.perform s) fun t => .next (t.withSeq (.run .readChipId (k + 1))) :=
    exec_linear_step (i := .readChipId) nofun hs (hp ▸ hm) (by omega)
  refine ⟨fun hs => step hs (by decide) rfl, fun hs => step hs (by decide) rfl, fun j hj hs => ?_, fun hs => step hs (by decide) rfl, fun j hj hs => ?_, fun j hj hs => ?_,
    fun hs => step hs (by decide) rfl, fun hs => ?_⟩
  · obtain ⟨hwrite, -, -⟩ := readChipIdProgram_getElem? s.params.chipIdOpcode hj
    exact exec_embedded (i := .readChipId) (j := .writeByte _) nofun nofun (by omega) (by rw [hp, hpw]; exact hwrite) (by omega) (by omega) hs
  · obtain ⟨-, hread, -⟩ := readChipIdProgram_getElem? s.params.chipIdOpcode hj
    exact exec_embedded (i := .readChipId) (j := .readByte) nofun nofun (by omega) (by rw [hp, hpr]; exact hread) (by omega) (by omega) hs
  · obtain ⟨-, -, hread⟩ := readChipIdProgram_getElem? s.params.chipIdOpcode (show j < 42 by omega)
    have hsame := readFrame_getElem?_inside .rd1FromSr .rd0FromSr hj
    exact exec_embedded_inside (i := .readChipId) (j := .readByte) nofun nofun (by omega) (by rw [hp, hpr]; exact hread.trans hsame)
      (by omega) (by omega) hs
  · rw [exec_linear_last (i := .readChipId) nofun hs (by rw [hp]; rfl) (by rw [hlen])]
    rfl

/-! ## runResetSequence -/

/-- With no limit a sample that reads 0 goes on to the poll interval, uncounted (R146, R148). -/
theorem pollDecision_unbounded {s : State} (hb : s.busyIn = false) (hl : s.params.busyPollLimit = none) :
    pollDecision s = { s with seq := .run .runResetSequence 9 } := by
  simp [pollDecision, notReady, hb, hl]

theorem State.polled_of_busyLevel {s : State} {b : Level} (hb : s.device.busyLevel = b) :
    s.polled = { s with
      rstate := .AwaitingBusy, busyIn := b, device := s.device.afterBusy, trace := s.trace ++ [.sample .BUSY b] } := by
  rw [← hb]
  rfl

/-- The micro-operations of the pulses go on to the next (R25, R142). -/
theorem exec_pulse {s : State} {k : Nat} {m : MicroOp} (hs : s.seq = .run .runResetSequence k) (hk : k < 8)
    (hm : (resetProgram s.params)[k]? = some m) :
    exec .runResetSequence s = andThen (m.perform s) fun t => .next (t.withSeq (.run .runResetSequence (k + 1))) := by
  rw [exec_running hs (show (microProgram s.params .runResetSequence)[k]? = some m from hm)]
  refine congrArg _ (funext fun t => congrArg _ ?_)
  show resetFollow 11 k t = _
  rw [resetFollow, if_neg (by omega), if_neg (by omega), advance, if_neg (by omega)]
  rfl

theorem perform_enterReset (r : RState) (b : Level) (s : State) :
    (enterReset r b).perform s = .next { s with rstate := r, rstnOut := b, trace := s.trace ++ [.drive .RSTN b] } := rfl

theorem exec_pulse_edge {s : State} {k : Nat} {r : RState} {b : Level} (hs : s.seq = .run .runResetSequence k) (hk : k < 8)
    (hm : (resetProgram s.params)[k]? = some (enterReset r b)) :
    exec .runResetSequence s = .next { s with
      rstate := r, rstnOut := b, trace := s.trace ++ [.drive .RSTN b], seq := .run .runResetSequence (k + 1) } := by
  rw [exec_pulse hs hk hm, perform_enterReset, andThen_next]
  rfl

theorem exec_pulse_hold {s : State} {k n : Nat} (hs : s.seq = .run .runResetSequence k) (hk : k < 8)
    (hm : (resetProgram s.params)[k]? = some (plain (.sleep n))) :
    exec .runResetSequence s = .next { s with trace := s.trace ++ [.sleep n], seq := .run .runResetSequence (k + 1) } := by
  rw [exec_pulse hs hk hm]
  rfl

/-- Settles O34: the edges and holds of the pulses, then the sample of `BUSY` with its outcomes, the poll interval and the settle delay. -/
theorem resetSequenceMicroOperations : Obligations.ResetSequenceMicroOperations := by
  intro s
  refine ⟨fun hs => exec_pulse_edge hs (by decide) rfl, fun hs => exec_pulse_hold hs (by decide) rfl,
    fun hs => exec_pulse_edge hs (by decide) rfl, fun hs => exec_pulse_hold hs (by decide) rfl,
    fun hs => exec_pulse_edge hs (by decide) rfl, fun hs => exec_pulse_hold hs (by decide) rfl,
    fun hs => exec_pulse_edge hs (by decide) rfl, fun hs => exec_pulse_hold hs (by decide) rfl, fun hs hb => ?_, fun hs hb hl => ?_,
    fun n c hs hb hl hc hn => ?_, fun c hs hb hl hc => ?_, exec_pollInterval, exec_readySettle⟩
  all_goals rw [exec_sampleBusy hs]
  · rw [pollDecision_ready (s := s.polled) hb, State.polled_of_busyLevel hb]
  · rw [pollDecision_unbounded (s := s.polled) hb hl, State.polled_of_busyLevel hb]
  · rw [pollDecision_below_limit (s := s.polled) hb hl hc hn, State.polled_of_busyLevel hb]
  · rw [pollDecision_at_limit (s := s.polled) hb hl hc, State.polled_of_busyLevel hb]
    rfl

end Sys2Proof.Machine
end

section
/-! The link engine and the framer from acceptance to completion (R101 to R128). -/

namespace Sys2Proof.Machine

/-! ## Samples -/

theorem sdaLevels_of_script {bits rest : List Level} {d : Device} (h : d.sda = bits ++ rest) : sdaLevels bits.length d = bits := by
  induction bits generalizing d with
  | nil => rfl
  | cons b bits ih =>
    obtain ⟨hlevel, hafter⟩ := Device.sda_script (d := d) h
    rw [List.length_cons, sdaLevels, hlevel, hafter, ih rfl]

theorem sdaLevels_last (n : Nat) (d : Device) : (sdaLevels (n + 1) d).getLast? = some (afterSdaLevels n d).sdaLevel := by
  rw [sdaLevels_add]
  exact List.getLast?_concat

/-- Eight bits shifted in are the bits of the byte in wire order (R63, R70). -/
theorem wireBits_byteOfBits {bits : List Level} (h : bits.length = 8) : wireBits (byteOfBits bits) = bits := by
  have hbit {j : Nat} (hj : j < 8) : (byteOfBits bits).getLsbD j = bits[7 - j] := by
    rw [byteOfBits, foldl_shiftIn_getLsbD bits _ (by omega) hj]
    congr 1
    omega
  match bits, h, @hbit with
  | [b0, b1, b2, b3, b4, b5, b6, b7], _, hbit =>
    simp (disch := decide) only [wireBits, hbit]
    rfl

/-! ## The runs -/

section Runs

variable {s : State}

/-- Settles O20: acceptance, then the write frame. -/
theorem writeByteRunsToCompletion : Obligations.WriteByteRunsToCompletion := by
  intro v s hv hs
  refine ⟨writeByteTrace_length v, ?_⟩
  rw [operate_writeByte (by simp [hv]) hs, hv, perform_writeByteProgram, andThen_next]
  simp [complete, State.respond, hs]

/-- `readByte` in `SW` from acceptance to completion, in terms of the device's next eight levels (R105). -/
theorem operate_readByte (hv : s.params.variant = .SW) (hs : s.seq = .idle) :
    operate .readByte 43 s = .next { s with
      sr := byteOfBits (sdaLevels 8 s.device), rd0 := byteOfBits (sdaLevels 8 s.device), sdaDir := .IN, sckOut := false,
      sdaIn := (afterSdaLevels 7 s.device).sdaLevel, device := afterSdaLevels 8 s.device,
      trace := s.trace ++ readByteTrace (sdaLevels 8 s.device), rsp := some ⟨.OK, [byteOfBits (sdaLevels 8 s.device)]⟩,
      responses := s.responses ++ [⟨.OK, [byteOfBits (sdaLevels 8 s.device)]⟩] } := by
  have hp : microProgram s.params .readByte = readFrame .SW .rd0FromSr := microProgram_readByte_sw hv
  rw [operate_linear (i := .readByte) nofun (by rw [hp, readFrame_length_sw]) (by rw [hp]; exact nofun) hs
    (onAccept_read_sw hv (.inl rfl)), hp, perform_readFrame, andThen_next]
  simp [complete, State.respond, RegWrite.apply, responseData, hs]

theorem readByteTrace_length (bits : List Level) : (readByteTrace bits).length = 5 * bits.length + 2 := by
  simp [readByteTrace, readSlotTrace, List.length_flatMap]
  omega

/-- Settles O24: the byte is the eight samples shifted in. -/
theorem readByteRunsToCompletion : Obligations.ReadByteRunsToCompletion := by
  intro s b0 b1 b2 b3 b4 b5 b6 b7 hv hs hbits
  have hlast : (afterSdaLevels 7 s.device).sdaLevel = b7 := by
    have h := sdaLevels_last 7 s.device
    rw [hbits] at h
    exact (Option.some.inj h).symm
  refine ⟨readByteTrace_length _, byteOfBits [b0, b1, b2, b3, b4, b5, b6, b7], wireBits_byteOfBits rfl, ?_⟩
  rw [operate_readByte hv hs, hbits, hlast]

theorem transactionTrace_sw_length (mode : Level) (v : Byte) : (transactionTrace .SW mode v).length = 45 := by
  simp [transactionTrace, frameTrace]

/-- Settles O27: acceptance, then select, mode, the write frame and de-select. -/
theorem oneByteTransactionRunsInSw : Obligations.OneByteTransactionRunsInSw := by
  intro i mode v s hi hv hs
  obtain ⟨hlinear, haccept, hprogram, hdata⟩ := oneByteTransaction_operation hi
  have hp : microProgram s.params i = oneByteTransaction .SW mode v := (hprogram s.params).trans (by rw [hv])
  refine ⟨transactionTrace_sw_length mode v, ?_⟩
  rw [operate_linear hlinear (by rw [hp, oneByteTransaction_length, writeByteProgram_length_sw]) (by rw [hp]; exact nofun) hs (haccept s),
    hp, perform_oneByteTransaction_sw, andThen_next, hdata]
  simp [complete, State.respond, hs, transactionTrace, frameTrace]

/-- Settles O28: acceptance, then select, mode, the transfer and de-select. -/
theorem oneByteTransactionRunsInHw : Obligations.OneByteTransactionRunsInHw := by
  intro i mode v s hi hv hs
  obtain ⟨hlinear, haccept, hprogram, hdata⟩ := oneByteTransaction_operation hi
  have hp : microProgram s.params i = oneByteTransaction .HW mode v := (hprogram s.params).trans (by rw [hv])
  rw [operate_linear hlinear (by rw [hp, oneByteTransaction_length, writeByteProgram_length_hw]) (by rw [hp]; exact nofun) hs (haccept s),
    hp, perform_oneByteTransaction_hw, andThen_next, hdata]
  simp [complete, State.respond, hs, transactionTrace, frameTrace]

theorem microProgram_readChipId_sw (hv : s.params.variant = .SW) :
    microProgram s.params .readChipId = readChipIdProgram .SW s.params.chipIdOpcode := by simp only [microProgram, hv]

/-- `readChipId` in `SW` from acceptance to completion, in terms of the device's next sixteen levels (R126). -/
theorem operate_readChipId (hv : s.params.variant = .SW) (hs : s.seq = .idle) {v0 v1 : Byte} (h0 : byteOfBits (sdaLevels 8 s.device) = v0)
    (h1 : byteOfBits (sdaLevels 8 (afterSdaLevels 8 s.device)) = v1) :
    operate .readChipId 131 s = .next { s with
      csnOut := true, dcOut := true, sr := v1, rd0 := v0, rd1 := v1, sdaDir := .IN, sckOut := false,
      sdaOut := s.params.chipIdOpcode.getLsbD 0, sdaIn := (afterSdaLevels 15 s.device).sdaLevel, device := afterSdaLevels 16 s.device,
      trace := s.trace ++ chipIdTrace s.params.chipIdOpcode (sdaLevels 8 s.device) (sdaLevels 8 (afterSdaLevels 8 s.device)),
      rsp := some ⟨.OK, [v0, v1]⟩, responses := s.responses ++ [⟨.OK, [v0, v1]⟩] } := by
  have hp := microProgram_readChipId_sw hv
  rw [operate_linear (i := .readChipId) nofun (by rw [hp, readChipIdProgram_length_sw]) (by rw [hp]; exact nofun) hs
    (onAccept_read_sw hv (.inr rfl)), hp, perform_readChipIdProgram, andThen_next, h0, h1]
  simp [complete, State.respond, responseData, hs]

theorem chipIdTrace_length (opcode : Byte) (bits0 bits1 : List Level) :
    (chipIdTrace opcode bits0 bits1).length = 5 * (bits0.length + bits1.length) + 50 := by
  simp [chipIdTrace, readByteTrace_length]
  omega

/-- Settles O31: the sixteen samples are the bits of the two bytes, eight for each read frame. -/
theorem readChipIdRunsToCompletion : Obligations.ReadChipIdRunsToCompletion := by
  intro s v0 v1 hv hs hbits
  have hlast : (afterSdaLevels 15 s.device).sdaLevel = v1.getLsbD 0 := by
    have h := sdaLevels_last 15 s.device
    rw [hbits] at h
    exact (Option.some.inj h).symm
  have hsplit := (sdaLevels_add 8 8 s.device).symm.trans hbits
  obtain ⟨h0, h1⟩ := List.append_inj hsplit (sdaLevels_length 8 _)
  refine ⟨chipIdTrace_length _ _ _, _, operate_readChipId hv hs (h0 ▸ byteOfBits_wireBits v0) (h1 ▸ byteOfBits_wireBits v1), rfl, ?_⟩
  rw [h0, h1, hlast]

/-- The micro-operations of `readChipId` up to the turn-around: select, mode, the opcode, mode (R126). -/
def chipIdOpening (opcode : Byte) : List MicroOp :=
  plain (.drive .CSN (.const false)) :: plain (.drive .DC (.const false)) :: (writeByteProgram .SW opcode ++ [plain (.drive .DC (.const true))])

theorem chipIdOpening_length (opcode : Byte) : (chipIdOpening opcode).length = 45 := by simp [chipIdOpening]

/-- The micro-operation after the opening releases the wire. -/
theorem readChipIdProgram_eq_opening (opcode : Byte) :
    ∃ after, readChipIdProgram .SW opcode = chipIdOpening opcode ++ ⟨[.loadSr 0x00#8], .setdir .IN, []⟩ :: after :=
  ⟨_, by
    rw [readChipIdProgram, chipIdOpening, readFrame]
    simp only [List.cons_append, List.append_assoc, List.nil_append]
    rfl⟩

theorem perform_chipIdOpening (opcode : Byte) (s : State) :
    performAll (chipIdOpening opcode) s = .next { s with
      csnOut := false, dcOut := true, sr := 0x00#8, sdaDir := .OUT, sckOut := false, sdaOut := opcode.getLsbD 0,
      trace := s.trace ++ ([.drive .CSN false, .drive .DC false] ++ writeByteTrace opcode ++ [.drive .DC true]) } := by
  rw [chipIdOpening, performAll_drive (by decide), performAll_drive (by decide), performAll_append, perform_writeByteProgram, andThen_next,
    performAll_drive (by decide), performAll_nil]
  simp [State.setOut, State.emit]

/-- `readChipId` in `SW` from acceptance to the turn-around. -/
theorem operate_chipIdOpening (hv : s.params.variant = .SW) (hs : s.seq = .idle) :
    operate .readChipId 46 s = .next { s with
      csnOut := false, dcOut := true, sr := 0x00#8, sdaDir := .OUT, sckOut := false, sdaOut := s.params.chipIdOpcode.getLsbD 0,
      trace := s.trace ++ ([.drive .CSN false, .drive .DC false] ++ writeByteTrace s.params.chipIdOpcode ++ [.drive .DC true]),
      seq := .run .readChipId 45 } := by
  obtain ⟨after, hsplit⟩ := readChipIdProgram_eq_opening s.params.chipIdOpcode
  have haccept : operate .readChipId 1 s = .next (accept .readChipId s) := by
    simp [operate, exec_idle hs, onAccept_read_sw hv (.inr rfl)]
  have hopening := operate_segment (i := .readChipId) nofun [] (chipIdOpening s.params.chipIdOpcode) _ after (s := accept .readChipId s)
    ((microProgram_readChipId_sw hv).trans hsplit) rfl
  rw [chipIdOpening_length, perform_chipIdOpening, andThen_next] at hopening
  rw [show 46 = 1 + 45 from rfl, operate_add, haccept, andThen_next, hopening]
  rfl

/-- The step of the turn-around releases the wire (R105, R202). -/
theorem exec_chipIdTurnAround (hv : s.params.variant = .SW) (hs : s.seq = .run .readChipId 45) :
    exec .readChipId s = .next { s with
      sr := 0x00#8, sdaDir := .IN, trace := s.trace ++ [.dir .IN], seq := .run .readChipId 46 } := by
  have hp := microProgram_readChipId_sw hv
  obtain ⟨after, hsplit⟩ := readChipIdProgram_eq_opening s.params.chipIdOpcode
  have hplace : (microProgram s.params .readChipId)[45]? = some ⟨[.loadSr 0x00#8], .setdir .IN, []⟩ := by
    rw [hp, hsplit, List.getElem?_append_right (chipIdOpening_length _).le, chipIdOpening_length]
    rfl
  rw [exec_linear_step (i := .readChipId) nofun hs hplace (by rw [hp, readChipIdProgram_length_sw]; decide)]
  rfl

/-- Settles O33: the opening ends with the wire still driven, and the next step releases it. -/
theorem chipIdTurnAround : Obligations.ChipIdTurnAround := by
  intro s hv hs
  exact ⟨_, _, operate_chipIdOpening hv hs, rfl, rfl, rfl, rfl, rfl, rfl, exec_chipIdTurnAround hv rfl, rfl, rfl, rfl⟩

end Runs

/-! ## Reading the traces -/

/-- A running value that no event of a stretch changes is noted as it is at each rising edge. -/
theorem atRisingEdges_const {α : Type} {update : α → Event → α} {a : α} {es : List Event} (h : ∀ e ∈ es, update a e = a) :
    atRisingEdges update a es = List.replicate (es.count (.drive .SCK true)) a ∧ es.foldl update a = a := by
  induction es with
  | nil => exact ⟨rfl, rfl⟩
  | cons e es ih =>
    obtain ⟨hedges, hfold⟩ := ih fun e' he' => h e' (.tail _ he')
    rw [atRisingEdges, List.foldl_cons, h e (.head _), hedges, List.count_cons]
    refine ⟨?_, hfold⟩
    split <;> simp_all [List.replicate_succ]

theorem atRisingEdges_append {α : Type} (update : α → Event → α) (a : α) (es es' : List Event) :
    atRisingEdges update a (es ++ es') = atRisingEdges update a es ++ atRisingEdges update (es.foldl update a) es' := by
  induction es generalizing a with
  | nil => rfl
  | cons e es ih => simp only [List.cons_append, atRisingEdges, List.foldl_cons, ih, List.append_assoc]

theorem lineLevel_of_not_drives {l : OutLine} {e : Event} (h : drives l e = false) (known : Option Level) : lineLevel l known e = known := by
  simp only [drives, Bool.or_eq_false_iff, decide_eq_false_iff_not] at h
  rw [lineLevel, if_neg h.1, if_neg h.2]

/-- A line that a stretch does not drive has one level at all its rising edges. -/
theorem lineLevel_atRisingEdges {l : OutLine} {es : List Event} (h : ∀ e ∈ es, drives l e = false) (known : Option Level) :
    atRisingEdges (lineLevel l) known es = List.replicate (es.count (.drive .SCK true)) known ∧ es.foldl (lineLevel l) known = known :=
  atRisingEdges_const fun e he => lineLevel_of_not_drives (h e he) known

/-! ### The write frame -/

theorem writeByteTrace_not_drives {l : OutLine} (hsck : l ≠ .SCK) (hsda : l ≠ .SDA) (v : Byte) : ∀ e ∈ writeByteTrace v, drives l e = false := by
  intro e he
  simp only [writeByteTrace, List.mem_cons, List.mem_append, List.mem_flatMap, writeSlotTrace, List.not_mem_nil, or_false] at he
  rcases he with rfl | ⟨b, -, rfl | rfl | rfl | rfl | rfl⟩ | rfl <;> simp [drives, hsck.symm, hsda.symm]

theorem count_rise_writeByteTrace (v : Byte) : (writeByteTrace v).count (.drive .SCK true) = 8 := by
  rw [writeByteTrace, List.count_cons_of_ne (by simp)]
  exact count_rise_writeSlots (wireBits v)

theorem countP_samplesSda_writeByteTrace (v : Byte) : (writeByteTrace v).countP samplesSda = 0 := by
  rw [List.countP_eq_zero]
  intro e he
  simp only [writeByteTrace, List.mem_cons, List.mem_append, List.mem_flatMap, writeSlotTrace, List.not_mem_nil, or_false] at he
  rcases he with rfl | ⟨b, -, rfl | rfl | rfl | rfl | rfl⟩ | rfl <;> simp [samplesSda]

/-- The receiver sees the byte, whatever was on the wire before. -/
theorem received_writeByteTrace (known : Option Level) (v : Byte) :
    atRisingEdges speLevel known (writeByteTrace v) = (wireBits v).map some :=
  atRisingEdges_writeSlots (wireBits v) none

/-! ### The read frame -/

theorem mem_readByteTrace {bits : List Level} {e : Event} (h : e ∈ readByteTrace bits) :
    (∃ d, e = .dir d) ∨ (∃ b, e = .drive .SCK b) ∨ e = .delayEdge ∨ ∃ b, e = .sample .SDA b := by
  simp only [readByteTrace, List.mem_cons, List.mem_append, List.mem_flatMap, readSlotTrace, List.not_mem_nil, or_false] at h
  rcases h with rfl | ⟨b, -, rfl | rfl | rfl | rfl | rfl⟩ | rfl <;> simp

theorem readByteTrace_not_drives {l : OutLine} (hsck : l ≠ .SCK) (bits : List Level) : ∀ e ∈ readByteTrace bits, drives l e = false := by
  intro e he
  obtain ⟨d, rfl⟩ | ⟨b, rfl⟩ | rfl | ⟨b, rfl⟩ := mem_readByteTrace he <;> simp [drives, hsck.symm]

theorem count_rise_readByteTrace (bits : List Level) : (readByteTrace bits).count (.drive .SCK true) = bits.length := by
  have hslots : (bits.flatMap readSlotTrace).count (.drive .SCK true) = bits.length := by
    induction bits with
    | nil => rfl
    | cons b bits ih => simp [readSlotTrace, ih]
  simp [readByteTrace, hslots]

theorem countP_samplesSda_readByteTrace (bits : List Level) : (readByteTrace bits).countP samplesSda = bits.length := by
  have hslots : (bits.flatMap readSlotTrace).countP samplesSda = bits.length := by
    induction bits with
    | nil => rfl
    | cons b bits ih => cases b <;> simp [readSlotTrace, samplesSda, ih]
  simp [readByteTrace, hslots, samplesSda]

/-- During a read frame the SPE drives nothing on the wire. -/
theorem received_readByteTrace (known : Option Level) (bits : List Level) :
    atRisingEdges speLevel known (readByteTrace bits) = List.replicate bits.length none := by
  have hquiet : ∀ e ∈ readByteTrace bits, speLevel none e = none := by
    intro e he
    obtain ⟨d, rfl⟩ | ⟨b, rfl⟩ | rfl | ⟨b, rfl⟩ := mem_readByteTrace he <;> rfl
  rw [← count_rise_readByteTrace bits, ← (atRisingEdges_const hquiet).1]
  rfl

/-! ### Edges and samples -/

/-- Each rising edge is followed at once by a sample of `SDA`, and each sample but one in front follows a rising edge. -/
def EdgesSampled (es : List Event) : Prop :=
  ∀ k, es[k]? = some (.drive .SCK true) ↔ ∃ e, es[k + 1]? = some e ∧ samplesSda e = true

def StartsUnsampled (es : List Event) : Prop := ∀ e, es.head? = some e → samplesSda e = false

theorem EdgesSampled.cons {e : Event} {es : List Event} (he : e = .drive .SCK true ↔ ∃ e', es.head? = some e' ∧ samplesSda e' = true)
    (hes : EdgesSampled es) : EdgesSampled (e :: es) := by
  intro k
  cases k with
  | zero => simpa [List.head?_eq_getElem?] using he
  | succ k => exact hes k

/-- An event that is no rising edge, before a stretch that does not start with a sample. -/
theorem EdgesSampled.cons_quiet {e : Event} {es : List Event} (he : e ≠ .drive .SCK true) (hstart : StartsUnsampled es)
    (hes : EdgesSampled es) : EdgesSampled (e :: es) :=
  hes.cons (iff_of_false he fun ⟨e', hhead, hsample⟩ => by simp [hstart e' hhead] at hsample)

theorem startsUnsampled_cons {e : Event} (h : samplesSda e = false) (es : List Event) : StartsUnsampled (e :: es) := by
  intro e' he'
  obtain rfl : e = e' := Option.some.inj he'
  exact h

theorem edgesSampled_readSlots (bits : List Level) {rest : List Event} (hstart : StartsUnsampled rest) (hrest : EdgesSampled rest) :
    StartsUnsampled (bits.flatMap readSlotTrace ++ rest) ∧ EdgesSampled (bits.flatMap readSlotTrace ++ rest) := by
  induction bits with
  | nil => exact ⟨hstart, hrest⟩
  | cons b bits ih =>
    obtain ⟨hnext, hsampled⟩ := ih
    have hdelay := hsampled.cons_quiet (e := .delayEdge) nofun hnext
    have hsample := hdelay.cons_quiet (e := .sample .SDA b) nofun (startsUnsampled_cons rfl _)
    have hrise := hsample.cons (e := .drive .SCK true) (iff_of_true rfl ⟨_, rfl, by cases b <;> rfl⟩)
    have hhold := hrise.cons_quiet (e := .delayEdge) nofun (startsUnsampled_cons rfl _)
    exact ⟨startsUnsampled_cons rfl _, hhold.cons_quiet (e := .drive .SCK false) (by simp) (startsUnsampled_cons rfl _)⟩

theorem edgesSampled_readByteTrace (bits : List Level) {rest : List Event} (hstart : StartsUnsampled rest) (hrest : EdgesSampled rest) :
    StartsUnsampled (readByteTrace bits ++ rest) ∧ EdgesSampled (readByteTrace bits ++ rest) := by
  have hfall := hrest.cons_quiet (e := .drive .SCK false) (by simp) hstart
  obtain ⟨hslots, hsampled⟩ := edgesSampled_readSlots bits (startsUnsampled_cons rfl _) hfall
  have hdir := hsampled.cons_quiet (e := .dir .IN) nofun hslots
  rw [readByteTrace, List.cons_append, List.append_assoc]
  exact ⟨startsUnsampled_cons rfl _, hdir⟩

theorem edgesSampled_nil : EdgesSampled [] := fun k => by simp

end Sys2Proof.Machine
end

section
/-! The wire properties of the read frame, of the one-byte transactions and of the chip-ID transaction (R106, R124, R125, R127). -/

namespace Sys2Proof.Machine

/-! ## The loop-back -/

/-- Settles O25: the read frame pairs each rising edge with a sample, and the levels the receiver notes of `writeByte(v)` are the bits of `v`. -/
theorem loopBackReturnsTheByte : Obligations.LoopBackReturnsTheByte := by
  refine ⟨fun s hv hs => ?_, fun v s hv hs => ?_⟩
  · have hsamples := sdaLevels_length 8 s.device
    have hpairs := edgesSampled_readByteTrace (sdaLevels 8 s.device) (rest := []) nofun edgesSampled_nil
    rw [List.append_nil] at hpairs
    refine ⟨_, readByteTrace (sdaLevels 8 s.device), operate_readByte hv hs, rfl, ?_, ?_, hpairs.2, rfl, ?_, ?_⟩
    · rw [count_rise_readByteTrace, hsamples]
    · rw [countP_samplesSda_readByteTrace, hsamples]
    · simpa [List.countP_eq_zero] using readByteTrace_not_drives (by decide) (sdaLevels 8 s.device)
    · rw [readByteTrace, ← List.cons_append, List.getLast?_concat]
  · obtain ⟨-, hwrite⟩ := writeByteRunsToCompletion v s hv hs
    refine ⟨_, writeByteTrace v, wireBits v, hwrite, rfl, received_writeByteTrace none v, fun rest => ?_⟩
    have hbits : sdaLevels 8 { s.device with sda := wireBits v ++ rest } = wireBits v := sdaLevels_of_script (bits := wireBits v) rfl
    have hbyte : byteOfBits (sdaLevels 8 { s.device with sda := wireBits v ++ rest }) = v := by rw [hbits, byteOfBits_wireBits]
    refine ⟨_, operate_readByte hv hs, hbyte, ?_⟩
    show some (Response.mk .OK [byteOfBits (sdaLevels 8 { s.device with sda := wireBits v ++ rest })]) = _
    rw [hbyte]

/-! ## The one-byte transactions -/

theorem frameTrace_not_drives {l : OutLine} (hsck : l ≠ .SCK) (hsda : l ≠ .SDA) (variant : Variant) (v : Byte) :
    (frameTrace variant v).countP (drives l) = 0 := by
  rw [List.countP_eq_zero]
  cases variant with
  | SW => simpa [frameTrace] using writeByteTrace_not_drives hsck hsda v
  | HW => simp [frameTrace, drives]

/-- The transaction's own events are the two of select around, and the one of mode in front of, the byte. -/
theorem transactionTrace_countP_drives (variant : Variant) (mode : Level) (v : Byte) :
    (transactionTrace variant mode v).countP (drives .CSN) = 2 ∧ (transactionTrace variant mode v).countP (drives .DC) = 1 := by
  have hselect := frameTrace_not_drives (l := .CSN) (by decide) (by decide) variant v
  have hmode := frameTrace_not_drives (l := .DC) (by decide) (by decide) variant v
  simp only [transactionTrace, List.countP_append, hselect, hmode]
  cases mode <;> exact ⟨rfl, rfl⟩

/-- In either variant a one-byte transaction runs to its end and adds its trace. -/
theorem operate_oneByteTransaction {i : Instr} {mode : Level} {v : Byte} {s : State}
    (hi : (i = .sendCommand v ∧ mode = false) ∨ (i = .sendData v ∧ mode = true)) (hs : s.seq = .idle) :
    ∃ n t, operate i n s = .next t ∧ t.seq = .idle ∧ t.rsp = some ⟨.OK, []⟩ ∧ t.csnOut = true ∧
      t.trace = s.trace ++ transactionTrace s.params.variant mode v := by
  cases hv : s.params.variant with
  | SW => exact ⟨46, _, (oneByteTransactionRunsInSw i mode v s hi hv hs).2, hs, rfl, rfl, rfl⟩
  | HW => exact ⟨5, _, oneByteTransactionRunsInHw i mode v s hi hv hs, hs, rfl, rfl, rfl⟩

/-- Settles O29: the two drives of select are the ends of the transaction's trace; and an idle SPE that meets the invariant has select released. -/
theorem selectBracketsAndModeLeads : Obligations.SelectBracketsAndModeLeads := by
  refine ⟨fun i mode v s hi hs => ?_, fun n s t h hrun hidle => ?_⟩
  · obtain ⟨n, t, hrun, hseq, hrsp, hcsn, htrace⟩ := operate_oneByteTransaction hi hs
    obtain ⟨hselect, hmode⟩ := transactionTrace_countP_drives s.params.variant mode v
    refine ⟨n, t, _, hrun, hseq, hrsp, hcsn, htrace, rfl, ?_, hselect, rfl, hmode, rfl⟩
    rw [transactionTrace, List.getLast?_concat]
  · have hlines := (run_keeps_inv h hrun).lines
    simp only [linesLawful, hidle] at hlines
    obtain ⟨-, hcsn, -⟩ := hlines
    exact hcsn

/-! ## The chip-ID transaction -/

theorem atRisingEdges_cons_other {α : Type} (update : α → Event → α) (a : α) {e : Event} (h : e ≠ .drive .SCK true) (es : List Event) :
    atRisingEdges update a (e :: es) = atRisingEdges update (update a e) es := by
  rw [atRisingEdges, if_neg h, List.nil_append]

section ChipId

variable (opcode : Byte) {bits0 bits1 : List Level}

/-- The two read frames of a chip-ID transaction and its end. -/
def chipIdReads (bits0 bits1 : List Level) : List Event := readByteTrace bits0 ++ (readByteTrace bits1 ++ [.drive .CSN true])

theorem chipIdTrace_eq (bits0 bits1 : List Level) :
    chipIdTrace opcode bits0 bits1 =
      .drive .CSN false :: .drive .DC false :: (writeByteTrace opcode ++ .drive .DC true :: chipIdReads bits0 bits1) := by
  simp [chipIdTrace, chipIdReads]

theorem chipIdReads_counts (h0 : bits0.length = 8) (h1 : bits1.length = 8) :
    (chipIdReads bits0 bits1).count (.drive .SCK true) = 16 ∧ (chipIdReads bits0 bits1).countP samplesSda = 16 := by
  simp only [chipIdReads, List.count_append, List.countP_append, count_rise_readByteTrace, countP_samplesSda_readByteTrace, h0, h1]
  exact ⟨rfl, rfl⟩

theorem chipIdTrace_counts (h0 : bits0.length = 8) (h1 : bits1.length = 8) :
    (chipIdTrace opcode bits0 bits1).count (.drive .SCK true) = 24 ∧ (chipIdTrace opcode bits0 bits1).countP samplesSda = 16 := by
  obtain ⟨hrises, hsamples⟩ := chipIdReads_counts h0 h1
  rw [chipIdTrace_eq]
  refine ⟨?_, ?_⟩
  · simp [count_rise_writeByteTrace, hrises]
  · simp [countP_samplesSda_writeByteTrace, hsamples, samplesSda]

/-- The receiver sees the opcode, and nothing of the SPE's in the read frames. -/
theorem received_chipIdTrace (h0 : bits0.length = 8) (h1 : bits1.length = 8) :
    received (chipIdTrace opcode bits0 bits1) = (wireBits opcode).map some ++ List.replicate 16 none := by
  have hreads (known : Option Level) : atRisingEdges speLevel known (chipIdReads bits0 bits1) = List.replicate 16 none := by
    simp only [chipIdReads, atRisingEdges_append, received_readByteTrace, h0, h1]
    rfl
  rw [received, chipIdTrace_eq, atRisingEdges_cons_other _ _ (by simp), atRisingEdges_cons_other _ _ (by simp), atRisingEdges_append,
    received_writeByteTrace, atRisingEdges_cons_other _ _ (by simp), hreads]

theorem chipIdReads_not_drives_mode (bits0 bits1 : List Level) : ∀ e ∈ chipIdReads bits0 bits1, drives .DC e = false := by
  intro e he
  simp only [chipIdReads, List.mem_append, List.mem_singleton] at he
  rcases he with he | he | rfl
  · exact readByteTrace_not_drives (by decide) bits0 e he
  · exact readByteTrace_not_drives (by decide) bits1 e he
  · rfl

/-- Command mode at the eight edges of the opcode, data mode at the others. -/
theorem modeAtEdges_chipIdTrace (h0 : bits0.length = 8) (h1 : bits1.length = 8) :
    modeAtEdges (chipIdTrace opcode bits0 bits1) = List.replicate 8 (some false) ++ List.replicate 16 (some true) := by
  have hwrite := lineLevel_atRisingEdges (writeByteTrace_not_drives (l := .DC) (by decide) (by decide) opcode)
    (lineLevel .DC (lineLevel .DC none (.drive .CSN false)) (.drive .DC false))
  have hreads (known : Option Level) := lineLevel_atRisingEdges (chipIdReads_not_drives_mode bits0 bits1) (lineLevel .DC known (.drive .DC true))
  simp only [count_rise_writeByteTrace, (chipIdReads_counts h0 h1).1] at hwrite hreads
  rw [modeAtEdges, chipIdTrace_eq, atRisingEdges_cons_other _ _ (by simp), atRisingEdges_cons_other _ _ (by simp), atRisingEdges_append,
    hwrite.1, atRisingEdges_cons_other _ _ (by simp), (hreads _).1]
  rfl

/-- What a chip-ID transaction does between its two drives of select. -/
def chipIdSelected (bits0 bits1 : List Level) : List Event :=
  .drive .DC false :: (writeByteTrace opcode ++ .drive .DC true :: (readByteTrace bits0 ++ readByteTrace bits1))

theorem chipIdTrace_eq_selected (bits0 bits1 : List Level) :
    chipIdTrace opcode bits0 bits1 = .drive .CSN false :: (chipIdSelected opcode bits0 bits1 ++ [.drive .CSN true]) := by
  simp [chipIdTrace, chipIdSelected]

theorem chipIdSelected_not_drives_select (bits0 bits1 : List Level) : ∀ e ∈ chipIdSelected opcode bits0 bits1, drives .CSN e = false := by
  intro e he
  simp only [chipIdSelected, List.mem_cons, List.mem_append] at he
  rcases he with rfl | he | rfl | he | he
  · rfl
  · exact writeByteTrace_not_drives (by decide) (by decide) opcode e he
  · rfl
  · exact readByteTrace_not_drives (by decide) bits0 e he
  · exact readByteTrace_not_drives (by decide) bits1 e he

/-- Select is asserted at every edge. -/
theorem selectAtEdges_chipIdTrace (h0 : bits0.length = 8) (h1 : bits1.length = 8) :
    selectAtEdges (chipIdTrace opcode bits0 bits1) = List.replicate 24 (some false) := by
  have hselected := lineLevel_atRisingEdges (chipIdSelected_not_drives_select opcode bits0 bits1) (lineLevel .CSN none (.drive .CSN false))
  have hrises : (chipIdSelected opcode bits0 bits1).count (.drive .SCK true) = 24 := by
    simp [chipIdSelected, count_rise_writeByteTrace, count_rise_readByteTrace, h0, h1]
  rw [hrises] at hselected
  rw [selectAtEdges, chipIdTrace_eq_selected, atRisingEdges_cons_other _ _ (by simp), atRisingEdges_append, hselected.1]
  rfl

theorem chipIdTrace_countP_drives (bits0 bits1 : List Level) :
    (chipIdTrace opcode bits0 bits1).countP (drives .CSN) = 2 ∧ (chipIdTrace opcode bits0 bits1).countP (drives .DC) = 2 := by
  have hselected : (chipIdSelected opcode bits0 bits1).countP (drives .CSN) = 0 := by
    simpa [List.countP_eq_zero] using chipIdSelected_not_drives_select opcode bits0 bits1
  have hreads : (chipIdReads bits0 bits1).countP (drives .DC) = 0 := by
    simpa [List.countP_eq_zero] using chipIdReads_not_drives_mode bits0 bits1
  have hwrite : (writeByteTrace opcode).countP (drives .DC) = 0 := frameTrace_not_drives (by decide) (by decide) .SW opcode
  refine ⟨?_, ?_⟩
  · simp [chipIdTrace_eq_selected, hselected, drives]
  · simp [chipIdTrace_eq, hwrite, hreads, drives]

/-- After the opcode, edges and samples go in pairs. -/
theorem chipIdTrace_edgesSampled (bits0 bits1 : List Level) {k : Nat} (hk : 44 < k) :
    (chipIdTrace opcode bits0 bits1)[k]? = some (.drive .SCK true) ↔
      ∃ e, (chipIdTrace opcode bits0 bits1)[k + 1]? = some e ∧ samplesSda e = true := by
  have hend : EdgesSampled [.drive .CSN true] := edgesSampled_nil.cons_quiet (by simp) nofun
  obtain ⟨hstart, hsecond⟩ := edgesSampled_readByteTrace bits1 (startsUnsampled_cons rfl _) hend
  obtain ⟨-, hreads⟩ := edgesSampled_readByteTrace bits0 hstart hsecond
  have hplace (j : Nat) : (chipIdTrace opcode bits0 bits1)[45 + j]? = (chipIdReads bits0 bits1)[j]? := by
    rw [chipIdTrace_eq, show ∀ es : List Event, Event.drive .CSN false :: .drive .DC false :: (writeByteTrace opcode ++ .drive .DC true :: es) =
      (.drive .CSN false :: .drive .DC false :: (writeByteTrace opcode ++ [.drive .DC true])) ++ es by simp,
      List.getElem?_append_right (by simp)]
    simp
  obtain ⟨j, rfl⟩ : ∃ j, k = 45 + j := ⟨k - 45, by omega⟩
  rw [Nat.add_assoc, hplace, hplace]
  exact hreads j

end ChipId

/-- Settles O32: the fixture's samples are the bits of 0x12 and 0x34; the rest is read off the trace, for any samples. -/
theorem readChipIdProperties : Obligations.ReadChipIdProperties := by
  refine ⟨fun s rest hv _ hs hd => ?_, fun s hv hs => ?_⟩
  · obtain ⟨-, t, hrun, -, ht⟩ := readChipIdRunsToCompletion s 0x12 0x34 hv hs (sdaLevels_of_script hd)
    exact ⟨t, hrun, by rw [ht]⟩
  · have h0 := sdaLevels_length 8 s.device
    have h1 := sdaLevels_length 8 (afterSdaLevels 8 s.device)
    obtain ⟨hrises, hsamples⟩ := chipIdTrace_counts s.params.chipIdOpcode h0 h1
    obtain ⟨hselect, hmode⟩ := chipIdTrace_countP_drives s.params.chipIdOpcode (sdaLevels 8 s.device) (sdaLevels 8 (afterSdaLevels 8 s.device))
    refine ⟨_, _, operate_readChipId hv hs rfl rfl, rfl, received_chipIdTrace _ h0 h1, modeAtEdges_chipIdTrace _ h0 h1,
      selectAtEdges_chipIdTrace _ h0 h1, rfl, ?_, hselect, rfl, rfl, rfl, rfl, rfl, hmode, hrises, hsamples,
      fun k hk => chipIdTrace_edgesSampled _ _ _ hk⟩
    rw [chipIdTrace, List.getLast?_concat]

end Sys2Proof.Machine
end

section
/-! `runResetSequence` from acceptance: the poll rounds, with and without a limit, and its completion (R142, R146, R148). -/

namespace Sys2Proof.Machine

theorem busyLevels_succ_last (n : Nat) (d : Device) : busyLevels (n + 1) d = busyLevels n d ++ [(afterBusyLevels n d).busyLevel] := by
  induction n generalizing d with
  | zero => rfl
  | succ n ih =>
    rw [busyLevels, ih]
    rfl

theorem afterBusyLevels_succ_last (n : Nat) (d : Device) : afterBusyLevels (n + 1) d = (afterBusyLevels n d).afterBusy := by
  induction n generalizing d with
  | zero => rfl
  | succ n ih =>
    rw [afterBusyLevels, ih]
    rfl

theorem busyLevels_split {n : Nat} {d : Device} {b : Level} (h : busyLevels (n + 1) d = List.replicate n false ++ [b]) :
    busyLevels n d = List.replicate n false ∧ (afterBusyLevels n d).busyLevel = b := by
  rw [busyLevels_succ_last] at h
  obtain ⟨hfirst, hlast⟩ := List.append_inj' h rfl
  exact ⟨hfirst, List.cons.inj hlast |>.1⟩

/-- `POLLCNT` at a count of `c`: it counts only where a limit is configured (R32, R146). -/
def State.countAt (c : Nat) (s : State) : Option Nat :=
  match s.params.busyPollLimit with
  | none => s.pollcnt
  | some _ => some c

theorem State.countAt_limit {s : State} {limit : Nat} (h : s.params.busyPollLimit = some limit) (c : Nat) : s.countAt c = some c := by
  rw [State.countAt, h]

/-- A later count does not depend on an earlier one. -/
theorem State.countAt_countAt {s t : State} {c : Nat} (hp : t.params = s.params) (hc : t.pollcnt = s.countAt c) (c' : Nat) :
    t.countAt c' = s.countAt c' := by
  unfold State.countAt at *
  rw [hp]
  split
  · simp_all
  · rfl

/-- A sample that reads 0 short of the limit, or where there is none, goes on to the poll interval (R146, R148). -/
theorem pollDecision_polls_on {s : State} {c : Nat} (hb : s.busyIn = false) (hc : s.pollcnt = s.countAt c)
    (hl : ∀ limit, s.params.busyPollLimit = some limit → c + 1 ≠ limit) :
    pollDecision s = { s with pollcnt := s.countAt (c + 1), seq := .run .runResetSequence 9 } := by
  cases hlimit : s.params.busyPollLimit with
  | none => rw [pollDecision_unbounded hb hlimit, State.countAt, hlimit]
  | some limit =>
    rw [State.countAt_limit hlimit] at hc ⊢
    exact pollDecision_below_limit hb hlimit hc (hl limit hlimit)

/-- The state after `n` poll rounds, for some contents of `RSTATE` and `LINE[BUSY].in`. -/
def State.afterPolls (n c : Nat) (r : RState) (b : Level) (s : State) : State :=
  { s with
    rstate := r
    busyIn := b
    pollcnt := s.countAt (c + n)
    device := afterBusyLevels n s.device
    trace := s.trace ++ pollTrace s.params.busyPollInterval n }

/-- One poll round below the limit: a sample that reads 0, then the poll interval. -/
theorem operate_pollOnce {c : Nat} {s : State} (hs : s.seq = .run .runResetSequence 8) (hc : s.pollcnt = s.countAt c)
    (hl : ∀ limit, s.params.busyPollLimit = some limit → c + 1 ≠ limit) (hb : s.device.busyLevel = false) :
    operate .runResetSequence 2 s = .next (s.afterPolls 1 c .AwaitingBusy false) := by
  rw [operate, exec_sampleBusy hs, andThen_next, pollDecision_polls_on (s := s.polled) hb hc hl, operate, exec_pollInterval rfl]
  simp [operate, State.withSeq, sleep, State.emit, State.polled, State.afterPolls, State.countAt, pollTrace, afterBusyLevels, hb, hs]

/-- `n` poll rounds that all read 0 and stay below the limit, where there is one. -/
theorem operate_pollRounds {n c : Nat} {s : State} (hs : s.seq = .run .runResetSequence 8) (hc : s.pollcnt = s.countAt c)
    (hl : ∀ limit, s.params.busyPollLimit = some limit → c + n < limit) (hb : busyLevels n s.device = List.replicate n false) :
    ∃ r b, operate .runResetSequence (2 * n) s = .next (s.afterPolls n c r b) := by
  induction n generalizing c s with
  | zero => exact ⟨s.rstate, s.busyIn, by simp [operate, State.afterPolls, pollTrace, afterBusyLevels, ← hc]⟩
  | succ n ih =>
    obtain ⟨hnow, hlater⟩ := List.cons.inj hb
    have hcount := State.countAt_countAt (s := s) (t := s.afterPolls 1 c .AwaitingBusy false) rfl rfl
    obtain ⟨r, b, hrest⟩ := ih (c := c + 1) (s := s.afterPolls 1 c .AwaitingBusy false) hs (hcount (c + 1)).symm
      (fun limit h => by have := hl limit h; omega) hlater
    refine ⟨r, b, ?_⟩
    rw [show 2 * (n + 1) = 2 + 2 * n by omega, operate_add,
      operate_pollOnce hs hc (fun limit h => by have := hl limit h; omega) hnow, andThen_next, hrest, State.afterPolls, hcount]
    simp [State.afterPolls, pollTrace, afterBusyLevels, Nat.add_assoc, Nat.add_comm 1]

/-- From acceptance through the pulses and `n` poll rounds: the operation stands at the sample of `BUSY` again. -/
theorem operate_to_poll {n : Nat} {s : State} (hs : s.seq = .idle)
    (hl : ∀ limit, s.params.busyPollLimit = some limit → n < limit ∧ s.pollcnt.isSome = true)
    (hb : busyLevels n s.device = List.replicate n false) :
    ∃ r b, operate .runResetSequence (9 + 2 * n) s = .next ((s.pulsed 8).afterPolls n 0 r b) := by
  have hzero : (s.pulsed 8).pollcnt = (s.pulsed 8).countAt 0 := by
    cases hlimit : s.params.busyPollLimit with
    | none => rw [State.countAt, show (s.pulsed 8).params.busyPollLimit = none from hlimit]
    | some limit =>
      obtain ⟨c, hc⟩ := Option.isSome_iff_exists.1 (hl limit hlimit).2
      rw [State.countAt_limit (s := s.pulsed 8) hlimit, State.pulsed_eight, hc]
      rfl
  obtain ⟨r, b, hpoll⟩ := operate_pollRounds (n := n) (c := 0) (s := s.pulsed 8) rfl hzero
    (fun limit h => by have := (hl limit h).1; omega) hb
  exact ⟨r, b, by rw [operate_add, operate_pulses le_rfl hs, andThen_next, hpoll]⟩

/-- A sample that reads 1, then the settle delay, complete the operation (R146, R149). -/
theorem operate_ready {s : State} (hs : s.seq = .run .runResetSequence 8) (hb : s.device.busyLevel = true) :
    operate .runResetSequence 2 s = .next { s with
      seq := .idle, rstate := .Ready, busyIn := true, device := s.device.afterBusy,
      trace := s.trace ++ [.sample .BUSY true, .sleep s.params.readySettle], rsp := some ⟨.OK, []⟩,
      responses := s.responses ++ [⟨.OK, []⟩] } := by
  rw [operate, exec_sampleBusy hs, andThen_next, pollDecision_ready (s := s.polled) hb, operate, exec_readySettle rfl]
  simp [operate, complete, State.respond, sleep, State.emit, State.polled, hb]

/-- Settles O35: the pulses, `n` poll rounds, and a sample that reads 1. -/
theorem resetSequenceCompletesWhenReady : Obligations.ResetSequenceCompletesWhenReady := by
  intro n s hs hbits hlimit
  obtain ⟨hbusy, hready⟩ := busyLevels_split hbits
  have hbelow : ∀ limit, s.params.busyPollLimit = some limit → n < limit ∧ s.pollcnt.isSome = true := by
    obtain ⟨hl, -⟩ | ⟨limit, c, hl, hn, hc⟩ := hlimit
    · simp [hl]
    · simp [hl, hc, hn]
  have hcount : (s.pulsed 8).countAt (0 + n) = s.params.busyPollLimit.map fun _ => n := by
    obtain ⟨hl, hc⟩ | ⟨limit, c, hl, -, -⟩ := hlimit
    · rw [State.countAt, show (s.pulsed 8).params.busyPollLimit = none from hl, State.pulsed_eight, hc, hl]
      rfl
    · rw [State.countAt_limit (s := s.pulsed 8) hl, hl, Nat.zero_add]
      rfl
  obtain ⟨r, b, hpoll⟩ := operate_to_poll hs hbelow hbusy
  rw [show 11 + 2 * n = (9 + 2 * n) + 2 by omega, operate_add, hpoll, andThen_next, operate_ready rfl hready, State.afterPolls, hcount,
    afterBusyLevels_succ_last, State.pulsed_eight]
  simp [hs]

/-- Settles O36: after any number of poll rounds the operation stands at the sample, and a sample that reads 0 leads to the poll interval. -/
theorem busyWaitIsUnbounded : Obligations.BusyWaitIsUnbounded := by
  intro n s hs hl hbits
  obtain ⟨hbusy, hlast⟩ := busyLevels_split (hbits.trans List.replicate_succ')
  obtain ⟨r, b, hpoll⟩ := operate_to_poll hs (by simp [hl]) hbusy
  have hnext := exec_sampleBusy (s := (s.pulsed 8).afterPolls n 0 r b) rfl
  rw [pollDecision_unbounded (s := ((s.pulsed 8).afterPolls n 0 r b).polled) hlast hl] at hnext
  exact ⟨_, _, hpoll, rfl, rfl, rfl, rfl, List.append_assoc _ _ _, hnext, rfl, rfl, rfl, rfl, rfl⟩

end Sys2Proof.Machine
end

section
/-! Independence: two runs of an operation from different registers and lines stay in step, because every place an operation reads it has written
before (`10_state.md` section 4). -/

namespace Sys2Proof.Machine

/-! ## What is read -/

/-- The places a register write reads. -/
def RegWrite.reads : RegWrite → List Place
  | .loadSr _ => []
  | .shiftSr => [.sr]
  | .insertSr => [.sr, .inp .SDA]
  | .rd0FromSr => [.sr]
  | .rd1FromSr => [.sr]
  | .setRState _ => []

/-- The places a line primitive reads: those of its precondition, of its operand, and the device where it samples (R53, R54). -/
def Prim.reads : Prim → List Place
  | .setdir _ => []
  | .drive .SDA (.const _) => [.dir]
  | .drive _ (.const _) => []
  | .drive _ .srMsb => [.dir, .sr]
  | .sample .SDA => [.dir, .device]
  | .sample .BUSY => [.device]
  | .delayEdge => []
  | .sleep _ => []
  | .xfer _ => []

/-- The places a response is read from (R35). -/
def responseReads (i : Instr) : List Place :=
  match i with
  | .readByte => [.rd0]
  | .readChipId => [.rd0, .rd1]
  | .writeByte _ => []
  | .sendCommand _ => []
  | .sendData _ => []
  | .runResetSequence => []

/-! ## Agreement -/

/-- Two states with the same parameters that hold the same at the places `K`. -/
structure Agree (K : List Place) (s s' : State) : Prop where
  params : s'.params = s.params
  places : ∀ q ∈ K, q.Kept s s'

theorem Place.Kept.symm {q : Place} {s t : State} (h : q.Kept s t) : q.Kept t s := by
  cases q with
  | inp l => cases l <;> exact ⟨h.1.symm, h.2.symm⟩
  | _ => exact Eq.symm h

theorem Place.Kept.pair {q : Place} {s s' t t' : State} (h : q.Kept s s') (ht : q.Kept s t) (ht' : q.Kept s' t') : q.Kept t t' :=
  (ht.symm.trans h).trans ht'

theorem Agree.mono {K K' : List Place} {s s' : State} (h : Agree K s s') (hK : K' ⊆ K) : Agree K' s s' :=
  ⟨h.params, fun q hq => h.places q (hK hq)⟩

/-- What changes the same places of two states, and those alike, leaves them in agreement there too. -/
theorem Agree.step {K touched : List Place} {s s' t t' : State} (h : Agree K s s') (hp : t.params = s.params) (hp' : t'.params = s'.params)
    (hkept : ∀ q, q ∉ touched → q.Kept s t) (hkept' : ∀ q, q ∉ touched → q.Kept s' t') (hsame : ∀ q ∈ touched, q.Kept t t') :
    Agree (touched ++ K) t t' := by
  refine ⟨hp'.trans (h.params.trans hp.symm), fun q hq => ?_⟩
  by_cases ht : q ∈ touched
  · exact hsame q ht
  · have hK : q ∈ K := (List.mem_append.1 hq).resolve_left ht
    exact (h.places q hK).pair (hkept q ht) (hkept' q ht)

theorem RegWrite.apply_agree {K : List Place} {w : RegWrite} {s s' : State} (h : Agree K s s') (hr : w.reads ⊆ K) :
    Agree (w.place :: K) (w.apply s) (w.apply s') := by
  refine h.step (touched := [w.place]) (w.apply_frame s).params (w.apply_frame s').params (fun q hq => apply_kept (by simpa using hq) s)
    (fun q hq => apply_kept (by simpa using hq) s') fun q hq => ?_
  obtain rfl : q = w.place := by simpa using hq
  cases w with
  | loadSr v => rfl
  | shiftSr => exact congrArg shiftLeftOne (h.places .sr (hr (.head _)))
  | insertSr =>
    have hsr : s'.sr = s.sr := h.places .sr (hr (.head _))
    have hin := (h.places (.inp .SDA) (hr (.tail _ (.head _)))).1
    show insertLow s'.sr s'.sdaIn = insertLow s.sr s.sdaIn
    rw [hsr, hin]
  | rd0FromSr => exact h.places .sr (hr (.head _))
  | rd1FromSr => exact h.places .sr (hr (.head _))
  | setRState r => rfl

/-- Register writes read only known places, each write making its own place known. -/
def WritesKnown : List Place → List RegWrite → Prop
  | _, [] => True
  | K, w :: ws => w.reads ⊆ K ∧ WritesKnown (w.place :: K) ws

theorem applyWrites_agree {K : List Place} {ws : List RegWrite} {s s' : State} (h : Agree K s s') (hr : WritesKnown K ws) :
    Agree (ws.map RegWrite.place ++ K) (applyWrites ws s) (applyWrites ws s') := by
  induction ws generalizing K s s' with
  | nil => exact h
  | cons w ws ih =>
    obtain ⟨hw, hws⟩ := hr
    refine (ih (RegWrite.apply_agree h hw) hws).mono fun q hq => ?_
    simp only [List.map_cons, List.mem_append, List.mem_cons] at hq ⊢
    tauto

/-- A primitive that reads known places answers alike in both states, with the same event. -/
theorem runPrim_agree {K : List Place} {p : Prim} {s s' t : State} (h : Agree K s s') (hr : p.reads ⊆ K) (hp : runPrim p s = .next t) :
    ∃ t' e, runPrim p s' = .next t' ∧ Agree (p.places ++ K) t t' ∧ t.trace = s.trace ++ [e] ∧ t'.trace = s'.trace ++ [e] := by
  suffices ∃ t' e, runPrim p s' = .next t' ∧ (∀ q ∈ p.places, q.Kept t t') ∧ t.trace = s.trace ++ [e] ∧ t'.trace = s'.trace ++ [e] by
    obtain ⟨t', e, hp', hsame, htrace⟩ := this
    exact ⟨t', e, hp', h.step (runPrim_frame hp).params (runPrim_frame hp').params (fun q hq => runPrim_kept hq hp)
      (fun q hq => runPrim_kept hq hp') hsame, htrace⟩
  cases p with
  | setdir d =>
    obtain rfl : setdir d s = t := Host.Outcome.next.inj hp
    exact ⟨_, _, rfl, fun q hq => by obtain rfl : q = .dir := List.mem_singleton.1 hq; rfl, rfl, rfl⟩
  | drive l b =>
    obtain ⟨hmay, rfl⟩ := drive_next.1 hp
    have hmay' : mayDrive l s' = true := by
      by_cases hl : l = .SDA
      · subst hl
        have hdir : s'.sdaDir = s.sdaDir := h.places .dir (hr (by cases b <;> exact .head _))
        exact (mayDrive_sda s').2 (hdir.trans ((mayDrive_sda s).1 hmay))
      · exact mayDrive_control hl s'
    have hvalue : b.value s' = b.value s := by
      cases b with
      | const b => rfl
      | srMsb => exact congrArg topBit (h.places .sr (hr (by cases l <;> exact .tail _ (.head _))))
    refine ⟨_, .drive l (b.value s), drive_next.2 ⟨hmay', rfl⟩, fun q hq => ?_, by simp, by simp [hvalue]⟩
    obtain rfl : q = .out l := List.mem_singleton.1 hq
    show State.out l _ = State.out l _
    rw [State.out_emit, State.out_emit, State.out_setOut_same, State.out_setOut_same, hvalue]
  | sample l =>
    obtain ⟨hmay, rfl⟩ := sample_next.1 hp
    have hdevice : s'.device = s.device := h.places .device (hr (by cases l <;> simp [Prim.reads]))
    cases l with
    | SDA =>
      have hdir : s'.sdaDir = s.sdaDir := h.places .dir (hr (.head _))
      refine ⟨_, _, sample_next.2 ⟨(maySample_sda s').2 (hdir.trans ((maySample_sda s).1 hmay)), rfl⟩, fun q hq => ?_, rfl, ?_⟩
      · simp only [Prim.places, List.mem_cons, List.not_mem_nil, or_false] at hq
        obtain rfl | rfl := hq <;> simp [Place.Kept, sampled, hdevice]
      · simp [sampled, hdevice]
    | BUSY =>
      refine ⟨_, _, sample_next.2 ⟨rfl, rfl⟩, fun q hq => ?_, rfl, ?_⟩
      · simp only [Prim.places, List.mem_cons, List.not_mem_nil, or_false] at hq
        obtain rfl | rfl := hq <;> simp [Place.Kept, sampled, hdevice]
      · simp [sampled, hdevice]
  | delayEdge =>
    obtain rfl : delayEdge s = t := Host.Outcome.next.inj hp
    exact ⟨_, _, rfl, nofun, rfl, rfl⟩
  | sleep n =>
    obtain rfl : sleep n s = t := Host.Outcome.next.inj hp
    exact ⟨_, _, rfl, nofun, rfl, rfl⟩
  | xfer tx =>
    obtain rfl : xfer tx s = t := Host.Outcome.next.inj hp
    exact ⟨_, _, rfl, nofun, rfl, rfl⟩

/-- A micro-operation reads only known places. -/
def OpKnown (K : List Place) (m : MicroOp) : Prop :=
  WritesKnown K m.before ∧ m.prim.reads ⊆ m.before.map RegWrite.place ++ K ∧
    WritesKnown (m.prim.places ++ (m.before.map RegWrite.place ++ K)) m.after

/-- A micro-operation that reads known places performs alike in both states, and what it writes is known then. -/
theorem perform_agree {K : List Place} {m : MicroOp} {s s' t : State} (h : Agree K s s') (hr : OpKnown K m) (hp : m.perform s = .next t) :
    ∃ t' e, m.perform s' = .next t' ∧ Agree (m.places ++ K) t t' ∧ t.trace = s.trace ++ [e] ∧ t'.trace = s'.trace ++ [e] := by
  obtain ⟨hbefore, hprim, hafter⟩ := hr
  obtain ⟨u, hu, rfl⟩ := perform_next hp
  obtain ⟨u', e, hu', hagree, htrace, htrace'⟩ := runPrim_agree (applyWrites_agree h hbefore) hprim hu
  refine ⟨applyWrites m.after u', e, by rw [MicroOp.perform, hu']; rfl, (applyWrites_agree hagree hafter).mono fun q hq => ?_, ?_, ?_⟩
  · simp only [MicroOp.places, List.mem_append] at hq ⊢
    tauto
  · rw [(applyWrites_frame m.after u).trace, htrace, (applyWrites_frame m.before s).trace]
  · rw [(applyWrites_frame m.after u').trace, htrace', (applyWrites_frame m.before s').trace]

/-! ## What is known at each place of a micro-program -/

/-- Every micro-operation of a stretch reads only places known before or written in the stretch before it. -/
def ProgramKnown (K : List Place) (ms : List MicroOp) : Prop :=
  ∀ k m, ms[k]? = some m → OpKnown ((ms.take k).flatMap MicroOp.places ++ K) m

theorem append_known_mono {K K' : List Place} (hK : K ⊆ K') (qs : List Place) : qs ++ K ⊆ qs ++ K' :=
  List.append_subset.2 ⟨List.subset_append_left _ _, List.subset_append_of_subset_right _ hK⟩

theorem WritesKnown.mono {K K' : List Place} {ws : List RegWrite} (h : WritesKnown K ws) (hK : K ⊆ K') : WritesKnown K' ws := by
  induction ws generalizing K K' with
  | nil => trivial
  | cons w ws ih => exact ⟨List.Subset.trans h.1 hK, ih h.2 (List.cons_subset_cons _ hK)⟩

theorem OpKnown.mono {K K' : List Place} {m : MicroOp} (h : OpKnown K m) (hK : K ⊆ K') : OpKnown K' m := by
  obtain ⟨hbefore, hprim, hafter⟩ := h
  have hK' := append_known_mono hK (m.before.map RegWrite.place)
  exact ⟨hbefore.mono hK, List.Subset.trans hprim hK', hafter.mono (append_known_mono hK' _)⟩

theorem ProgramKnown.mono {K K' : List Place} {ms : List MicroOp} (h : ProgramKnown K ms) (hK : K ⊆ K') : ProgramKnown K' ms :=
  fun k m hm => (h k m hm).mono (append_known_mono hK _)

theorem programKnown_nil (K : List Place) : ProgramKnown K [] := fun k m hm => by simp at hm

theorem ProgramKnown.cons {K : List Place} {m : MicroOp} {ms : List MicroOp} (hm : OpKnown K m) (hms : ProgramKnown (m.places ++ K) ms) :
    ProgramKnown K (m :: ms) := by
  intro k m' hm'
  cases k with
  | zero =>
    obtain rfl : m = m' := Option.some.inj hm'
    exact hm
  | succ k =>
    refine (hms k m' hm').mono fun q hq => ?_
    simp only [List.take_succ_cons, List.flatMap_cons, List.mem_append] at hq ⊢
    tauto

/-- Stretches that each read only known places, one after the other. -/
theorem ProgramKnown.append {K : List Place} {ms ms' : List MicroOp} (h : ProgramKnown K ms) (h' : ProgramKnown K ms') :
    ProgramKnown K (ms ++ ms') := by
  induction ms generalizing K with
  | nil => exact h'
  | cons m ms ih =>
    refine .cons (h 0 m rfl) (ih (fun k m' hm' => (h (k + 1) m' hm').mono fun q hq => ?_) (h'.mono (List.subset_append_right _ _)))
    simp only [List.take_succ_cons, List.flatMap_cons, List.mem_append] at hq ⊢
    tauto

theorem programKnown_slots {K : List Place} {slot : List MicroOp} (h : ProgramKnown K slot) (n : Nat) : ProgramKnown K (slots n slot) := by
  induction n with
  | zero => exact programKnown_nil K
  | succ n ih => exact h.append ih

/-- A drive of a control line to a fixed level reads nothing. -/
theorem opKnown_drive {l : OutLine} (hl : l ≠ .SDA) (b : Level) (K : List Place) : OpKnown K (plain (.drive l (.const b))) := by
  cases l with
  | SDA => exact absurd rfl hl
  | _ => exact ⟨trivial, nofun, trivial⟩

theorem opKnown_delayEdge (K : List Place) : OpKnown K (plain .delayEdge) := ⟨trivial, nofun, trivial⟩

theorem writeSlot_known : ProgramKnown [.sr, .dir, .device] writeSlot := by
  refine .cons (opKnown_drive (by decide) _ _) (.cons ?_ (.cons (opKnown_delayEdge _) (.cons (opKnown_drive (by decide) _ _)
    (.cons ?_ (programKnown_nil _)))))
  · exact ⟨trivial, by simp [plain, Prim.reads], trivial⟩
  · exact ⟨trivial, nofun, by simp [WritesKnown, RegWrite.reads]⟩

theorem readSlot_known : ProgramKnown [.sr, .dir, .device] readSlot := by
  refine .cons (opKnown_drive (by decide) _ _) (.cons (opKnown_delayEdge _) (.cons (opKnown_drive (by decide) _ _)
    (.cons ?_ (.cons (opKnown_delayEdge _) (programKnown_nil _)))))
  exact ⟨by simp [WritesKnown, RegWrite.reads], by simp [Prim.reads], by simp [WritesKnown, RegWrite.reads, RegWrite.place, Prim.places]⟩

/-- A Byte Frame loads `SR` and sets `DIR` first, which is all that its slots read of the SPE (R101, R105). -/
theorem frame_known {v : Byte} {d : Dir} {slot : List MicroOp} {last : MicroOp} (hslot : ProgramKnown [.sr, .dir, .device] slot)
    (hlast : OpKnown [.sr, .dir, .device] last) (n : Nat) :
    ProgramKnown [.device] (⟨[.loadSr v], .setdir d, []⟩ :: (slots n slot ++ [last])) :=
  .cons ⟨⟨nofun, trivial⟩, nofun, trivial⟩ ((programKnown_slots hslot n).append (.cons hlast (programKnown_nil _)))

theorem writeByteProgram_known (variant : Variant) (v : Byte) : ProgramKnown [.device] (writeByteProgram variant v) := by
  cases variant with
  | SW => exact frame_known writeSlot_known (opKnown_drive (by decide) _ _) _
  | HW => exact .cons ⟨trivial, nofun, trivial⟩ (programKnown_nil _)

theorem readFrame_known (variant : Variant) {w : RegWrite} (hw : w.reads ⊆ [.sr]) : ProgramKnown [.device] (readFrame variant w) := by
  cases variant with
  | SW =>
    have hlast : OpKnown [.sr, .dir, .device] ⟨[], .drive .SCK (.const false), [w]⟩ :=
      ⟨trivial, nofun, List.Subset.trans hw (by simp [Prim.places]), trivial⟩
    exact frame_known readSlot_known hlast _
  | HW => exact programKnown_nil _

theorem oneByteTransaction_known (variant : Variant) (mode : Level) (v : Byte) : ProgramKnown [.device] (oneByteTransaction variant mode v) := by
  have hwrite : ProgramKnown [.out .DC, .out .CSN, .device] (writeByteProgram variant v) := (writeByteProgram_known variant v).mono (by simp)
  exact .cons (opKnown_drive (by decide) _ _) (.cons (opKnown_drive (by decide) _ _)
    (hwrite.append (.cons (opKnown_drive (by decide) _ _) (programKnown_nil _))))

theorem readChipIdProgram_known (variant : Variant) (opcode : Byte) : ProgramKnown [.device] (readChipIdProgram variant opcode) := by
  have hwrite : ProgramKnown [.out .DC, .out .CSN, .device] (writeByteProgram .SW opcode) := (writeByteProgram_known .SW opcode).mono (by simp)
  have hread {w : RegWrite} (hw : w.reads ⊆ [.sr]) : ProgramKnown [.out .DC, .out .DC, .out .CSN, .device] (readFrame .SW w) :=
    (readFrame_known .SW hw).mono (by simp)
  have hend : ProgramKnown [.out .DC, .out .DC, .out .CSN, .device] [plain (.drive .CSN (.const true))] :=
    .cons (opKnown_drive (by decide) _ _) (programKnown_nil _)
  cases variant with
  | SW =>
    exact .cons (opKnown_drive (by decide) _ _) (.cons (opKnown_drive (by decide) _ _) (hwrite.append
      (.cons (opKnown_drive (by decide) _ _) ((hread (List.Subset.refl _)).append ((hread (List.Subset.refl _)).append hend)))))
  | HW => exact programKnown_nil _

/-- Every linear operation reads only the device and what it has written before. -/
theorem linear_known (p : Params) {i : Instr} (hi : i ≠ .runResetSequence) : ProgramKnown [.device] (microProgram p i) := by
  cases i with
  | writeByte v => exact writeByteProgram_known _ v
  | readByte => exact readFrame_known _ (List.Subset.refl _)
  | sendCommand c => exact oneByteTransaction_known _ _ c
  | sendData v => exact oneByteTransaction_known _ _ v
  | readChipId => exact readChipIdProgram_known _ _
  | runResetSequence => exact absurd rfl hi

theorem opKnown_enterReset (r : RState) (b : Level) (K : List Place) : OpKnown K (enterReset r b) :=
  ⟨⟨nofun, trivial⟩, nofun, trivial⟩

theorem opKnown_sleep (n : Nat) (K : List Place) : OpKnown K (plain (.sleep n)) := ⟨trivial, nofun, trivial⟩

theorem opKnown_sampleBusy : OpKnown [.device] ⟨[.setRState .AwaitingBusy], .sample .BUSY, []⟩ :=
  ⟨⟨nofun, trivial⟩, by simp [Prim.reads], trivial⟩

/-- A Reset Cycle reads the device only, at any place. -/
theorem resetProgram_known (p : Params) : ∀ m ∈ resetProgram p, OpKnown [.device] m := by
  simp [resetProgram, opKnown_enterReset, opKnown_sleep, opKnown_sampleBusy]

/-- The last micro-operation of a read frame writes its result. -/
theorem result_written (w : RegWrite) : w.place ∈ (readFrame .SW w).flatMap MicroOp.places :=
  List.mem_flatMap.2 ⟨⟨[], .drive .SCK (.const false), [w]⟩, by simp [readFrame], by simp [MicroOp.places]⟩

/-- What an operation reads for its response it writes on the way, where it has a micro-program. -/
theorem responseReads_written {p : Params} {i : Instr} (hne : microProgram p i ≠ []) :
    ∀ q ∈ responseReads i, q ∈ (microProgram p i).flatMap MicroOp.places := by
  have h0 := result_written .rd0FromSr
  have h1 := result_written .rd1FromSr
  simp only [RegWrite.place] at h0 h1
  cases hv : p.variant with
  | SW =>
    cases i with
    | readByte => simpa [responseReads, microProgram, readByteProgram, hv] using h0
    | readChipId =>
      simp only [responseReads, microProgram, readChipIdProgram, hv, List.forall_mem_cons, List.flatMap_cons, List.flatMap_append,
        List.mem_append]
      tauto
    | _ => exact nofun
  | HW =>
    cases i with
    | readByte => exact absurd (by simp [microProgram, readByteProgram, readFrame, hv]) hne
    | readChipId => exact absurd (by simp [microProgram, readChipIdProgram, hv]) hne
    | _ => exact nofun

/-! ## Two runs side by side -/

/-- The places known when micro-operation `k` of an operation is the next. -/
def knownAt (p : Params) (i : Instr) (k : Nat) : List Place :=
  if i = .runResetSequence then [.device] else ((microProgram p i).take k).flatMap MicroOp.places ++ [.device]

theorem knownAt_linear {i : Instr} (hi : i ≠ .runResetSequence) (p : Params) (k : Nat) :
    knownAt p i k = ((microProgram p i).take k).flatMap MicroOp.places ++ [.device] := if_neg hi

theorem knownAt_known {p : Params} {i : Instr} {k : Nat} {m : MicroOp} (hm : (microProgram p i)[k]? = some m) : OpKnown (knownAt p i k) m := by
  by_cases hi : i = .runResetSequence
  · subst hi
    exact resetProgram_known p m (List.mem_of_getElem? hm)
  · rw [knownAt_linear hi]
    exact linear_known p hi k m hm

/-- After a micro-operation of a linear operation its places are known. -/
theorem knownAt_succ {p : Params} {i : Instr} (hi : i ≠ .runResetSequence) {k : Nat} {m : MicroOp} (hm : (microProgram p i)[k]? = some m) :
    knownAt p i (k + 1) ⊆ m.places ++ knownAt p i k := by
  obtain ⟨hk, rfl⟩ := List.getElem?_eq_some_iff.1 hm
  rw [knownAt_linear hi, knownAt_linear hi, List.take_succ_eq_append_getElem hk]
  intro q hq
  simp only [List.flatMap_append, List.flatMap_cons, List.flatMap_nil, List.mem_append, List.append_nil] at hq ⊢
  tauto

/-- Two states in step: the same parameters, device and sequencer, agreement on what the running operation knows, and the same count of polls in a
Reset Cycle. `POLLCNT` exists in both exactly when a limit is configured (R32). -/
structure InStep (s s' : State) : Prop where
  params : s'.params = s.params
  device : s'.device = s.device
  seq : s'.seq = s.seq
  exists_left : s.pollcnt.isSome = s.params.busyPollLimit.isSome
  exists_right : s'.pollcnt.isSome = s'.params.busyPollLimit.isSome
  running : ∀ i k, s.seq = .run i k → Agree (knownAt s.params i k) s s' ∧ (i = .runResetSequence → s'.pollcnt = s.pollcnt)

/-- From one step to the next, two states gain the same events and the same responses. -/
def GainAlike (s t s' t' : State) : Prop :=
  ∃ (tr : List Event) (rs : List Response), t.trace = s.trace ++ tr ∧ t'.trace = s'.trace ++ tr ∧
    t.responses = s.responses ++ rs ∧ t'.responses = s'.responses ++ rs

theorem GainAlike.refl (s s' : State) : GainAlike s s s' s' := ⟨[], [], by simp⟩

theorem GainAlike.trans {s t u s' t' u' : State} (h : GainAlike s t s' t') (h' : GainAlike t u t' u') : GainAlike s u s' u' := by
  obtain ⟨tr, rs, h1, h2, h3, h4⟩ := h
  obtain ⟨tr', rs', h1', h2', h3', h4'⟩ := h'
  exact ⟨tr ++ tr', rs ++ rs', by simp [*], by simp [*], by simp [*], by simp [*]⟩

/-! ### The sequencer -/

theorem advance_kept (q : Place) (i : Instr) (len k : Nat) (s : State) : q.Kept s (advance i len k s) := by
  by_cases hq : q = .rstate
  · subst hq
    exact advance_rstate i len k s
  · exact (advance_control i len k s).kept hq

theorem advance_alike {i : Instr} {len k : Nat} {u u' : State} (hdata : k + 1 = len → responseData i u' = responseData i u) :
    (advance i len k u').seq = (advance i len k u).seq ∧
      ∃ rs, (advance i len k u).responses = u.responses ++ rs ∧ (advance i len k u').responses = u'.responses ++ rs := by
  unfold advance
  split
  · next hk => exact ⟨rfl, [⟨.OK, responseData i u⟩], rfl, by rw [complete_responses, hdata hk]⟩
  · exact ⟨rfl, [], (List.append_nil _).symm, (List.append_nil _).symm⟩

theorem pollDecision_alike {u u' : State} (hp : u'.params = u.params) (hb : u'.busyIn = u.busyIn) (hc : u'.pollcnt = u.pollcnt) :
    (pollDecision u').seq = (pollDecision u).seq ∧ (pollDecision u').pollcnt = (pollDecision u).pollcnt ∧
      ∃ rs, (pollDecision u).responses = u.responses ++ rs ∧ (pollDecision u').responses = u'.responses ++ rs := by
  have hnone : u.responses = u.responses ++ [] ∧ u'.responses = u'.responses ++ [] := by simp
  simp only [pollDecision, notReady, hp, hb, hc]
  split
  · exact ⟨rfl, rfl, [], hnone⟩
  · split
    · exact ⟨rfl, rfl, [], hnone⟩
    · split
      · exact ⟨rfl, rfl, [⟨.Timeout, []⟩], rfl, rfl⟩
      · exact ⟨rfl, rfl, [], hnone⟩

theorem resetFollow_alike {len k : Nat} {u u' : State} (hp : u'.params = u.params) (hb : k = 8 → u'.busyIn = u.busyIn)
    (hc : u'.pollcnt = u.pollcnt) :
    (resetFollow len k u').seq = (resetFollow len k u).seq ∧ (resetFollow len k u').pollcnt = (resetFollow len k u).pollcnt ∧
      ∃ rs, (resetFollow len k u).responses = u.responses ++ rs ∧ (resetFollow len k u').responses = u'.responses ++ rs := by
  unfold resetFollow
  split
  · next hk => exact pollDecision_alike hp (hb hk) hc
  · split
    · exact ⟨rfl, hc, [], by simp⟩
    · obtain ⟨hseq, hresponses⟩ := advance_alike (i := .runResetSequence) (len := len) (k := k) (u := u) (u' := u') fun _ => rfl
      exact ⟨hseq, by rw [advance_pollcnt, advance_pollcnt, hc], hresponses⟩

theorem advance_seq {i j : Instr} {len k k' : Nat} {u : State} (h : (advance i len k u).seq = .run j k') : j = i ∧ k' = k + 1 := by
  unfold advance at h
  split at h
  · cases h
  · simp_all

theorem pollDecision_seq {u : State} {j : Instr} {k : Nat} (h : (pollDecision u).seq = .run j k) : j = .runResetSequence := by
  unfold pollDecision notReady at h
  split at h
  · exact (Seq.run.inj h).1.symm
  · split at h
    · exact (Seq.run.inj h).1.symm
    · split at h
      · cases h
      · exact (Seq.run.inj h).1.symm

theorem resetFollow_seq {len k : Nat} {u : State} {j : Instr} {k' : Nat} (h : (resetFollow len k u).seq = .run j k') :
    j = .runResetSequence := by
  unfold resetFollow at h
  split at h
  · exact pollDecision_seq h
  · split at h
    · exact (Seq.run.inj h).1.symm
    · exact (advance_seq h).1

theorem notReady_exists {u : State} (h : u.pollcnt.isSome = u.params.busyPollLimit.isSome) :
    (notReady u).pollcnt.isSome = u.params.busyPollLimit.isSome := by
  unfold notReady
  split
  · exact h
  · next hl => split <;> simp [timeout, complete, State.respond, hl]

theorem follow_exists {p : Params} {i : Instr} {k : Nat} {u : State} (h : u.pollcnt.isSome = u.params.busyPollLimit.isSome) :
    (follow p i k u).pollcnt.isSome = (follow p i k u).params.busyPollLimit.isSome := by
  rw [(follow_control p i k u).params]
  by_cases hi : i = .runResetSequence
  · subst hi
    show (resetFollow _ k u).pollcnt.isSome = _
    unfold resetFollow
    split
    · unfold pollDecision
      split
      · exact h
      · exact notReady_exists h
    · split
      · exact h
      · rw [advance_pollcnt, h]
  · rw [follow_linear hi, advance_pollcnt, h]

/-! ### A step -/

theorem agree_device {s s' : State} (hp : s'.params = s.params) (hd : s'.device = s.device) : Agree [.device] s s' :=
  ⟨hp, fun q hq => by obtain rfl := List.mem_singleton.1 hq; exact hd⟩

theorem accept_inStep {i : Instr} {s s' : State} (h : InStep s s') (hi : i ≠ .runResetSequence) : InStep (accept i s) (accept i s') := by
  refine ⟨h.params, h.device, rfl, h.exists_left, h.exists_right, fun j k hk => ?_⟩
  obtain ⟨rfl, rfl⟩ := Seq.run.inj hk
  refine ⟨?_, fun hreset => absurd hreset hi⟩
  rw [knownAt_linear hi]
  exact agree_device h.params h.device

theorem acceptReset_inStep {s s' : State} (h : InStep s s') : InStep (acceptReset s) (acceptReset s') := by
  have hcount : s'.pollcnt.map (fun _ => 0) = s.pollcnt.map fun _ => 0 := by
    have hl := h.exists_left
    have hr := h.exists_right
    rw [h.params, ← hl] at hr
    cases hc : s.pollcnt <;> cases hc' : s'.pollcnt <;> simp_all
  refine ⟨h.params, h.device, rfl, ?_, ?_, fun j k hk => ?_⟩
  · rw [acceptReset_pollcnt, Option.isSome_map, h.exists_left, acceptReset_params]
  · rw [acceptReset_pollcnt, Option.isSome_map, h.exists_right, acceptReset_params]
  · obtain ⟨rfl, rfl⟩ := Seq.run.inj hk
    exact ⟨agree_device h.params h.device, fun _ => hcount⟩

theorem acceptRead_inStep {i : Instr} {s s' : State} (h : InStep s s') (hs : s.seq = .idle) (hi : i ≠ .runResetSequence) :
    InStep (acceptRead i s) (acceptRead i s') ∧ GainAlike s (acceptRead i s) s' (acceptRead i s') := by
  unfold acceptRead
  rw [h.params]
  cases s.params.variant with
  | SW => exact ⟨accept_inStep h hi, .refl s s'⟩
  | HW =>
    refine ⟨⟨h.params, h.device, h.seq, h.exists_left, h.exists_right, fun j k hk => ?_⟩, [], [⟨.UnsupportedOperation, []⟩], by simp⟩
    rw [refuse_seq, hs] at hk
    cases hk

theorem onAccept_inStep (i : Instr) {s s' : State} (h : InStep s s') (hs : s.seq = .idle) :
    InStep (onAccept i s) (onAccept i s') ∧ GainAlike s (onAccept i s) s' (onAccept i s') := by
  cases i with
  | writeByte v => exact ⟨accept_inStep (i := .writeByte v) h nofun, .refl s s'⟩
  | sendCommand c => exact ⟨accept_inStep (i := .sendCommand c) h nofun, .refl s s'⟩
  | sendData v => exact ⟨accept_inStep (i := .sendData v) h nofun, .refl s s'⟩
  | readByte => exact acceptRead_inStep (i := .readByte) h hs nofun
  | readChipId => exact acceptRead_inStep (i := .readChipId) h hs nofun
  | runResetSequence => exact ⟨acceptReset_inStep h, .refl s s'⟩

/-- Agreement at the places a response is read from gives the same response. -/
theorem responseData_agree {i : Instr} {u u' : State} (h : ∀ q ∈ responseReads i, q.Kept u u') : responseData i u' = responseData i u := by
  cases i with
  | readByte => exact congrArg (fun b => [b]) (h .rd0 (.head _))
  | readChipId =>
    have h0 : u'.rd0 = u.rd0 := h .rd0 (.head _)
    have h1 : u'.rd1 = u.rd1 := h .rd1 (.tail _ (.head _))
    simp [responseData, h0, h1]
  | _ => rfl

/-- What follows a micro-operation keeps two states in step, given their agreement after it. -/
theorem follow_inStep {i : Instr} {k : Nat} {m : MicroOp} {u u' : State} (hm : (microProgram u.params i)[k]? = some m)
    (h : Agree (m.places ++ knownAt u.params i k) u u') (hcount : i = .runResetSequence → u'.pollcnt = u.pollcnt)
    (hl : u.pollcnt.isSome = u.params.busyPollLimit.isSome) (hr : u'.pollcnt.isSome = u'.params.busyPollLimit.isSome) :
    InStep (follow u.params i k u) (follow u'.params i k u') ∧ GainAlike u (follow u.params i k u) u' (follow u'.params i k u') := by
  have f := follow_control u.params i k u
  have f' := follow_control u'.params i k u'
  have hdevice : u'.device = u.device := h.places .device (by unfold knownAt; split <;> simp)
  have hparams : (follow u'.params i k u').params = (follow u.params i k u).params := by rw [f.params, f'.params, h.params]
  have hdevices : (follow u'.params i k u').device = (follow u.params i k u).device := by rw [f.device, f'.device, hdevice]
  suffices ((follow u'.params i k u').seq = (follow u.params i k u).seq ∧
      ∃ rs, (follow u.params i k u).responses = u.responses ++ rs ∧ (follow u'.params i k u').responses = u'.responses ++ rs) ∧
      ∀ j k', (follow u.params i k u).seq = .run j k' → Agree (knownAt u.params j k') (follow u.params i k u) (follow u'.params i k u') ∧
        (j = .runResetSequence → (follow u'.params i k u').pollcnt = (follow u.params i k u).pollcnt) by
    obtain ⟨⟨hseq, rs, hresponses⟩, hrunning⟩ := this
    exact ⟨⟨hparams, hdevices, hseq, follow_exists hl, follow_exists hr, f.params.symm ▸ hrunning⟩, [], rs, by simp [f.trace], by simp [f'.trace],
      hresponses⟩
  by_cases hi : i = .runResetSequence
  · subst hi
    have hbusy : k = 8 → u'.busyIn = u.busyIn := by
      rintro rfl
      obtain rfl : _ = m := Option.some.inj hm
      exact (h.places (.inp .BUSY) (by simp [MicroOp.places, Prim.places])).1
    obtain ⟨hseq, hpollcnt, hresponses⟩ := resetFollow_alike (len := 11) h.params hbusy (hcount rfl)
    refine ⟨⟨hseq, hresponses⟩, fun j k' hk => ?_⟩
    obtain rfl := resetFollow_seq hk
    exact ⟨agree_device hparams hdevices, fun _ => hpollcnt⟩
  · rw [follow_linear hi, follow_linear hi, h.params]
    have hdata : k + 1 = (microProgram u.params i).length → responseData i u' = responseData i u := fun hk =>
      responseData_agree fun q hq => h.places q (knownAt_succ hi hm (by
        rw [knownAt_linear hi, hk, List.take_length]
        exact List.mem_append_left _ (responseReads_written (by rintro hnil; simp [hnil] at hm) q hq)))
    refine ⟨advance_alike hdata, fun j k' hk => ?_⟩
    obtain ⟨rfl, rfl⟩ := advance_seq hk
    refine ⟨⟨?_, fun q hq => ?_⟩, fun hj => absurd hj hi⟩
    · rw [advance_params, advance_params, h.params]
    · exact (h.places q (knownAt_succ hi hm hq)).pair (advance_kept q _ _ _ u) (advance_kept q _ _ _ u')

/-- A step of any operation keeps two states in step, with the same events and responses. -/
theorem exec_inStep {i : Instr} {s s' t : State} (h : InStep s s') (hx : exec i s = .next t) :
    ∃ t', exec i s' = .next t' ∧ InStep t t' ∧ GainAlike s t s' t' := by
  obtain ⟨hs, rfl⟩ | ⟨k, m, u, hs, hm, hu, rfl⟩ | ⟨j, k, hs, hj, rfl⟩ := exec_next hx
  · exact ⟨_, exec_idle (h.seq.trans hs), onAccept_inStep i h hs⟩
  · obtain ⟨hagree, hcount⟩ := h.running i k hs
    obtain ⟨u', e, hu', hagree', htrace, htrace'⟩ := perform_agree hagree (knownAt_known hm) hu
    have f := perform_frame hu
    have f' := perform_frame hu'
    have hexec := exec_running (h.seq.trans hs) (h.params.symm ▸ hm)
    rw [hu', andThen_next, ← f'.params] at hexec
    rw [← f.params] at hm hagree' ⊢
    obtain ⟨hstep, hgain⟩ := follow_inStep hm hagree' (fun hi => by rw [f'.pollcnt, f.pollcnt, hcount hi])
      (by rw [f.pollcnt, f.params, h.exists_left]) (by rw [f'.pollcnt, f'.params, h.exists_right])
    exact ⟨_, hexec, hstep, .trans ⟨[e], [], htrace, htrace', by simp [f.responses], by simp [f'.responses]⟩ hgain⟩
  · exact ⟨s', exec_other (h.seq.trans hs) hj, h, .refl t s'⟩

theorem operate_inStep {i : Instr} {n : Nat} {s s' t : State} (h : InStep s s') (hx : operate i n s = .next t) :
    ∃ t', operate i n s' = .next t' ∧ InStep t t' ∧ GainAlike s t s' t' := by
  induction n generalizing s s' with
  | zero =>
    obtain rfl : s = t := Host.Outcome.next.inj hx
    exact ⟨s', rfl, h, .refl s s'⟩
  | succ n ih =>
    obtain ⟨u, hu, hrest⟩ := andThen_eq_next.1 hx
    obtain ⟨u', hu', hstep, hgain⟩ := exec_inStep h hu
    obtain ⟨t', ht', hstep', hgain'⟩ := ih hstep hrest
    exact ⟨t', by rw [operate, hu', andThen_next, ht'], hstep', hgain.trans hgain'⟩

/-- Settles O51: two idle states with the same parameters and device are in step, and `operate` keeps them so. -/
theorem operationsAreIndependent : Obligations.OperationsAreIndependent := by
  intro i s s' hs hs' hparams hdevice hl hr n t hx
  have hstep : InStep s s' :=
    ⟨hparams.symm, hdevice.symm, hs'.trans hs.symm, hl, hparams ▸ hr, fun j k hk => by simp [hs] at hk⟩
  obtain ⟨t', ht', hstep', hgain⟩ := operate_inStep hstep hx
  exact ⟨t', ht', hstep'.seq, hgain⟩

end Sys2Proof.Machine
end

section
/-! The minimum durations of the operations, and the response port (R90, R91, R193, R221). -/

namespace Sys2Proof.Machine

/-! ## Durations -/

theorem minDuration_transactionTrace (p : Params) (variant : Variant) (mode : Level) (v : Byte) :
    minDuration p (transactionTrace variant mode v) = minDuration p (frameTrace variant v) := by
  simp [transactionTrace, eventDuration]

theorem minDuration_chipIdTrace (p : Params) (opcode : Byte) (bits0 bits1 : List Level) :
    minDuration p (chipIdTrace opcode bits0 bits1) = (16 + 2 * bits0.length + 2 * bits1.length) * p.tEdge := by
  simp only [chipIdTrace, minDuration_append, minDuration_cons, minDuration_nil, minDuration_writeByteTrace, minDuration_readByteTrace,
    eventDuration]
  ring

/-- The mode of a one-byte transaction. -/
theorem exists_mode {i : Instr} {v : Byte} (h : i = .sendCommand v ∨ i = .sendData v) :
    ∃ mode, (i = .sendCommand v ∧ mode = false) ∨ (i = .sendData v ∧ mode = true) := by
  obtain h | h := h
  · exact ⟨false, .inl ⟨h, rfl⟩⟩
  · exact ⟨true, .inr ⟨h, rfl⟩⟩

/-- The waits of a Reset Cycle that completes after `n` samples that read 0. -/
theorem minDuration_readyTrace (p : Params) (n : Nat) :
    minDuration p (pulseTrace p ++ pollTrace p.busyPollInterval n ++ [.sample .BUSY true, .sleep p.readySettle]) =
      (2 * (p.resetLowHold + p.resetHighHold) + n * p.busyPollInterval + p.readySettle) * p.tUnit := by
  simp only [minDuration_append, minDuration_cons, minDuration_nil, minDuration_pulseTrace, minDuration_pollTrace, eventDuration]
  ring

/-- The waits of a Reset Cycle that times out at the sample after `n` poll rounds: no delay follows that sample. -/
theorem minDuration_timeoutTrace (p : Params) (n : Nat) :
    minDuration p (pulseTrace p ++ pollTrace p.busyPollInterval n ++ [.sample .BUSY false]) =
      (2 * (p.resetLowHold + p.resetHighHold) + n * p.busyPollInterval) * p.tUnit := by
  simp only [minDuration_append, minDuration_cons, minDuration_nil, minDuration_pulseTrace, minDuration_pollTrace, eventDuration]
  ring

/-- Settles O52: each run's trace is known, and so are the delays in it. -/
theorem minimumDurations : Obligations.MinimumDurations := by
  intro s hs
  refine ⟨fun hv => ⟨fun v => ?_, ?_, fun i v hi => ?_, ?_⟩, fun hv => ⟨fun v => ?_, fun i v hi => ?_, fun i hi => ?_⟩,
    fun w r rest hh hw => ?_, fun n hbits hlimit => ?_, fun n c hl hc hbits => ?_⟩
  · exact ⟨_, _, (writeByteRunsToCompletion v s hv hs).2, hs, rfl, rfl, minDuration_writeByteTrace _ v⟩
  · refine ⟨_, _, _, operate_readByte hv hs, hs, rfl, rfl, ?_⟩
    rw [minDuration_readByteTrace, sdaLevels_length]
    ring
  · obtain ⟨mode, hmode⟩ := exists_mode hi
    exact ⟨_, transactionTrace .SW mode v, (oneByteTransactionRunsInSw i mode v s hmode hv hs).2, hs, rfl, rfl,
      (minDuration_transactionTrace _ _ _ _).trans (minDuration_writeByteTrace _ v)⟩
  · refine ⟨_, _, _, _, operate_readChipId hv hs rfl rfl, hs, rfl, rfl, ?_⟩
    rw [minDuration_chipIdTrace, sdaLevels_length, sdaLevels_length]
  · exact ⟨_, [.xfer [v]], (writeByteInHwIsOneTransfer v s hv).2.2 hs, hs, rfl, rfl, rfl⟩
  · obtain ⟨mode, hmode⟩ := exists_mode hi
    exact ⟨_, transactionTrace .HW mode v, oneByteTransactionRunsInHw i mode v s hmode hv hs, hs, rfl, rfl,
      minDuration_transactionTrace _ _ _ _⟩
  · have hrefused : operate i 1 s = .next (refuse .UnsupportedOperation s) := by
      rw [operate, exec_idle hs, onAccept_read_hw hv hi]
      rfl
    exact ⟨_, [], hrefused, rfl, (List.append_nil _).symm, rfl⟩
  · exact ⟨_, [], step_offered_reserved hs hh hw, rfl, (List.append_nil _).symm, rfl⟩
  · refine ⟨_, _, resetSequenceCompletesWhenReady n s hs hbits hlimit, hs, rfl, rfl, minDuration_readyTrace _ n, fun h1 h2 h3 h4 => ?_⟩
    rw [minDuration_readyTrace, h1, h2, h3, h4]
    ring
  · refine ⟨_, _, (resetSequenceTimesOut.1 n c s hs hl hc hbits).2, hs, rfl, rfl, minDuration_timeoutTrace _ n, fun h1 h2 h3 => ?_⟩
    rw [minDuration_timeoutTrace, h1, h2, h3]
    ring

/-! ## The response port -/

theorem rspValid_and_status {t : State} {r : Response} (h : t.rsp = some r) : t.rspValid = true ∧ t.rspStatus = some r.status.code := by
  simp [State.rspValid, State.rspStatus, h]

theorem rspValid_and_status_none {t : State} (h : t.rsp = none) : t.rspValid = false ∧ t.rspStatus = none := by
  simp [State.rspValid, State.rspStatus, h]

/-- The response port carries `RD0` low and `RD1` high (R91). -/
theorem rspData_bytes (t : State) : t.rspData.extractLsb' 0 8 = t.rd0 ∧ t.rspData.extractLsb' 8 8 = t.rd1 :=
  ⟨BitVec.extractLsb'_append_eq_right, BitVec.extractLsb'_append_eq_left⟩

/-- A step of a running operation is the operation's own step from the state with the port cleared, whatever the host does short of engine reset. -/
theorem step_running_of_exec {s : State} {i : Instr} {k : Nat} {P : State → Prop} (hs : s.seq = .run i k) (hh : s.host.head? ≠ some .ereset)
    (hx : ∀ host, ∃ u, exec i { s with rsp := none, host := host } = .next u ∧ P u) : ∃ u, step s = .next (observeDevice u) ∧ P u := by
  obtain ⟨host, hstep⟩ := step_busy hs hh
  obtain ⟨u, hu, hP⟩ := hx host
  exact ⟨u, by rw [hstep, hu, andThen_next], hP⟩

/-- A step that presents a response with status `st` shows its code. -/
theorem port_of_running {s : State} {i : Instr} {k : Nat} {st : Status} {d : List Byte} {P : State → Prop} (hs : s.seq = .run i k)
    (hh : s.host.head? ≠ some .ereset)
    (hx : ∀ host, ∃ u, exec i { s with rsp := none, host := host } = .next u ∧ u.rsp = some ⟨st, d⟩ ∧ P (observeDevice u)) :
    ∃ t, step s = .next t ∧ t.rspValid = true ∧ t.rspStatus = some st.code ∧ P t := by
  obtain ⟨u, hstep, hrsp, hP⟩ := step_running_of_exec hs hh hx
  obtain ⟨hvalid, hstatus⟩ := rspValid_and_status (t := observeDevice u) hrsp
  exact ⟨_, hstep, hvalid, hstatus, hP⟩

/-- Settles O53: each kind of step presents the response of its reaction, or none. -/
theorem statusCodesAndResponsePort : Obligations.StatusCodesAndResponsePort := by
  refine ⟨rfl, rfl, rfl, rfl, fun s w rest hs hh => ⟨fun r hw => ?_, fun i hw hv hi => ?_, fun i hw hi => ?_⟩, fun s hs hh => ?_,
    fun s hh => ⟨fun v hv hs => ?_, fun hv hs => ?_, fun hv hs => ?_, fun hs => ?_, fun c hs hb hl hc => ?_⟩⟩
  · exact ⟨_, step_offered_reserved hs hh hw, rspValid_and_status (r := ⟨.IllegalOperation, []⟩) rfl⟩
  · exact ⟨_, step_offered_read_hw hs hh hw hv hi, rspValid_and_status (r := ⟨.UnsupportedOperation, []⟩) rfl⟩
  · have hprovided : ¬ (s.params.variant = .HW ∧ (i = .readByte ∨ i = .readChipId)) := by
      rintro ⟨hv, hread⟩
      obtain hsw | ⟨hnot, hnot'⟩ := hi
      · simp [hv] at hsw
      · exact hread.elim hnot hnot'
    exact ⟨_, step_offered_op hs hh hw, rspValid_and_status_none (onAccept_rsp_provided (s := { s with rsp := none, host := rest }) hprovided)⟩
  · exact ⟨_, step_idle_quiet hs (.inl ⟨hh, rfl⟩), rspValid_and_status_none rfl⟩
  · obtain ⟨t, hstep, hvalid, hstatus, -⟩ := port_of_running (P := fun _ => True) hs hh fun host =>
      ⟨_, (writeByteInHwIsOneTransfer v { s with rsp := none, host := host } hv).2.1 hs, rfl, trivial⟩
    exact ⟨t, hstep, hvalid, hstatus⟩
  · obtain ⟨t, hstep, hvalid, hstatus, hrd0⟩ := port_of_running (st := .OK) (d := [s.sr]) (P := fun t => t.rd0 = s.sr) hs hh fun host =>
      ⟨_, (readByteMicroOperations { s with rsp := none, host := host } hv).2.2 hs, rfl, rfl⟩
    exact ⟨t, hstep, hvalid, hstatus, (rspData_bytes t).1.trans hrd0⟩
  · obtain ⟨t, hstep, hvalid, hstatus, hrd0, hrd1⟩ := port_of_running (st := .OK) (d := [s.rd0, s.rd1])
      (P := fun t => t.rd0 = s.rd0 ∧ t.rd1 = s.rd1) hs hh fun host => by
      obtain ⟨-, -, -, -, -, -, -, hlast⟩ := readChipIdMicroOperations { s with rsp := none, host := host } hv
      exact ⟨_, hlast hs, rfl, rfl, rfl⟩
    exact ⟨t, hstep, hvalid, hstatus, (rspData_bytes t).1.trans hrd0, (rspData_bytes t).2.trans hrd1⟩
  · obtain ⟨t, hstep, hvalid, hstatus, -⟩ := port_of_running (P := fun _ => True) hs hh fun host =>
      ⟨_, exec_readySettle (s := { s with rsp := none, host := host }) hs, rfl, trivial⟩
    exact ⟨t, hstep, hvalid, hstatus⟩
  · obtain ⟨t, hstep, hvalid, hstatus, -⟩ := port_of_running (P := fun _ => True) hs hh fun host =>
      ⟨_, (exec_sampleBusy (s := { s with rsp := none, host := host }) hs).trans
        (congrArg _ (pollDecision_at_limit (s := State.polled { s with rsp := none, host := host }) hb hl hc)), rfl, trivial⟩
    exact ⟨t, hstep, hvalid, hstatus⟩

end Sys2Proof.Machine
end
